-- ==== Sys2Proof/Config.lean ====
section
/-! DEFINITION. The implementation parameters of 00_scope.md rule R7, each under the name the spec gives it.
The block leaves no value open (93_implementation_defined.md: no case is `any value`), so no opaque constant stands here. -/

namespace Sys2Proof.Config

/-- Width of a symbol and of an artifact byte. -/
abbrev SYM_W : Nat := 8
/-- Number of symbols, entries of CODE. -/
abbrev NSYM : Nat := 256
/-- Longest code a CODE entry can hold, in bits. -/
abbrev CODE_MAXLEN : Nat := 255
/-- Width of the LEN field of a CODE entry. -/
abbrev LEN_W : Nat := 8
/-- Width of a CODE entry. -/
abbrev CODE_W : Nat := 263
/-- Width of a node index. -/
abbrev NODE_IDX_W : Nat := 9
/-- Entries of NODE. -/
abbrev NNODE : Nat := 512
/-- Width of a NODE entry. -/
abbrev NODE_W : Nat := 21
/-- Width of the ROOT descriptor. -/
abbrev ROOT_W : Nat := 10
/-- Width of DEC.total and DEC.produced. -/
abbrev COUNT_W : Nat := 32
/-- Width of the opcode field of a command word. -/
abbrev OP_W : Nat := 4
/-- Width of the argument field of a command word. -/
abbrev ARG_W : Nat := 32
/-- Width of a command word. -/
abbrev CMD_W : Nat := 36
/-- Width of the tag of a response element. -/
abbrev RSP_TAG_W : Nat := 4
/-- Width of the data of a response element. -/
abbrev RSP_DATA_W : Nat := 264

end Sys2Proof.Config
end

