-- ==== Sys2Proof/Word.lean ====
section
/-! DEFINITION. The words of the block (00_scope.md rules R7 and R11): every quantity is an unsigned bit vector of a fixed
width, bit 0 least significant. The widths are written as numerals; Sys2Proof/Laws/Word.lean shows that they are the
parameters of rule R7. -/

namespace Sys2Proof

/-- An artifact byte or a symbol (00_scope.md rule R7). -/
abbrev Byte := BitVec 8
/-- An index into NODE (30_encoding.md rule R77). -/
abbrev NodeIdx := BitVec 9
/-- A symbol count (10_state.md rule R23). -/
abbrev Count := BitVec 32
/-- The opcode field OP of a command word (30_encoding.md rule R72). -/
abbrev Opcode := BitVec 4
/-- The argument field ARG of a command word (30_encoding.md rule R72). -/
abbrev Arg := BitVec 32
/-- A command word (30_encoding.md rule R72). -/
abbrev CmdWord := BitVec 36
/-- A unit's fault code (10_state.md rules R28 and R29). -/
abbrev FaultCode := BitVec 2
/-- A whole CODE entry (30_encoding.md rule R76). -/
abbrev CodeEntry := BitVec 263
/-- A whole NODE entry (30_encoding.md rule R77). -/
abbrev NodeEntry := BitVec 21
/-- The ROOT descriptor (30_encoding.md rule R78). -/
abbrev RootEntry := BitVec 10
/-- The data part of a response element (30_encoding.md rule R79). -/
abbrev RspData := BitVec 264

end Sys2Proof
end

