-- ==== Sys2Proof/Syntax.lean ====
section
/-! DEFINITION. The ten commands of the block (30_encoding.md rule R75), one constructor per row of
spec/opcode_table.json, each with the operand its format gives it (rule R73). -/

namespace Sys2Proof

/-- The four formats of a command word (30_encoding.md rule R73): how much of ARG carries an operand. -/
inductive Format where
  /-- no operand -/
  | Z
  /-- byte operand, ARG[7:0] -/
  | B
  /-- index operand, ARG[8:0] -/
  | X
  /-- count operand, ARG[31:0] -/
  | N
  deriving DecidableEq, Repr

/-- A command with its operand (30_encoding.md rules R73 to R75). An operand is unsigned and covers its whole width. -/
inductive Instr where
  /-- ENC_INIT, 41_bit_stream_encoder.md rule R121 -/
  | encInit
  /-- ENC_PUT b, 41_bit_stream_encoder.md rule R122 -/
  | encPut (b : Byte)
  /-- ENC_FLUSH, 41_bit_stream_encoder.md rule R123 -/
  | encFlush
  /-- DEC_INIT n, 42_bit_stream_decoder.md rule R141 -/
  | decInit (n : Count)
  /-- DEC_PUT b, 42_bit_stream_decoder.md rule R142 -/
  | decPut (b : Byte)
  /-- DEC_END, 42_bit_stream_decoder.md rule R143 -/
  | decEnd
  /-- ROM_CODE b, 40_tree_rom_lookup.md rule R103 -/
  | romCode (b : Byte)
  /-- ROM_NODE i, 40_tree_rom_lookup.md rule R104 -/
  | romNode (i : NodeIdx)
  /-- ROM_ROOT, 40_tree_rom_lookup.md rule R105 -/
  | romRoot
  /-- STAT, 43_status_and_control.md rule R160 -/
  | stat
  deriving DecidableEq, Repr

end Sys2Proof
end

