-- ==== Sys2Proof/WellFormed.lean ====
section
/-! DEFINITION. Which command words spell a command: the opcode table of 30_encoding.md rule R75 as the spec prints it, and
`legal` of rule R82 over it. An `Instr` needs no check of its own: its operand's type is its field (rule R73). -/

namespace Sys2Proof

/-- One row of the table of 30_encoding.md rule R75. -/
structure OpRow where
  mnemonic : String
  matchBits : CmdWord
  maskBits : CmdWord
  deriving DecidableEq, Repr

/-- The table of 30_encoding.md rule R75, row for row. -/
def opTable : List OpRow :=
  [ ⟨"ENC_INIT", 0x100000000#36, 0xFFFFFFFFF#36⟩,
    ⟨"ENC_PUT", 0x200000000#36, 0xFFFFFFF00#36⟩,
    ⟨"ENC_FLUSH", 0x300000000#36, 0xFFFFFFFFF#36⟩,
    ⟨"DEC_INIT", 0x400000000#36, 0xF00000000#36⟩,
    ⟨"DEC_PUT", 0x500000000#36, 0xFFFFFFF00#36⟩,
    ⟨"DEC_END", 0x600000000#36, 0xFFFFFFFFF#36⟩,
    ⟨"ROM_CODE", 0x800000000#36, 0xFFFFFFF00#36⟩,
    ⟨"ROM_NODE", 0x900000000#36, 0xFFFFFFE00#36⟩,
    ⟨"ROM_ROOT", 0xA00000000#36, 0xFFFFFFFFF#36⟩,
    ⟨"STAT", 0xC00000000#36, 0xFFFFFFFFF#36⟩ ]

/-- A word is the command of a row exactly when `(w AND mask) = match` (30_encoding.md rule R75). -/
def OpRow.covers (r : OpRow) (w : CmdWord) : Bool := w &&& r.maskBits == r.matchBits

/-- `legal(w)` of 30_encoding.md rule R82: some row of the table covers the word. -/
def legal (w : CmdWord) : Bool := opTable.any (·.covers w)

end Sys2Proof
end

