-- ==== Sys2Proof/Decode.lean ====
section
/-! DEFINITION. Decoding and encoding of command words (30_encoding.md rules R72 to R75 and R82), written from the field
layout and the formats, not from the match and mask columns of `opTable`: that the two agree is a statement. -/

namespace Sys2Proof

/-- Why a command word is illegal (30_encoding.md rule R82). -/
inductive IllegalWord where
  /-- OP is one of the reserved opcodes 0x0, 0x7, 0xB, 0xD, 0xE, 0xF -/
  | reservedOpcode (op : Opcode)
  /-- OP is assigned and a must-be-zero bit of ARG is 1 -/
  | mustBeZeroBitSet (op : Opcode) (arg : Arg)
  deriving DecidableEq, Repr

/-- OP = cmd[35:32] (30_encoding.md rule R72). -/
def CmdWord.op (w : CmdWord) : Opcode := w.extractLsb' 32 4

/-- ARG = cmd[31:0] (30_encoding.md rule R72). -/
def CmdWord.arg (w : CmdWord) : Arg := w.extractLsb' 0 32

/-- The format of each assigned opcode; none for a reserved one (30_encoding.md rules R73, R75 and R82). -/
def formatOf (op : Opcode) : Option Format :=
  match op.toNat with
  | 0x1 => some .Z
  | 0x2 => some .B
  | 0x3 => some .Z
  | 0x4 => some .N
  | 0x5 => some .B
  | 0x6 => some .Z
  | 0x8 => some .B
  | 0x9 => some .X
  | 0xA => some .Z
  | 0xC => some .Z
  | _ => none

/-- How many low bits of ARG carry the operand; the rest must be zero (30_encoding.md rule R73). -/
def Format.operandBits : Format → Nat
  | .Z => 0
  | .B => 8
  | .X => 9
  | .N => 32

/-- Whether the must-be-zero part of ARG is zero (30_encoding.md rule R73). -/
def Format.accepts (f : Format) (arg : Arg) : Bool := decide (arg.toNat < 2 ^ f.operandBits)

/-- The command of an assigned opcode, its operand taken from the low bits of ARG (30_encoding.md rules R74 and R75). -/
def instrOf (op : Opcode) (arg : Arg) : Option Instr :=
  match op.toNat with
  | 0x1 => some .encInit
  | 0x2 => some (.encPut (arg.extractLsb' 0 8))
  | 0x3 => some .encFlush
  | 0x4 => some (.decInit arg)
  | 0x5 => some (.decPut (arg.extractLsb' 0 8))
  | 0x6 => some .decEnd
  | 0x8 => some (.romCode (arg.extractLsb' 0 8))
  | 0x9 => some (.romNode (arg.extractLsb' 0 9))
  | 0xA => some .romRoot
  | 0xC => some .stat
  | _ => none

/-- The command a word spells, or why it spells none (30_encoding.md rules R75 and R82). -/
def decode (w : CmdWord) : Except IllegalWord Instr :=
  match formatOf (CmdWord.op w), instrOf (CmdWord.op w) (CmdWord.arg w) with
  | some f, some i =>
    if f.accepts (CmdWord.arg w) then .ok i
    else .error (.mustBeZeroBitSet (CmdWord.op w) (CmdWord.arg w))
  | _, _ => .error (.reservedOpcode (CmdWord.op w))

/-- OP of a command (30_encoding.md rule R75). -/
def Instr.op : Instr → Opcode
  | .encInit => 0x1#4
  | .encPut _ => 0x2#4
  | .encFlush => 0x3#4
  | .decInit _ => 0x4#4
  | .decPut _ => 0x5#4
  | .decEnd => 0x6#4
  | .romCode _ => 0x8#4
  | .romNode _ => 0x9#4
  | .romRoot => 0xA#4
  | .stat => 0xC#4

/-- ARG of a command: the operand zero-extended (30_encoding.md rules R73 and R74). -/
def Instr.arg : Instr → Arg
  | .encPut b => b.setWidth 32
  | .decInit n => n
  | .decPut b => b.setWidth 32
  | .romCode b => b.setWidth 32
  | .romNode i => i.setWidth 32
  | .encInit => 0#32
  | .encFlush => 0#32
  | .decEnd => 0#32
  | .romRoot => 0#32
  | .stat => 0#32

/-- The command word of a command, OP in the high four bits (30_encoding.md rule R72). -/
def encode (i : Instr) : CmdWord := i.op ++ i.arg

/-- The name of a command (30_encoding.md rule R75). -/
def Instr.mnemonic : Instr → String
  | .encInit => "ENC_INIT"
  | .encPut _ => "ENC_PUT"
  | .encFlush => "ENC_FLUSH"
  | .decInit _ => "DEC_INIT"
  | .decPut _ => "DEC_PUT"
  | .decEnd => "DEC_END"
  | .romCode _ => "ROM_CODE"
  | .romNode _ => "ROM_NODE"
  | .romRoot => "ROM_ROOT"
  | .stat => "STAT"

/-- The decoder's reading of a word given as a number. `nbits` is how many low bits of `w` count; a number with a 1 above
bit 35 is no command word, since a word has 36 bits (30_encoding.md rule R72). Log entry 5. -/
def decodeTableWord (nbits w : Nat) : Option Instr :=
  if w % 2 ^ nbits < 2 ^ 36 then
    match decode (BitVec.ofNat 36 (w % 2 ^ nbits)) with
    | .ok i => some i
    | .error _ => none
  else none

end Sys2Proof
end

