-- ==== Sys2Proof/Machine/State.lean ====
section
/-! DEFINITION. What the machine holds: the record S of 10_state.md rule R20, the three output histories of rule R36, the ROM
image of 00_scope.md rule R8 (a parameter, held here because a step takes nothing but a state: log entry 1) and the accepted
command words that wait to be executed (log entry 4). All of it is plain data. -/

namespace Sys2Proof.Machine

/-- A read-only table: the pairs (index, entry) of the entries that are not all-zero (30_encoding.md rule R87), indices
strictly rising. What an unlisted index reads as is zero (log entry 3). -/
abbrev Memory (width : Nat) := List (Nat × BitVec width)

/-- The ROM image IMG = (CODE, NODE, ROOT) (00_scope.md rule R8, 10_state.md rule R35). -/
structure Image where
  /-- CODE, addressed by a symbol -/
  code : Memory 263
  /-- NODE, addressed by a node index -/
  node : Memory 21
  /-- ROOT -/
  root : RootEntry
  deriving DecidableEq, Repr

/-- The empty image X0 of 95_test_vectors.md section 2: every entry zero, no tree. -/
def Image.empty : Image := { code := [], node := [], root := 0#10 }

/-- The registers of ENC (10_state.md rules R22 and R28). -/
structure Enc where
  /-- the group being filled, right-aligned -/
  acc : Byte
  /-- how many bits of the group are filled -/
  nbits : BitVec 3
  /-- 0 none, 1 ENC_NO_CODE -/
  fault : FaultCode
  deriving DecidableEq, Repr

/-- The registers of DEC (10_state.md rules R23, R24, R26 and R29). -/
structure Dec where
  /-- total symbol count of the session -/
  total : Count
  /-- symbols emitted so far in the session -/
  produced : Count
  /-- walk position -/
  cur : NodeIdx
  /-- 0 none, 1 DEC_NO_CHILD, 2 DEC_TRUNCATED, 3 DEC_NO_TREE -/
  fault : FaultCode
  deriving DecidableEq, Repr

/-- A response element (30_encoding.md rule R79). -/
structure Response where
  /-- the opcode of the command answered -/
  tag : Opcode
  /-- the value read, zero-extended -/
  data : RspData
  deriving DecidableEq, Repr

/-- The state of the block, with its histories, its image and its waiting commands. -/
structure State where
  /-- ENC.acc, ENC.nbits, ENC.fault -/
  enc : Enc
  /-- DEC.total, DEC.produced, DEC.cur, DEC.fault -/
  dec : Dec
  /-- CMD_ERR (10_state.md rule R30) -/
  cmdErr : Bool
  /-- the history enc_out, first byte first (10_state.md rule R36) -/
  encOut : List Byte
  /-- the history dec_out, first symbol first (10_state.md rule R36) -/
  decOut : List Byte
  /-- the history rsp, first element first (10_state.md rule R36) -/
  rsp : List Response
  /-- the ROM image, which no step changes -/
  img : Image
  /-- accepted command words not yet executed, oldest first -/
  cmdQueue : List CmdWord
  deriving DecidableEq, Repr

/-- Why the machine stops with a fault: never. Every command completes on every state and image (60_exceptions.md rule R194,
93_implementation_defined.md), and a unit's fault is a code in its register, after which the block goes on (rule R193).
The type has no constructor. Log entry 6. -/
inductive Fault where
  deriving DecidableEq, Repr

/-- Why a move is given no meaning. -/
inductive Refusal where
  /-- Raised by an arm of `exec` whose instruction has no meaning in the model; no arm raises it. Safe. -/
  | notModelled (mnemonic : String)
  /-- Raised by `Bench.edge` when the platform changes the image while the block is out of reset
  (93_implementation_defined.md entry U9: the model has no such event). Safe. -/
  | imageChangedOutOfReset
  /-- Raised by `Bench.edge` when the host withdraws or changes a command word that it has offered and the block not yet
  accepted (30_encoding.md rule R71: the sender may not). Safe. -/
  | commandWithdrawn
  deriving DecidableEq, Repr

/-- The state at the release of reset with the image `img` installed: every element of S is zero and the histories are
empty (10_state.md rule R39). -/
def State.resetWith (img : Image) : State :=
  { enc := { acc := 0#8, nbits := 0#3, fault := 0#2 }
    dec := { total := 0#32, produced := 0#32, cur := 0#9, fault := 0#2 }
    cmdErr := false
    encOut := []
    decOut := []
    rsp := []
    img := img
    cmdQueue := [] }

/-- The machine right after reset. The image is a parameter, to which the spec gives no value; here it is the empty one
(log entry 2, DESIGN CHOICE). -/
def State.reset : State := State.resetWith Image.empty

end Sys2Proof.Machine
end

