-- ==== Sys2Proof/Machine/Ops.lean ====
section
/-! DEFINITION. The named operations over tables, the image, the streams and the fault fields: reading and installing an
entry, the three lookups of 40_tree_rom_lookup.md rules R100 to R102, appending to a stream (00_scope.md rule R11), recording
a fault (60_exceptions.md rule R190) and returning from one (rule R199), an illegal word (30_encoding.md rule R82), and taking
the next command word. -/

namespace Sys2Proof.Machine

/-! ### Tables -/

/-- The entry at index `k`; an unlisted entry is zero (30_encoding.md rule R87). -/
def Memory.read {width : Nat} : Memory width → Nat → BitVec width
  | [], _ => 0
  | (a, v) :: m, k => if a = k then v else Memory.read m k

/-- The table with entry `v` at index `k`. The block itself never writes a table (20_memory.md rule R59); this is how the host
builds an image. A zero entry is not listed, so equal tables are equal lists. -/
def Memory.write {width : Nat} : Memory width → Nat → BitVec width → Memory width
  | [], k, v => if v = 0 then [] else [(k, v)]
  | (a, u) :: m, k, v =>
    if k < a then (if v = 0 then (a, u) :: m else (k, v) :: (a, u) :: m)
    else if k = a then (if v = 0 then m else (k, v) :: m)
    else (a, u) :: Memory.write m k v

/-- From index `lo` on: indices strictly rising, each below `entries`, no entry zero. -/
def Memory.wfFrom {width : Nat} (entries : Nat) : Nat → Memory width → Bool
  | _, [] => true
  | lo, (a, v) :: m =>
    decide (lo ≤ a) && decide (a < entries) && decide (v ≠ 0) && Memory.wfFrom entries (a + 1) m

/-- The canonical form of a table of `entries` entries. -/
def Memory.wf {width : Nat} (entries : Nat) (m : Memory width) : Bool := Memory.wfFrom entries 0 m

/-- Both tables of an image are in canonical form, with the index ranges of 20_memory.md rule R58. -/
def Image.canonical (img : Image) : Bool :=
  Memory.wf Config.NSYM img.code && Memory.wf Config.NNODE img.node

/-- CODE[s], the whole entry (20_memory.md rule R55). -/
def Image.codeEntry (img : Image) (s : Byte) : CodeEntry := img.code.read s.toNat

/-- NODE[i], the whole entry (20_memory.md rule R55). -/
def Image.nodeEntry (img : Image) (i : NodeIdx) : NodeEntry := img.node.read i.toNat

/-! ### Lookups -/

/-- What CodeLookup returns (40_tree_rom_lookup.md rule R100). -/
structure CodeFields where
  len : BitVec 8
  bits : BitVec 255
  deriving DecidableEq, Repr

/-- What NodeLookup returns (40_tree_rom_lookup.md rule R101). -/
structure NodeFields where
  leaf : Bool
  sym : Byte
  lv : Bool
  left : NodeIdx
  rv : Bool
  right : NodeIdx
  deriving DecidableEq, Repr

/-- What RootLookup returns (40_tree_rom_lookup.md rule R102). -/
structure RootFields where
  valid : Bool
  idx : NodeIdx
  deriving DecidableEq, Repr

/-- LEN and BITS of a CODE entry (30_encoding.md rule R76). -/
def codeFields (e : CodeEntry) : CodeFields :=
  { len := e.extractLsb' 255 8, bits := e.extractLsb' 0 255 }

/-- The six fields of a NODE entry, all of them always extracted (40_tree_rom_lookup.md rule R101). -/
def nodeFields (e : NodeEntry) : NodeFields :=
  { leaf := e.getLsbD 20
    sym := e.extractLsb' 0 8
    lv := e.getLsbD 19
    left := e.extractLsb' 10 9
    rv := e.getLsbD 9
    right := e.extractLsb' 0 9 }

/-- RV_ROOT and RIDX of the ROOT descriptor (30_encoding.md rule R78). -/
def rootFields (e : RootEntry) : RootFields :=
  { valid := e.getLsbD 9, idx := e.extractLsb' 0 9 }

/-- CodeLookup(s) (40_tree_rom_lookup.md rule R100). -/
def Image.codeLookup (img : Image) (s : Byte) : CodeFields := codeFields (img.codeEntry s)

/-- NodeLookup(i) (40_tree_rom_lookup.md rule R101). -/
def Image.nodeLookup (img : Image) (i : NodeIdx) : NodeFields := nodeFields (img.nodeEntry i)

/-- RootLookup() (40_tree_rom_lookup.md rule R102). -/
def Image.rootLookup (img : Image) : RootFields := rootFields img.root

/-! ### Streams -/

/-- `emit enc_out` for each byte in turn. -/
def State.emitEnc (s : State) (bs : List Byte) : State := { s with encOut := s.encOut ++ bs }

/-- `emit dec_out` for each symbol in turn. -/
def State.emitDec (s : State) (bs : List Byte) : State := { s with decOut := s.decOut ++ bs }

/-- `emit rsp (TAG, DATA)`. -/
def State.emitRsp (s : State) (tag : Opcode) (data : RspData) : State :=
  { s with rsp := s.rsp ++ [{ tag := tag, data := data }] }

/-! ### Faults -/

/-- ENC_NO_CODE (60_exceptions.md rule R191). -/
def encNoCode : FaultCode := 1#2
/-- DEC_NO_CHILD (60_exceptions.md rule R191). -/
def decNoChild : FaultCode := 1#2
/-- DEC_TRUNCATED (60_exceptions.md rule R191). -/
def decTruncated : FaultCode := 2#2
/-- DEC_NO_TREE (60_exceptions.md rule R191). -/
def decNoTree : FaultCode := 3#2

/-- What `fault U <- c` leaves in a fault field: the first code stays (60_exceptions.md rule R190). -/
def firstFault (now c : FaultCode) : FaultCode := if now = 0#2 then c else now

/-- `fault ENC <- c`: exactly one field changes (60_exceptions.md rules R190 and R198). -/
def Enc.raise (e : Enc) (c : FaultCode) : Enc := { e with fault := firstFault e.fault c }

/-- `fault DEC <- c`: exactly one field changes (60_exceptions.md rules R190 and R198). -/
def Dec.raise (d : Dec) (c : FaultCode) : Dec := { d with fault := firstFault d.fault c }

/-- The encoder's initial state: what ENC_INIT and reset leave (41_bit_stream_encoder.md rule R121). It is also the encoder's
return from a fault (60_exceptions.md rule R199). -/
def Enc.fresh : Enc := { acc := 0#8, nbits := 0#3, fault := 0#2 }

/-- The decoder at the start of a session of `n` symbols, before the tree is looked for: it is also the decoder's return
from a fault (42_bit_stream_decoder.md rule R141, 60_exceptions.md rule R199). With no tree the walk position is 0. -/
def Dec.fresh (r : RootFields) (n : Count) : Dec :=
  { total := n, produced := 0#32, cur := if r.valid then r.idx else 0#9, fault := 0#2 }

/-- An illegal command word sets CMD_ERR and does nothing else (30_encoding.md rule R82). -/
def State.illegalWord (s : State) : State := { s with cmdErr := true }

/-! ### Command words -/

/-- The oldest accepted command word and the state without it; none when no word waits (log entry 4). -/
def State.fetch (s : State) : Option (CmdWord × State) :=
  match s.cmdQueue with
  | [] => none
  | w :: ws => some (w, { s with cmdQueue := ws })

/-- The state after the host's word has been accepted: it is executed after those accepted before it
(30_encoding.md rule R71). -/
def State.accept (s : State) (w : CmdWord) : State := { s with cmdQueue := s.cmdQueue ++ [w] }

/-- The state with the word `w` next in line. -/
def State.putNext (s : State) (w : CmdWord) : State := { s with cmdQueue := w :: s.cmdQueue }

end Sys2Proof.Machine
end

