-- ==== Sys2Proof/Machine/Operands.lean ====
section
/-! DEFINITION. How operands are read as bit strings: the code of a symbol, first-transmitted bit first (20_memory.md rule R54),
and an artifact byte, most significant bit first (rule R50); and the child a bit selects (42_bit_stream_decoder.md
rule R150). -/

namespace Sys2Proof.Machine

/-- The code c_0 c_1 ... c_(LEN-1) with c_i = BITS[254 - i] (30_encoding.md rule R76). Bits beyond LEN are not read
(rule R83). -/
def CodeFields.string (c : CodeFields) : List Bool :=
  (List.range c.len.toNat).map fun i => c.bits.getLsbD (Config.CODE_MAXLEN - 1 - i)

/-- The bits of an artifact byte, bit 7 first (20_memory.md rule R50). -/
def byteBits (b : Byte) : List Bool := [7, 6, 5, 4, 3, 2, 1, 0].map fun k => b.getLsbD k

/-- The child of an internal node on a bit, if it is valid: LEFT on 0, RIGHT on 1 (42_bit_stream_decoder.md rule R150). -/
def NodeFields.child (n : NodeFields) (bit : Bool) : Option NodeIdx :=
  if bit then (if n.rv then some n.right else none)
  else (if n.lv then some n.left else none)

end Sys2Proof.Machine
end

