-- ==== Sys2Proof/Machine/Flags.lean ====
section
/-! DEFINITION. The derived predicates and the status word: DEC_DONE (10_state.md rule R25), when a unit ignores its data
commands (60_exceptions.md rule R193), fault_o (rule R196) and STATUS (10_state.md rule R32). -/

namespace Sys2Proof.Machine

/-- DEC_DONE is `DEC.produced = DEC.total` (10_state.md rule R25). -/
def Dec.done (d : Dec) : Bool := d.produced == d.total

/-- Whether DEC_PUT reads no further bit: a fault is recorded or the session is done (42_bit_stream_decoder.md
rule R142). -/
def Dec.stopped (d : Dec) : Bool := d.fault != 0#2 || d.done

/-- DEC_DONE of the state. -/
def State.decDone (s : State) : Bool := s.dec.done

/-- The output fault_o (60_exceptions.md rule R196). -/
def State.faultO (s : State) : Bool := s.enc.fault != 0#2 || s.dec.fault != 0#2 || s.cmdErr

/-- STATUS, from bit 263 down to bit 0 (10_state.md rule R32, 43_status_and_control.md rule R160). -/
def State.statusWord (s : State) : RspData :=
  0#160                                  -- [263:104] reserved
    ++ s.enc.acc                         -- [103:96] ENC_ACC
    ++ s.dec.total                       -- [95:64] DEC_TOTAL
    ++ s.dec.produced                    -- [63:32] DEC_PRODUCED
    ++ 0#7                               -- [31:25] reserved
    ++ s.dec.cur                         -- [24:16] DEC_CUR
    ++ 0#5                               -- [15:11] reserved
    ++ s.enc.nbits                       -- [10:8] ENC_NBITS
    ++ 0#1                               -- [7] reserved
    ++ BitVec.ofBool s.img.rootLookup.valid -- [6] ROOT_VALID
    ++ BitVec.ofBool s.decDone           -- [5] DEC_DONE
    ++ BitVec.ofBool s.cmdErr            -- [4] CMD_ERR
    ++ s.dec.fault                       -- [3:2] DEC_FAULT
    ++ s.enc.fault                       -- [1:0] ENC_FAULT

end Sys2Proof.Machine
end

