-- ==== Sys2Proof/Machine/Decoder.lean ====
section
/-! DEFINITION. The decoder commands (42_bit_stream_decoder.md): DEC_INIT, DEC_PUT, DEC_END. The decoder reads only NODE and
ROOT and writes only DEC's registers and dec_out (rule R140). -/

namespace Sys2Proof.Machine

/-- One bit moves the walk (42_bit_stream_decoder.md rule R142, the body of the loop after the test that ends it). Answers the
registers and the symbols emitted. -/
def Dec.walkBit (img : Image) (d : Dec) (bit : Bool) : Dec × List Byte :=
  let n := img.nodeLookup d.cur
  if n.leaf then (d.raise decNoChild, [])
  else
    match n.child bit with
    | none => (d.raise decNoChild, [])
    | some i =>
      let m := img.nodeLookup i
      if m.leaf then ({ d with produced := d.produced + 1#32, cur := img.rootLookup.idx }, [m.sym])
      else ({ d with cur := i }, [])

/-- The bits move the walk in turn until the decoder is done or faulted; the rest are dropped unread
(42_bit_stream_decoder.md rule R142, the loop). -/
def Dec.walkBits (img : Image) : List Bool → Dec → Dec × List Byte
  | [], d => (d, [])
  | bit :: bits, d =>
    if d.stopped then (d, [])
    else
      let one := d.walkBit img bit
      let rest := Dec.walkBits img bits one.1
      (rest.1, one.2 ++ rest.2)

/-- The registers after DEC_INIT n: a fresh session, with DEC_NO_TREE if the image has no tree and `n` is not 0
(42_bit_stream_decoder.md rule R141). -/
def Dec.start (r : RootFields) (n : Count) : Dec :=
  if r.valid = false ∧ n ≠ 0#32 then (Dec.fresh r n).raise decNoTree else Dec.fresh r n

/-- The bits of an artifact byte move the walk, the symbols reached go to dec_out. -/
def State.decWalk (s : State) (bits : List Bool) : State :=
  { s with dec := (Dec.walkBits s.img bits s.dec).1 }.emitDec (Dec.walkBits s.img bits s.dec).2

/-- DEC_INIT n (42_bit_stream_decoder.md rule R141). -/
def execDecInit (n : Count) (s : State) : Host.Outcome State Fault Refusal :=
  .next { s with dec := Dec.start s.img.rootLookup n }

/-- DEC_PUT b (42_bit_stream_decoder.md rule R142). -/
def execDecPut (b : Byte) (s : State) : Host.Outcome State Fault Refusal :=
  .next (s.decWalk (byteBits b))

/-- DEC_END (42_bit_stream_decoder.md rule R143). -/
def execDecEnd (s : State) : Host.Outcome State Fault Refusal :=
  if s.dec.fault = 0#2 ∧ s.dec.produced ≠ s.dec.total then
    .next { s with dec := s.dec.raise decTruncated }
  else .next s

end Sys2Proof.Machine
end

