-- ==== Sys2Proof/Machine/Encoder.lean ====
section
/-! DEFINITION. The encoder commands (41_bit_stream_encoder.md): ENC_INIT, ENC_PUT, ENC_FLUSH. The encoder reads only CODE and
writes only ENC's registers and enc_out (rule R120). -/

namespace Sys2Proof.Machine

/-- One code bit enters the group at bit 0; a group of 8 bits is emitted and a new one started (41_bit_stream_encoder.md
rule R122, the body of the loop). Answers the registers and the bytes emitted. -/
def Enc.pushBit (e : Enc) (c : Bool) : Enc × List Byte :=
  let acc : Byte := (e.acc ++ BitVec.ofBool c).setWidth 8
  if e.nbits = 7#3 then ({ e with acc := 0#8, nbits := 0#3 }, [acc])
  else ({ e with acc := acc, nbits := e.nbits + 1#3 }, [])

/-- The bits of a code enter the group in turn, first code bit first (41_bit_stream_encoder.md rule R122, the loop). -/
def Enc.pushBits : List Bool → Enc → Enc × List Byte
  | [], e => (e, [])
  | c :: cs, e =>
    let one := e.pushBit c
    let rest := Enc.pushBits cs one.1
    (rest.1, one.2 ++ rest.2)

/-- The byte ENC_FLUSH makes of a partial group: shifted left by `8 - ENC.nbits` (41_bit_stream_encoder.md rule R123). -/
def Enc.flushByte (e : Enc) : Byte := e.acc <<< (8 - e.nbits.toNat)

/-- The bits `cs` are appended to the group, what it completes to enc_out. -/
def State.encAppend (s : State) (cs : List Bool) : State :=
  { s with enc := (Enc.pushBits cs s.enc).1 }.emitEnc (Enc.pushBits cs s.enc).2

/-- ENC_INIT (41_bit_stream_encoder.md rule R121). -/
def execEncInit (s : State) : Host.Outcome State Fault Refusal :=
  .next { s with enc := Enc.fresh }

/-- ENC_PUT b (41_bit_stream_encoder.md rule R122). -/
def execEncPut (b : Byte) (s : State) : Host.Outcome State Fault Refusal :=
  if s.enc.fault ≠ 0#2 then .next s
  else if (s.img.codeLookup b).len = 0#8 then .next { s with enc := s.enc.raise encNoCode }
  else .next (s.encAppend (s.img.codeLookup b).string)

/-- ENC_FLUSH (41_bit_stream_encoder.md rule R123). -/
def execEncFlush (s : State) : Host.Outcome State Fault Refusal :=
  if s.enc.fault ≠ 0#2 then .next s
  else
    .next { s.emitEnc (if s.enc.nbits ≠ 0#3 then [s.enc.flushByte] else []) with
      enc := { s.enc with acc := 0#8, nbits := 0#3 } }

end Sys2Proof.Machine
end

