-- ==== Sys2Proof/Machine/Lookup.lean ====
section
/-! DEFINITION. The commands that answer the host: ROM_CODE, ROM_NODE, ROM_ROOT (40_tree_rom_lookup.md rules R103 to R105) and
STAT (43_status_and_control.md rule R160). Each appends one response whose tag is its opcode (30_encoding.md rule R79) and
writes nothing else. -/

namespace Sys2Proof.Machine

/-- ROM_CODE b (40_tree_rom_lookup.md rule R103). -/
def execRomCode (b : Byte) (s : State) : Host.Outcome State Fault Refusal :=
  .next (s.emitRsp 0x8#4 ((s.img.codeEntry b).setWidth 264))

/-- ROM_NODE i (40_tree_rom_lookup.md rule R104). -/
def execRomNode (i : NodeIdx) (s : State) : Host.Outcome State Fault Refusal :=
  .next (s.emitRsp 0x9#4 ((s.img.nodeEntry i).setWidth 264))

/-- ROM_ROOT (40_tree_rom_lookup.md rule R105). -/
def execRomRoot (s : State) : Host.Outcome State Fault Refusal :=
  .next (s.emitRsp 0xA#4 (s.img.root.setWidth 264))

/-- STAT (43_status_and_control.md rule R160). -/
def execStat (s : State) : Host.Outcome State Fault Refusal :=
  .next (s.emitRsp 0xC#4 s.statusWord)

end Sys2Proof.Machine
end

