-- ==== Sys2Proof/Machine/Dispatch.lean ====
section
/-! DEFINITION. Which meaning each command has: one arm per constructor of Instr. -/

namespace Sys2Proof.Machine

def exec (i : Instr) (s : State) : Host.Outcome State Fault Refusal :=
  match i with
  -- the encoder, 41_bit_stream_encoder.md
  | .encInit => Sys2Proof.Machine.execEncInit s
  | .encPut b => Sys2Proof.Machine.execEncPut b s
  | .encFlush => Sys2Proof.Machine.execEncFlush s
  -- the decoder, 42_bit_stream_decoder.md
  | .decInit n => Sys2Proof.Machine.execDecInit n s
  | .decPut b => Sys2Proof.Machine.execDecPut b s
  | .decEnd => Sys2Proof.Machine.execDecEnd s
  -- the lookups, 40_tree_rom_lookup.md
  | .romCode b => Sys2Proof.Machine.execRomCode b s
  | .romNode k => Sys2Proof.Machine.execRomNode k s
  | .romRoot => Sys2Proof.Machine.execRomRoot s
  -- status, 43_status_and_control.md
  | .stat => Sys2Proof.Machine.execStat s

end Sys2Proof.Machine
end

