-- ==== Sys2Proof/Machine/Step.lean ====
section
/-! DEFINITION. One step of the block: the complete execution of the oldest accepted command word (00_scope.md rule R9). -/

namespace Sys2Proof.Machine

/-- One step. An illegal word sets CMD_ERR and nothing else, and the block goes on (30_encoding.md rule R82). With no word
waiting the block waits and nothing changes (log entry 4). -/
def step (s : State) : Host.Outcome State Fault Refusal :=
  match s.fetch with
  | none => .next s
  | some (w, s') =>
    match decode w with
    | .ok i => exec i s'
    | .error _ => .next s'.illegalWord

/-- `s` with the word given as the number `w` (of which the low `nbits` bits count) next in line, on the 36 wires of the
command port. Log entry 5. -/
def State.withFetchWord (s : State) (nbits w : Nat) : State :=
  s.putNext (BitVec.ofNat 36 (w % 2 ^ nbits))

end Sys2Proof.Machine
end

