-- ==== Sys2Proof/Machine/Run.lean ====
section
/-! DEFINITION. Running a list of commands (70_reset_and_hazards.md rule R226): its result is the final state with its three
histories. -/

namespace Sys2Proof.Machine

/-- The commands executed in turn, each on the state the one before left (20_memory.md rule R60). -/
def execAll : List Instr → State → Host.Outcome State Fault Refusal
  | [], s => .next s
  | i :: is, s =>
    match exec i s with
    | .next s' => execAll is s'
    | .fault r => .fault r
    | .refused r => .refused r

/-- The host's words accepted in turn (30_encoding.md rule R71). -/
def State.acceptAll (s : State) (ws : List CmdWord) : State := ws.foldl State.accept s

/-- The words accepted and then executed, legal or not (70_reset_and_hazards.md rule R226). -/
def runWords (ws : List CmdWord) (s : State) : Host.Outcome State Fault Refusal :=
  Sys2Proof.core.run (s.acceptAll ws).cmdQueue.length (s.acceptAll ws)

end Sys2Proof.Machine
end

