-- ==== Sys2Proof/Machine/Session.lean ====
section
/-! DEFINITION. The two pseudo-commands (30_encoding.md rule R86): the command lists that are the bit-level halves of the
document's `compress` and `decompress`. -/

namespace Sys2Proof.Machine

/-- `COMPRESS b_0 ... b_(k-1)` (30_encoding.md rule R86). -/
def compressCommands (bs : List Byte) : List Instr :=
  [.encInit] ++ bs.map .encPut ++ [.encFlush]

/-- `DECOMPRESS n : b_0 ... b_(k-1)` (30_encoding.md rule R86). -/
def decompressCommands (n : Count) (bs : List Byte) : List Instr :=
  [.decInit n] ++ bs.map .decPut ++ [.decEnd]

end Sys2Proof.Machine
end

