-- ==== Sys2Proof/Machine/Assembler.lean ====
section
/-! DEFINITION. The textual syntax of command lists (30_encoding.md rules R85 and R86): one command a line, its mnemonic in
capitals, an operand after a space; `;` starts a comment. No part of the hardware. Log entry 13. -/

namespace Sys2Proof.Machine

/-- A token of a line: a run of other characters, a character in single quotes, a string in double quotes. -/
inductive Token where
  | word (cs : List Char)
  | quoted (c : Char)
  | text (cs : List Char)
  deriving DecidableEq, Repr

/-- What the lexer is inside of: nothing, a word, or a string (characters in reverse). -/
inductive LexState where
  | idle
  | inWord (rev : List Char)
  | inText (rev : List Char)
  deriving DecidableEq, Repr

/-- The token a word in progress makes, if any. -/
def LexState.flush : LexState → List Token
  | .inWord rev => [.word rev.reverse]
  | _ => []

/-- A word one character longer. -/
def LexState.push (c : Char) : LexState → LexState
  | .inWord rev => .inWord (c :: rev)
  | _ => .inWord [c]

/-- The tokens of a line; none if a string is left open. A `;` outside quotation marks starts a comment that runs to the end
of the line (30_encoding.md rule R85). R86 does not say whether a space must stand beside a quoted operand; that none need stand
after one, before a string, or before a quoted character that follows one, is the model's choice (DESIGN CHOICE,
log entry 13). -/
def lexLine : List Char → LexState → Option (List Token)
  | [], .inText _ => none
  | [], st => some st.flush
  | '"' :: cs, .inText rev => (lexLine cs .idle).map (.text rev.reverse :: ·)
  | c :: cs, .inText rev => lexLine cs (.inText (c :: rev))
  | '\'' :: c :: '\'' :: cs, .idle => (lexLine cs .idle).map (.quoted c :: ·)
  | ';' :: _, st => some st.flush
  | ' ' :: cs, st => (lexLine cs .idle).map (st.flush ++ ·)
  | '"' :: cs, st => (lexLine cs (.inText [])).map (st.flush ++ ·)
  | c :: cs, st => lexLine cs (st.push c)

/-- The digits, each at the place of its value. -/
def digitChars : List Char := "0123456789abcdef".toList

/-- The value of a digit in a base of at most 16: its place among the first `base` digits, capital or small. -/
def digitValue (base : Nat) (c : Char) : Option Nat := (digitChars.take base).idxOf? c.toLower

/-- A run of digits read on from `acc`. -/
def digitsValue (base : Nat) : List Char → Nat → Option Nat
  | [], acc => some acc
  | c :: cs, acc => (digitValue base c).bind fun v => digitsValue base cs (acc * base + v)

/-- A decimal number, or a hexadecimal one with `0x` (30_encoding.md rule R85). -/
def numberValue : List Char → Option Nat
  | '0' :: 'x' :: c :: cs => digitsValue 16 (c :: cs) 0
  | c :: cs => digitsValue 10 (c :: cs) 0
  | [] => none

/-- Whether the character is printable ASCII. -/
def printable (c : Char) : Bool := decide (0x20 ≤ c.toNat) && decide (c.toNat ≤ 0x7E)

/-- The bytes a byte operand or a string stands for (30_encoding.md rules R85 and R86). -/
def byteOperands : Token → Option (List Byte)
  | .word cs => (numberValue cs).bind fun v => if v < 256 then some [BitVec.ofNat 8 v] else none
  | .quoted c => if printable c then some [BitVec.ofNat 8 c.toNat] else none
  | .text cs => if cs.all printable then some (cs.map fun c => BitVec.ofNat 8 c.toNat) else none

/-- The bytes of a run of operands. -/
def byteRun : List Token → Option (List Byte)
  | [] => some []
  | t :: ts => (byteOperands t).bind fun bs => (byteRun ts).map (bs ++ ·)

/-- One byte operand of a command of format B: a number or a quoted character (30_encoding.md rule R85). -/
def oneByte : Token → Option Byte
  | .text _ => none
  | t => (byteOperands t).bind fun bs => bs.head?

/-- A number below `2 ^ width`. -/
def oneNumber (width : Nat) : Token → Option (BitVec width)
  | .word cs => (numberValue cs).bind fun v => if v < 2 ^ width then some (BitVec.ofNat width v) else none
  | _ => none

/-- The commands one line stands for; none if it is no line of the syntax. A blank line stands for no command. -/
def lineCommands : List Token → Option (List Instr)
  | [] => some []
  | .word m :: ops =>
    match String.ofList m, ops with
    | "ENC_INIT", [] => some [.encInit]
    | "ENC_PUT", [b] => (oneByte b).map fun v => [.encPut v]
    | "ENC_FLUSH", [] => some [.encFlush]
    | "DEC_INIT", [n] => (oneNumber 32 n).map fun v => [.decInit v]
    | "DEC_PUT", [b] => (oneByte b).map fun v => [.decPut v]
    | "DEC_END", [] => some [.decEnd]
    | "ROM_CODE", [b] => (oneByte b).map fun v => [.romCode v]
    | "ROM_NODE", [i] => (oneNumber 9 i).map fun v => [.romNode v]
    | "ROM_ROOT", [] => some [.romRoot]
    | "STAT", [] => some [.stat]
    | "COMPRESS", bs => (byteRun bs).map compressCommands
    | "DECOMPRESS", n :: .word [':'] :: bs =>
      (oneNumber 32 n).bind fun v => (byteRun bs).map (decompressCommands v)
    | _, _ => none
  | _ => none

/-- The lines of a text. 30_encoding.md rule R85 says only that a line holds one command; that LF alone ends a line, so that a CR
before it is one more character of the line, is the model's choice (DESIGN CHOICE, log entry 13). -/
def textLines : List Char → List Char → List (List Char)
  | [], rev => [rev.reverse]
  | c :: cs, rev => if c = '\n' then rev.reverse :: textLines cs [] else textLines cs (c :: rev)

/-- The commands of the lines, top to bottom. -/
def linesCommands : List (List Char) → Option (List Instr)
  | [] => some []
  | l :: ls =>
    (lexLine l .idle).bind fun ts =>
      (lineCommands ts).bind fun is => (linesCommands ls).map (is ++ ·)

/-- The commands of a command list, top to bottom (30_encoding.md rule R85). -/
def assemble (text : String) : Option (List Instr) := linesCommands (textLines text.toList [])

end Sys2Proof.Machine
end

