-- ==== Sys2Proof/Machine/ImageTree.lean ====
section
/-! DEFINITION. The tree an image denotes and when the image is well-formed (40_tree_rom_lookup.md rules R106 and R109). The
block checks none of it. -/

namespace Sys2Proof.Machine

/-- `img.Path i p k`: from node `i`, the valid child fields selected by the bits `p` in turn lead to node `k`, every node
before `k` being internal (40_tree_rom_lookup.md rule R106: "following valid child fields"). -/
inductive Image.Path (img : Image) : NodeIdx → List Bool → NodeIdx → Prop where
  /-- the empty bit string leads nowhere -/
  | here (i : NodeIdx) : Image.Path img i [] i
  /-- one edge and then the rest -/
  | edge {i j k : NodeIdx} {bit : Bool} {p : List Bool}
      (internal : (img.nodeLookup i).leaf = false)
      (child : (img.nodeLookup i).child bit = some j)
      (rest : Image.Path img j p k) : Image.Path img i (bit :: p) k

/-- The index of the root. -/
def Image.rootIdx (img : Image) : NodeIdx := img.rootLookup.idx

/-- RV_ROOT: the image has a tree. -/
def Image.hasTree (img : Image) : Bool := img.rootLookup.valid

/-- Whether NODE[i] is a leaf. -/
def Image.isLeaf (img : Image) (i : NodeIdx) : Bool := (img.nodeLookup i).leaf

/-- Node `i` is a leaf of the tree, reached from the root by the bits `p`. -/
def Image.LeafAt (img : Image) (p : List Bool) (i : NodeIdx) : Prop :=
  img.hasTree = true ∧ img.Path img.rootIdx p i ∧ img.isLeaf i = true

/-- CODE[s] holds exactly the code `p`: LEN, the bits and zero beyond them (40_tree_rom_lookup.md rule R106 clause (e)). -/
def Image.CodeIs (img : Image) (s : Byte) (p : List Bool) : Prop :=
  (img.codeLookup s).len.toNat = p.length ∧ (img.codeLookup s).string = p ∧
    ∀ k, k + p.length < Config.CODE_MAXLEN → (img.codeLookup s).bits.getLsbD k = false

/-- Both children of node `i` are valid. -/
def Image.TwoChildren (img : Image) (i : NodeIdx) : Prop :=
  (img.nodeLookup i).lv = true ∧ (img.nodeLookup i).rv = true

/-- The root has exactly one valid child, the one on `bit`, and that child is a leaf (40_tree_rom_lookup.md rule R106
clause (c), the exception). -/
def Image.OneLeafOn (img : Image) (bit : Bool) : Prop :=
  ∃ j, (img.nodeLookup img.rootIdx).child bit = some j ∧
    (img.nodeLookup img.rootIdx).child (!bit) = none ∧ img.isLeaf j = true

/-- WF(IMG), clauses (a) to (e) (40_tree_rom_lookup.md rule R106). Log entry 9. -/
structure Image.WF (img : Image) : Prop where
  /-- (a) no node is reached from the root by two different paths, hence no cycle is reached -/
  tree : img.hasTree = true → ∀ p q i, img.Path img.rootIdx p i → img.Path img.rootIdx q i → p = q
  /-- (b) `NODE[RIDX].LEAF = 0`, whether or not there is a tree -/
  rootInternal : img.isLeaf img.rootIdx = false
  /-- (c) every reachable internal node has both children, or the tree is a synthetic root over one leaf -/
  arity : img.hasTree = true →
    (∀ p i, img.Path img.rootIdx p i → img.isLeaf i = false → img.TwoChildren i) ∨
      (∃ bit, img.OneLeafOn bit)
  /-- (d) the leaves hold distinct symbols -/
  symbolsDistinct : ∀ p q i j, img.LeafAt p i → img.LeafAt q j →
    (img.nodeLookup i).sym = (img.nodeLookup j).sym → i = j
  /-- (e) the code of a leaf's symbol is the leaf's path -/
  codeOfLeaf : ∀ p i, img.LeafAt p i → img.CodeIs (img.nodeLookup i).sym p
  /-- (e) every other symbol has an all-zero entry -/
  noOtherCode : ∀ s, (∀ p i, img.LeafAt p i → (img.nodeLookup i).sym ≠ s) → img.codeEntry s = 0

/-- Clause (f): reserved fields are zero; used only where two images are compared for equality (40_tree_rom_lookup.md
rule R106, 90_conflicts.md C11). -/
structure Image.ReservedZero (img : Image) : Prop where
  /-- the reserved bits of a leaf -/
  leaf : ∀ i, img.isLeaf i = true → (img.nodeEntry i).extractLsb' 8 12 = 0#12
  /-- the LEFT field of an internal node with no left child -/
  left : ∀ i, img.isLeaf i = false → (img.nodeLookup i).lv = false → (img.nodeLookup i).left = 0#9
  /-- the RIGHT field of an internal node with no right child -/
  right : ∀ i, img.isLeaf i = false → (img.nodeLookup i).rv = false → (img.nodeLookup i).right = 0#9
  /-- RIDX with no tree -/
  root : img.hasTree = false → img.rootIdx = 0#9
  /-- entries the root does not reach -/
  unreachable : ∀ i, (img.hasTree = true → ∀ p, ¬ img.Path img.rootIdx p i) → img.nodeEntry i = 0

/-- The three shapes of tree (40_tree_rom_lookup.md rule R109). -/
inductive TreeShape where
  | empty
  | singleLeaf
  | binary
  deriving DecidableEq, Repr

/-- The shape of a well-formed image (40_tree_rom_lookup.md rule R109). -/
def Image.shape (img : Image) : TreeShape :=
  if img.hasTree = false then .empty
  else if (img.nodeLookup img.rootIdx).lv && (img.nodeLookup img.rootIdx).rv then .binary
  else .singleLeaf

end Sys2Proof.Machine
end

