-- ==== Sys2Proof/Machine/ImageBuild.lean ====
section
/-! DEFINITION. How a ROM image is made, a host-side reference procedure and not hardware (00_scope.md rule R5,
44_rom_image_construction.md rules R171 and R174 to R178): the frequency model, the Tree Builder and the Code Generator. No
rule of the block depends on it. -/

namespace Sys2Proof.Machine

/-! ### Entries -/

/-- The NODE entry of a leaf (30_encoding.md rule R77). -/
def mkLeaf (sym : Byte) : NodeEntry := 1#1 ++ 0#12 ++ sym

/-- The NODE entry of an internal node; a missing child is an all-zero field (30_encoding.md rule R77). -/
def mkInternal (left right : Option NodeIdx) : NodeEntry :=
  0#1 ++ BitVec.ofBool left.isSome ++ left.getD 0#9 ++ BitVec.ofBool right.isSome ++ right.getD 0#9

/-- The ROOT descriptor of a tree (30_encoding.md rule R78). -/
def mkRoot (idx : NodeIdx) : RootEntry := 1#1 ++ idx

/-- The CODE entry of a code: LEN, then the code left-aligned in BITS (30_encoding.md rule R76). -/
def mkCode (p : List Bool) : CodeEntry :=
  BitVec.ofNat 8 p.length ++ ((BitVec.ofBoolListBE p).setWidth 255 <<< (Config.CODE_MAXLEN - p.length))

/-! ### Frequency model -/

/-- A frequency model: the distinct symbols in ascending order, each with its count, at least 1, and the total
(44_rom_image_construction.md rule R171). -/
structure FreqModel where
  counts : List (Byte × Nat)
  total : Nat
  deriving DecidableEq, Repr

/-- `n` more occurrences of the symbol `s`. -/
def addCount (s : Byte) (n : Nat) : List (Byte × Nat) → List (Byte × Nat)
  | [] => if n = 0 then [] else [(s, n)]
  | (t, k) :: cs =>
    if s.toNat < t.toNat then (if n = 0 then (t, k) :: cs else (s, n) :: (t, k) :: cs)
    else if s = t then (t, k + n) :: cs
    else (t, k) :: addCount s n cs

/-- `count(bytes)` (44_rom_image_construction.md rule R171). -/
def FreqModel.count (bytes : List Byte) : FreqModel :=
  { counts := bytes.foldl (fun cs b => addCount b 1 cs) [], total := bytes.length }

/-! ### Tree Builder -/

/-- A pending node: (weight, sequence number), the sequence number being its index in NODE (44_rom_image_construction.md
rules R175 and R177). -/
abbrev Pending := Nat × Nat

/-- The queue order: smaller weight first, then smaller sequence number (44_rom_image_construction.md rule R175). -/
def Pending.before (x y : Pending) : Bool := decide (x.1 < y.1) || (decide (x.1 = y.1) && decide (x.2 < y.2))

/-- Insertion into the ordered queue. -/
def enqueue (x : Pending) : List Pending → List Pending
  | [] => [x]
  | y :: q => if Pending.before x y then x :: y :: q else y :: enqueue x q

/-- While two nodes are pending: pop the two least, the first becoming LEFT and the second RIGHT of the next internal node,
and push that one (44_rom_image_construction.md rules R174, R176 and R177). `fuel` bounds the merges. Answers NODE and the
number of the next unused index. -/
def mergeAll : Nat → List Pending → Nat → Memory 21 → Memory 21 × Nat
  | fuel + 1, (wa, a) :: (wb, b) :: q, next, node =>
    mergeAll fuel (enqueue (wa + wb, next) q) (next + 1)
      (node.write next (mkInternal (some (BitVec.ofNat 9 a)) (some (BitVec.ofNat 9 b))))
  | _, _, next, node => (node, next)

/-- The leaves at indices 0 to N - 1 in ascending symbol order (44_rom_image_construction.md rule R177). -/
def leafEntries (counts : List (Byte × Nat)) : Memory 21 :=
  counts.zipIdx.map fun c => (c.2, mkLeaf c.1.1)

/-- The queue seeded with one leaf per distinct symbol (44_rom_image_construction.md rule R174 step 1). -/
def seedQueue (counts : List (Byte × Nat)) : List Pending :=
  counts.zipIdx.foldl (fun q c => enqueue (c.1.2, c.2) q) []

/-- NODE and ROOT of the tree of the counts (44_rom_image_construction.md rule R177). With one distinct symbol the sole leaf
is the LEFT child of a synthetic root (rule R176). -/
def buildTree (counts : List (Byte × Nat)) : Memory 21 × RootEntry :=
  match counts with
  | [] => ([], 0#10)
  | [(s, _)] => ([(0, mkLeaf s), (1, mkInternal (some 0#9) none)], mkRoot 1#9)
  | _ =>
    let built := mergeAll counts.length (seedQueue counts) counts.length (leafEntries counts)
    (built.1, mkRoot (BitVec.ofNat 9 (built.2 - 1)))

/-! ### Code Generator -/

/-- Depth-first from node `i`, reached by the bits `p`: 0 on the way left, 1 on the way right, the accumulated bits assigned
to each leaf (44_rom_image_construction.md rule R178). `fuel` bounds the depth. -/
def codesFrom (img : Image) : Nat → NodeIdx → List Bool → Memory 263 → Memory 263
  | 0, _, _, code => code
  | fuel + 1, i, p, code =>
    let n := img.nodeLookup i
    if n.leaf then code.write n.sym.toNat (mkCode p)
    else
      let afterLeft :=
        match n.child false with
        | some j => codesFrom img fuel j (p ++ [false]) code
        | none => code
      match n.child true with
      | some j => codesFrom img fuel j (p ++ [true]) afterLeft
      | none => afterLeft

/-- `codes(Tree)` (44_rom_image_construction.md rule R178). A tree of at most 256 leaves has no path of more than 255 edges
(40_tree_rom_lookup.md rule R108), so 256 nodes deep is enough. -/
def codes (img : Image) : Memory 263 :=
  if img.hasTree then codesFrom img 256 img.rootIdx [] [] else []

/-- `build_image(freq)` (44_rom_image_construction.md rules R177 and R178). -/
def buildImage (m : FreqModel) : Image :=
  let tree := buildTree m.counts
  let bare : Image := { code := [], node := tree.1, root := tree.2 }
  { bare with code := codes bare }

end Sys2Proof.Machine
end

