-- ==== Sys2Proof/Machine/HostFlow.lean ====
section
/-! DEFINITION. The host's side of a compress and a decompress, not hardware (44_rom_image_construction.md rules R172, R173 and
R180 to R182): the table artifact as the three fields it carries (its text is log entry 12), and the two data flows that end
in the block's commands. -/

namespace Sys2Proof.Machine

/-- The three fields of the Table Artifact (44_rom_image_construction.md rule R172). -/
structure TableArtifact where
  /-- line 1, the total symbol count -/
  total : Nat
  /-- line 2, the distinct symbol count N -/
  distinct : Nat
  /-- the (codePoint, frequency) lines -/
  pairs : List (Byte × Nat)
  deriving DecidableEq, Repr

/-- Why a flow fails (44_rom_image_construction.md rules R173, R180 and R181). -/
inductive FlowError where
  /-- the declared distinct-symbol count and the number of entries disagree -/
  | malformedTable
  /-- zero distinct symbols with nonzero total -/
  | inconsistentTable
  /-- the total does not fit the argument of DEC_INIT (93_implementation_defined.md entry U14) -/
  | countTooLarge
  /-- the encoder session ended with a fault -/
  | encoderFault
  /-- the decoder session ended with a fault or short of its count -/
  | decoderFault
  deriving DecidableEq, Repr

/-- `serialize(model)`, in ascending symbol order (44_rom_image_construction.md rule R172). -/
def serialize (m : FreqModel) : TableArtifact :=
  { total := m.total, distinct := m.counts.length, pairs := m.counts }

/-- `deserialize(TableArtifact)` (44_rom_image_construction.md rule R173). The order of the lines does not matter
(91_not_in_source.md entry N18). Whether it checks that line 1 equals the sum of the frequencies the rule leaves to the host:
it does not check, and the model's total is line 1 (DESIGN CHOICE, log entry 12). -/
def deserialize (t : TableArtifact) : Except FlowError FreqModel :=
  if t.distinct = t.pairs.length then
    .ok { counts := t.pairs.foldl (fun cs c => addCount c.1 c.2 cs) [], total := t.total }
  else .error .malformedTable

/-- `compress(inputBytes)` with the block (44_rom_image_construction.md rule R180): nothing for an empty input, otherwise the
table artifact and the bit-packed artifact. -/
def compress (bytes : List Byte) : Except FlowError (Option (TableArtifact × List Byte)) :=
  let m := FreqModel.count bytes
  if m.total = 0 then .ok none
  else
    match execAll (compressCommands bytes) (State.resetWith (buildImage m)) with
    | .next s => if s.enc.fault = 0#2 then .ok (some (serialize m, s.encOut)) else .error .encoderFault
    | _ => .error .encoderFault

/-- `decompress(TableArtifact, BitPackedArtifact)` with the block (44_rom_image_construction.md rule R181). The output is
accepted only if DEC.fault is 0 and DEC_DONE is 1 at the end. -/
def decompress (t : TableArtifact) (artifact : List Byte) : Except FlowError (List Byte) :=
  match deserialize t with
  | .error e => .error e
  | .ok m =>
    if t.distinct = 0 ∧ t.total ≠ 0 then .error .inconsistentTable
    else if 2 ^ Config.COUNT_W ≤ t.total then .error .countTooLarge
    else
      match execAll (decompressCommands (BitVec.ofNat 32 t.total) artifact) (State.resetWith (buildImage m)) with
      | .next s => if s.dec.fault = 0#2 ∧ s.decDone then .ok s.decOut else .error .decoderFault
      | _ => .error .decoderFault

/-- `verify(a, b)` (44_rom_image_construction.md rule R182). -/
def verify (a b : List Byte) : Bool := a == b

end Sys2Proof.Machine
end

