-- ==== Sys2Proof/Machine/Ports.lean ====
section
/-! DEFINITION. The ports of the block and one clock edge at them (30_encoding.md rules R70 and R71, 70_reset_and_hazards.md
rules R220 to R222 and R233). What the spec leaves open, when the block accepts, works and offers, is an argument (`Timing`)
and never fixed. Log entries 7 and 8. -/

namespace Sys2Proof.Machine

/-- The block's inputs at a clock edge (30_encoding.md rule R70), and the image the platform installs, if it does. -/
structure PortsIn where
  rstN : Bool
  cmdValid : Bool
  cmd : CmdWord
  encReady : Bool
  decReady : Bool
  rspReady : Bool
  newImage : Option Image
  deriving DecidableEq, Repr

/-- The block's outputs at a clock edge (30_encoding.md rule R70). A channel's valid and data are one option: the data wires
mean nothing while valid is 0. -/
structure PortsOut where
  cmdReady : Bool
  encOut : Option Byte
  decOut : Option Byte
  rsp : Option Response
  faultO : Bool
  deriving DecidableEq, Repr

/-- What the spec leaves open at an edge (30_encoding.md rule R71, 70_reset_and_hazards.md rule R233): whether a word can be
accepted, on which output channels the block chooses to offer an element that it does not offer yet, and how many waiting
commands complete. -/
structure Timing where
  cmdReady : Bool
  encOffer : Bool
  decOffer : Bool
  rspOffer : Bool
  work : Nat
  deriving DecidableEq, Repr

/-- What an output channel remembers from edge to edge: how many elements of its history the host has taken (10_state.md
rule R36), and whether valid was 1 at the last edge with no transfer, so that it may not be withdrawn (30_encoding.md
rule R71). -/
structure Channel where
  taken : Nat
  held : Bool
  deriving DecidableEq, Repr

/-- Nothing taken and nothing offered, as in reset (70_reset_and_hazards.md rule R220). -/
def Channel.fresh : Channel := { taken := 0, held := false }

/-- The block with its output channels, and the command word the host has offered and the block not yet accepted. -/
structure Bench where
  state : State
  enc : Channel
  dec : Channel
  rsp : Channel
  cmdHeld : Option CmdWord
  deriving DecidableEq, Repr

/-- One element is transferred where valid, ready and rst_n are all 1 (30_encoding.md rule R71). -/
def transfers (valid ready rstN : Bool) : Bool := valid && ready && rstN

/-- The element a channel offers: the first one the host has not taken (10_state.md rule R36), if the block chooses to offer
one or has offered it before; an offer is not withdrawn (30_encoding.md rule R71). -/
def Channel.offer {α : Type} (choice : Bool) (history : List α) (c : Channel) : Option α :=
  if choice || c.held then history[c.taken]? else none

/-- The channel after an edge at which it offered `offered`. -/
def Channel.after {α : Type} (offered : Option α) (ready rstN : Bool) (c : Channel) : Channel :=
  if transfers offered.isSome ready rstN then { taken := c.taken + 1, held := false }
  else { taken := c.taken, held := offered.isSome }

/-- The outputs: in reset no word can be accepted, nothing is offered and fault_o is 0 (70_reset_and_hazards.md rule R220);
out of reset fault_o is that of rule R196 of 60_exceptions.md. -/
def Bench.outputs (i : PortsIn) (t : Timing) (b : Bench) : PortsOut :=
  if i.rstN then
    { cmdReady := t.cmdReady
      encOut := b.enc.offer t.encOffer b.state.encOut
      decOut := b.dec.offer t.decOffer b.state.decOut
      rsp := b.rsp.offer t.rspOffer b.state.rsp
      faultO := b.state.faultO }
  else { cmdReady := false, encOut := none, decOut := none, rsp := none, faultO := false }

/-- The block's state after the command channel's transfer, if there is one. -/
def Bench.accepted (i : PortsIn) (t : Timing) (b : Bench) : State :=
  if transfers i.cmdValid (Bench.outputs i t b).cmdReady i.rstN then b.state.accept i.cmd else b.state

/-- The command word the host must go on offering after an edge: the one it offered and the block did not accept. -/
def Bench.heldAfter (i : PortsIn) (t : Timing) (b : Bench) : Option CmdWord :=
  if i.cmdValid && !transfers i.cmdValid (Bench.outputs i t b).cmdReady i.rstN then some i.cmd else none

/-- The host keeps the sender's rule of 30_encoding.md rule R71: a command word offered and not yet accepted is offered again,
unchanged. -/
def Bench.hostHolds (i : PortsIn) (b : Bench) : Bool :=
  match b.cmdHeld with
  | none => true
  | some w => i.cmdValid && i.cmd == w

/-- The bench after an edge out of reset whose commands end in the state `s`. -/
def Bench.moved (i : PortsIn) (t : Timing) (s : State) (b : Bench) : Bench :=
  { state := s
    enc := b.enc.after (b.outputs i t).encOut i.encReady i.rstN
    dec := b.dec.after (b.outputs i t).decOut i.decReady i.rstN
    rsp := b.rsp.after (b.outputs i t).rsp i.rspReady i.rstN
    cmdHeld := b.heldAfter i t }

/-- The bench in reset with an image: the state is the reset state, what was waiting, offered or not taken is lost
(70_reset_and_hazards.md rules R220 to R222). -/
def Bench.resetWith (img : Image) : Bench :=
  { state := State.resetWith img, enc := .fresh, dec := .fresh, rsp := .fresh, cmdHeld := none }

/-- One clock edge. In reset a new image may be installed (70_reset_and_hazards.md rule R223); out of reset a new image has
no meaning (20_memory.md rule R63, 93_implementation_defined.md entry U9), nor has a command word that the host withdraws
or changes before it is accepted (30_encoding.md rule R71). -/
def Bench.edge (i : PortsIn) (t : Timing) (b : Bench) : Host.Outcome Bench Fault Refusal :=
  if i.rstN then
    if i.newImage.isSome then .refused .imageChangedOutOfReset
    else if b.hostHolds i then
      match Sys2Proof.core.run t.work (b.accepted i t) with
      | .next s => .next (b.moved i t s)
      | .fault r => .fault r
      | .refused r => .refused r
    else .refused .commandWithdrawn
  else .next (Bench.resetWith (i.newImage.getD b.state.img))

/-- What 30_encoding.md rule R71 asks of a channel from one edge to the next, both out of reset: an offer that was not
transferred stays, with the same data. -/
def keepsOffer {α : Type} (now next : Option α) (ready : Bool) : Prop :=
  now.isSome → ready = false → next = now

end Sys2Proof.Machine
end

