-- ==== Sys2Proof/Safety.lean ====
section
/-! DEFINITION. The terms claims are stated in: the invariants the spec derives (10_state.md rules R22, R24, R26 and R28), when a
session has succeeded (70_reset_and_hazards.md rule R226), the bits a list of bytes packs (20_memory.md rules R50 to R52) and
what a decoder makes of a bit string (42_bit_stream_decoder.md rule R142), said by whole paths of the tree. -/

namespace Sys2Proof.Machine

/-- What holds after reset and after every step. -/
structure State.Inv (s : State) : Prop where
  /-- `ENC.acc[7:ENC.nbits] = 0` (10_state.md rule R22) -/
  group : s.enc.acc.toNat < 2 ^ s.enc.nbits.toNat
  /-- the codes 2 and 3 of ENC.fault are never produced (10_state.md rule R28) -/
  encFault : s.enc.fault = 0#2 ∨ s.enc.fault = encNoCode
  /-- `DEC.produced <= DEC.total` (10_state.md rule R24) -/
  count : s.dec.produced.toNat ≤ s.dec.total.toNat
  /-- a faulted decoder session still owes symbols (60_exceptions.md rule R191) -/
  owed : s.dec.fault ≠ 0#2 → s.dec.produced ≠ s.dec.total
  /-- with no tree the decoder reads no bit (42_bit_stream_decoder.md rule R141) -/
  noTree : s.img.hasTree = false → s.dec.stopped = true
  /-- the tables keep their canonical form -/
  tables : s.img.canonical = true

/-- In a session of an image whose root is internal, the walk stands on an internal node that the root reaches (10_state.md
rule R26). -/
def State.OnTree (s : State) : Prop :=
  s.img.hasTree = true → s.img.isLeaf s.img.rootIdx = false → s.dec.total ≠ 0#32 →
    s.img.isLeaf s.dec.cur = false ∧ ∃ p, s.img.Path s.img.rootIdx p s.dec.cur

/-- An encoder session has succeeded when ENC.fault is 0 at its end (70_reset_and_hazards.md rule R226). -/
def State.encSucceeded (s : State) : Bool := s.enc.fault == 0#2

/-- A decoder session's output is valid when DEC.fault is 0 and DEC_DONE is 1 at its end (42_bit_stream_decoder.md
rule R148). -/
def State.decSucceeded (s : State) : Bool := s.dec.fault == 0#2 && s.decDone

/-- The code of a symbol, as the encoder reads it. -/
def Image.codeOf (img : Image) (s : Byte) : List Bool := (img.codeLookup s).string

/-- The symbol has a code (LEN is not 0). -/
def Image.HasCode (img : Image) (s : Byte) : Prop := (img.codeLookup s).len ≠ 0#8

/-- W: the codes of the symbols one after another (41_bit_stream_encoder.md rule R124). -/
def Image.codesOf (img : Image) (ss : List Byte) : List Bool := ss.flatMap img.codeOf

/-- Byte `m` of the artifact of the bit string `w`: bits `w[8m]` to `w[8m + 7]` in its bits 7 down to 0, zero past the end of
`w` (41_bit_stream_encoder.md rule R124). -/
def artifactByte (w : List Bool) (m : Nat) : Byte :=
  BitVec.ofBoolListBE
    [w.getD (8 * m) false, w.getD (8 * m + 1) false, w.getD (8 * m + 2) false, w.getD (8 * m + 3) false,
     w.getD (8 * m + 4) false, w.getD (8 * m + 5) false, w.getD (8 * m + 6) false, w.getD (8 * m + 7) false]

/-- The artifact of the bit string `w`: `ceil(T / 8)` bytes (20_memory.md rule R52, 41_bit_stream_encoder.md rule R124). -/
def artifact (w : List Bool) : List Byte :=
  (List.range ((w.length + 7) / 8)).map (artifactByte w)

/-- `img.Decodes bits d out d'`: a decoder with registers `d` given the bits ends with `d'` and has emitted `out`
(42_bit_stream_decoder.md rules R142, R145 and R150), told by whole paths of the tree and not bit by bit. -/
inductive Image.Decodes (img : Image) : List Bool → Dec → List Byte → Dec → Prop where
  /-- a done or faulted decoder drops the bits unread -/
  | ignored {bits : List Bool} {d : Dec} (h : d.stopped = true) : Image.Decodes img bits d [] d
  /-- no bit is left -/
  | spent {d : Dec} : Image.Decodes img [] d [] d
  /-- the bits end on an internal node: the walk waits there -/
  | waits {p : List Bool} {d : Dec} {j : NodeIdx} (h : d.stopped = false)
      (path : img.Path d.cur p j) (internal : img.isLeaf j = false) :
      Image.Decodes img p d [] { d with cur := j }
  /-- the bits lead to a leaf: its symbol is emitted and the walk is back at the root -/
  | symbol {p rest : List Bool} {d d' : Dec} {j : NodeIdx} {out : List Byte} (h : d.stopped = false)
      (moved : p ≠ []) (path : img.Path d.cur p j) (leaf : img.isLeaf j = true)
      (more : Image.Decodes img rest { d with produced := d.produced + 1#32, cur := img.rootIdx } out d') :
      Image.Decodes img (p ++ rest) d ((img.nodeLookup j).sym :: out) d'
  /-- the node reached has no child for the next bit: DEC_NO_CHILD, the walk stays at that node -/
  | noChild {p rest : List Bool} {bit : Bool} {d : Dec} {j : NodeIdx} (h : d.stopped = false)
      (path : img.Path d.cur p j) (internal : img.isLeaf j = false)
      (missing : (img.nodeLookup j).child bit = none) :
      Image.Decodes img (p ++ bit :: rest) d [] { d with cur := j, fault := decNoChild }
  /-- the walk stands on a leaf (only a leaf root): DEC_NO_CHILD at the first bit -/
  | leafStart {bit : Bool} {rest : List Bool} {d : Dec} (h : d.stopped = false)
      (leaf : img.isLeaf d.cur = true) :
      Image.Decodes img (bit :: rest) d [] { d with fault := decNoChild }

end Sys2Proof.Machine
end

