-- ==== Sys2Proof/Certificates/Slice0/Obligations.lean ====
section
/-! DEFINITION. The statements for the provers, from the numbered rules of spec/. Each docstring names the rule. Statements are
about every state and every image; where a premise stands it is an invariant that is itself stated, or the rule's own
condition. -/

open Sys2Proof Sys2Proof.Machine

/-! ### Reset -/

/-- 10_state.md R39: at reset every element of S is zero and the histories are empty, whatever the image, which reset does not
change; the encoder is as after ENC_INIT, the decoder as after `DEC_INIT 0` on an image with no tree. In the clause on an
edge, that reset is sampled at the edge (log entry 8) and that the words accepted and not executed are lost (log entry 4)
are the model's choices. -/
def Obligations.ResetStateIsAllZero : Prop :=
  (∀ img : Image,
    (State.resetWith img).enc = { acc := 0#8, nbits := 0#3, fault := 0#2 } ∧
    (State.resetWith img).dec = { total := 0#32, produced := 0#32, cur := 0#9, fault := 0#2 } ∧
    (State.resetWith img).cmdErr = false ∧ (State.resetWith img).encOut = [] ∧
    (State.resetWith img).decOut = [] ∧ (State.resetWith img).rsp = [] ∧ (State.resetWith img).img = img) ∧
  (∀ (b : Bench) (i : PortsIn) (t : Timing), i.rstN = false → i.newImage = none →
    ∃ b', b.edge i t = .next b' ∧ b'.state = State.resetWith b.state.img) ∧
  (∀ s : State, ∃ t, exec .encInit s = .next t ∧ t.enc = (State.resetWith s.img).enc) ∧
  (∀ s : State, s.img.hasTree = false →
    ∃ t, exec (.decInit 0#32) s = .next t ∧ t.dec = (State.resetWith s.img).dec)

/-- 70_reset_and_hazards.md R220: while rst_n is 0 the block accepts nothing, offers nothing, drives fault_o = 0, has its reset
values, and starts from exactly that state with empty histories, so that nothing is left to take. That reset and the
installing of an image (20_memory.md R63) happen at the edge, and that no channel and no offered word is held through reset
(log entry 8), and that the words accepted and not executed are lost (log entry 4), are the model's choices. -/
def Obligations.ResetLevelSilencesThePorts : Prop :=
  ∀ (b : Bench) (i : PortsIn) (t : Timing), i.rstN = false →
    b.outputs i t = { cmdReady := false, encOut := none, decOut := none, rsp := none, faultO := false } ∧
    b.edge i t = .next
      { state := State.resetWith (i.newImage.getD b.state.img)
        enc := { taken := 0, held := false }
        dec := { taken := 0, held := false }
        rsp := { taken := 0, held := false }
        cmdHeld := none }

/-! ### Encoding -/

/-- A few words written out from the encoding strings of 30_encoding.md R75, one of each format and family. -/
def Obligations.WrittenWordsDecode : Prop :=
  decode 0b000100000000000000000000000000000000#36 = .ok .encInit ∧
  decode 0b001000000000000000000000000001000010#36 = .ok (.encPut 0x42#8) ∧
  decode 0b010000000000000000000000000000001011#36 = .ok (.decInit 11#32) ∧
  decode 0b010111111111111111111111111111111111#36 =
    .error (.mustBeZeroBitSet 0x5#4 0xFFFFFFFF#32) ∧
  decode 0b100100000000000000000000000111111111#36 = .ok (.romNode 511#9) ∧
  decode 0b110000000000000000000000000000000000#36 = .ok .stat ∧
  decode 0b011100000000000000000000000000000000#36 = .error (.reservedOpcode 0x7#4)

/-- 30_encoding.md R75: a word is a command exactly when a row of the table covers it, no word is covered by two rows, and the
command decoded is the row's. -/
def Obligations.DecodeAcceptsExactlyTheTable : Prop :=
  (∀ w : CmdWord, (∃ i, decode w = .ok i) ↔ ∃ r ∈ opTable, w &&& r.maskBits = r.matchBits) ∧
  (∀ (w : CmdWord) (r r' : OpRow), r ∈ opTable → r' ∈ opTable → r.covers w = true → r'.covers w = true → r = r') ∧
  (∀ (w : CmdWord) (i : Instr), decode w = .ok i →
    ∃ r ∈ opTable, r.covers w = true ∧ r.mnemonic = i.mnemonic)

/-- 30_encoding.md R72 to R75: decoding the encoded command gives it back, every operand at every value. -/
def Obligations.EncodedCommandDecodesToItself : Prop :=
  ∀ i : Instr, decode (encode i) = .ok i

/-- 30_encoding.md R72 to R75: each command has one word; no bit of a legal word is dropped. -/
def Obligations.DecodedCommandEncodesToItsWord : Prop :=
  ∀ (w : CmdWord) (i : Instr), decode w = .ok i → encode i = w

/-! ### Steps -/

/-- 00_scope.md R9: a step executes the oldest accepted word. The waiting words and the idle step are the model's
(log entry 4). -/
def Obligations.StepRunsTheDecodedCommand : Prop :=
  (∀ (s : State) (w : CmdWord) (ws : List CmdWord) (i : Instr),
    s.cmdQueue = w :: ws → decode w = .ok i → step s = exec i { s with cmdQueue := ws }) ∧
  (∀ s : State, s.cmdQueue = [] → step s = .next s)

/-- 30_encoding.md R82: which words are illegal, and that executing one sets CMD_ERR, does nothing else and does not stop the
block. -/
def Obligations.IllegalWordOnlySetsCmdErr : Prop :=
  (∀ w : CmdWord, legal w = false ↔
    CmdWord.op w ∈ [0x0#4, 0x7#4, 0xB#4, 0xD#4, 0xE#4, 0xF#4] ∨
    ∃ f, formatOf (CmdWord.op w) = some f ∧
      ∃ k, f.operandBits ≤ k ∧ k < 32 ∧ (CmdWord.arg w).getLsbD k = true) ∧
  (∀ (s : State) (w : CmdWord) (ws : List CmdWord), s.cmdQueue = w :: ws → legal w = false →
    step s = .next { s with cmdQueue := ws, cmdErr := true })

/-- 10_state.md R30: CMD_ERR is set exactly by an illegal word and no step clears it; no command but STAT depends on it. -/
def Obligations.CmdErrIsStickyAndHarmless : Prop :=
  (∀ s t : State, step s = .next t →
    (t.cmdErr = true ↔ s.cmdErr = true ∨ ∃ w ws, s.cmdQueue = w :: ws ∧ legal w = false)) ∧
  (∀ (i : Instr) (s t : State) (c : Bool), i ≠ .stat → exec i s = .next t →
    exec i { s with cmdErr := c } = .next { t with cmdErr := c }) ∧
  (∀ img : Image, (State.resetWith img).cmdErr = false)

/-- 20_memory.md R60: the host's words take effect in the order of their acceptance, each command on the state the one before
left. -/
def Obligations.WordsTakeEffectInOrder : Prop :=
  ∀ (is : List Instr) (s : State), s.cmdQueue = [] →
    runWords (is.map encode) s = execAll is s

/-! ### Invariants -/

/-- What holds at the release of reset, whatever canonical image is installed. -/
def Obligations.ResetMeetsTheInvariants : Prop :=
  ∀ img : Image, img.canonical = true → (State.resetWith img).Inv ∧ (State.resetWith img).OnTree

/-- 10_state.md R28 with 60_exceptions.md R191, and the invariants that 10_state.md R22 and R24 mark [derived]: every step
keeps the group's form, the fault codes the hardware produces, the count within the total, and the tables' canonical form.
-/
def Obligations.StepKeepsTheInvariant : Prop :=
  ∀ s t : State, s.Inv → step s = .next t → t.Inv

/-- 10_state.md R26 (the sentence marked [derived]): in a session of an image whose root is internal, every step leaves the
walk on an internal node that the root reaches. -/
def Obligations.StepKeepsTheWalkOnTheTree : Prop :=
  ∀ s t : State, s.OnTree → step s = .next t → t.OnTree

/-- 00_scope.md R8, 20_memory.md R63: no step changes the image; every entry reads as before. -/
def Obligations.NoStepChangesTheImage : Prop :=
  ∀ s t : State, step s = .next t →
    t.img = s.img ∧ (∀ b, t.img.codeEntry b = s.img.codeEntry b) ∧
    (∀ i, t.img.nodeEntry i = s.img.nodeEntry i) ∧ t.img.rootLookup = s.img.rootLookup

/-- 60_exceptions.md R194: every command completes, on every state and every image. -/
def Obligations.EveryCommandCompletes : Prop :=
  ∀ (i : Instr) (s : State), ∃ t, exec i s = .next t

/-! ### Encoder -/

/-- 41_bit_stream_encoder.md R121: ENC_INIT gives the encoder's initial state and changes nothing else; it is the only command
that clears ENC.fault. -/
def Obligations.EncInitGivesTheInitialState : Prop :=
  (∀ s : State, exec .encInit s =
    .next { s with enc := { acc := 0#8, nbits := 0#3, fault := 0#2 } }) ∧
  (∀ (i : Instr) (s t : State), exec i s = .next t → s.enc.fault ≠ 0#2 → t.enc.fault = 0#2 → i = .encInit) ∧
  (∀ s : State, s.enc.fault = 0#2 → ∃ t, exec .encFlush s = .next t ∧
    t.enc = { acc := 0#8, nbits := 0#3, fault := 0#2 })

/-- 41_bit_stream_encoder.md R128 (marked [derived] there: it rests on R122): with `p` pending bits and a code of `L` bits
read as the number `V`, ENC_PUT emits the `(p + L) div 8` whole bytes of `Z = ENC.acc * 2^L + V` from the top and keeps the
rest; nothing else changes. -/
def Obligations.EncPutEmitsTheWholeBytes : Prop :=
  ∀ (s : State) (b : Byte) (p L V Z r : Nat),
    s.enc.fault = 0#2 → s.enc.acc.toNat < 2 ^ s.enc.nbits.toNat →
    p = s.enc.nbits.toNat → L = (s.img.codeLookup b).len.toNat → 1 ≤ L →
    V = (s.img.codeLookup b).bits.toNat / 2 ^ (255 - L) →
    Z = s.enc.acc.toNat * 2 ^ L + V → r = (p + L) % 8 →
    exec (.encPut b) s = .next
      { s with
        enc := { acc := BitVec.ofNat 8 (Z % 2 ^ r), nbits := BitVec.ofNat 3 r, fault := 0#2 }
        encOut := s.encOut ++
          (List.range ((p + L) / 8)).map fun m => BitVec.ofNat 8 (Z / 2 ^ (p + L - 8 - 8 * m)) }

/-- 41_bit_stream_encoder.md R122, 60_exceptions.md R198: a symbol with no code records ENC_NO_CODE and changes nothing else;
while ENC.fault is not zero ENC_PUT does nothing. -/
def Obligations.EncPutOfNoCodeOnlyFaults : Prop :=
  (∀ (s : State) (b : Byte), s.enc.fault = 0#2 → (s.img.codeLookup b).len = 0#8 →
    exec (.encPut b) s = .next { s with enc := { s.enc with fault := 1#2 } }) ∧
  (∀ (s : State) (b : Byte), s.enc.fault ≠ 0#2 → exec (.encPut b) s = .next s)

/-- 41_bit_stream_encoder.md R123: ENC_FLUSH emits the partial group, shifted to the byte's high side, if there is one, and
leaves the initial state, so that a second ENC_FLUSH emits nothing; while ENC.fault is not zero it does nothing. -/
def Obligations.EncFlushPadsThePartialGroup : Prop :=
  (∀ s : State, s.enc.fault ≠ 0#2 → exec .encFlush s = .next s) ∧
  (∀ s : State, s.enc.fault = 0#2 → s.enc.nbits = 0#3 →
    exec .encFlush s = .next { s with enc := { acc := 0#8, nbits := 0#3, fault := 0#2 } }) ∧
  (∀ s : State, s.enc.fault = 0#2 → s.enc.nbits ≠ 0#3 →
    exec .encFlush s = .next
      { s with
        enc := { acc := 0#8, nbits := 0#3, fault := 0#2 }
        encOut := s.encOut ++ [BitVec.ofNat 8 (s.enc.acc.toNat * 2 ^ (8 - s.enc.nbits.toNat))] }) ∧
  (∀ s t : State, s.enc.fault = 0#2 → exec .encFlush s = .next t → exec .encFlush t = .next t)

/-- 41_bit_stream_encoder.md R127 (marked [derived] there: it rests on R122 and R123): neither shift of the encoder discards
a 1 bit. -/
def Obligations.EncoderShiftsAreExact : Prop :=
  ∀ s : State, s.enc.acc.toNat < 2 ^ s.enc.nbits.toNat →
    (s.enc.flushByte).toNat = s.enc.acc.toNat * 2 ^ (8 - s.enc.nbits.toNat) ∧
    s.enc.acc.toNat * 2 ^ (8 - s.enc.nbits.toNat) < 256 ∧
    (∀ (c : Bool) (e : Enc) (out : List Byte), s.enc.pushBit c = (e, out) →
      (s.enc.nbits ≠ 7#3 → out = [] ∧ e.acc.toNat = 2 * s.enc.acc.toNat + c.toNat ∧
        e.nbits.toNat = s.enc.nbits.toNat + 1) ∧
      (s.enc.nbits = 7#3 → ∃ byte, out = [byte] ∧ byte.toNat = 2 * s.enc.acc.toNat + c.toNat ∧
        e.nbits = 0#3))

/-- 41_bit_stream_encoder.md R124 (marked [derived] there: it rests on R121 to R123): a session of symbols that all have
codes appends exactly the `ceil(T / 8)` bytes of the concatenated codes, the whole ones by the ENC_PUT commands; no fault;
the encoder ends in its initial state. -/
def Obligations.EncoderSessionPacksTheCodes : Prop :=
  (∀ (s : State) (ss : List Byte), s.enc = { acc := 0#8, nbits := 0#3, fault := 0#2 } →
    (∀ x ∈ ss, s.img.HasCode x) →
    execAll (ss.map .encPut ++ [.encFlush]) s =
      .next { s with encOut := s.encOut ++ artifact (s.img.codesOf ss) } ∧
    ∃ t, execAll (ss.map .encPut) s = .next t ∧
      t.encOut = s.encOut ++ (artifact (s.img.codesOf ss)).take ((s.img.codesOf ss).length / 8)) ∧
  (∀ (s : State) (ss : List Byte), (∀ x ∈ ss, s.img.HasCode x) →
    execAll (compressCommands ss) s =
      .next { s with
        enc := { acc := 0#8, nbits := 0#3, fault := 0#2 }
        encOut := s.encOut ++ artifact (s.img.codesOf ss) })

/-- 41_bit_stream_encoder.md R125: the first symbol with no code records ENC_NO_CODE and emits nothing; every later ENC_PUT and
ENC_FLUSH of the session does nothing: the session ends in the state `u` that the symbols before it left, with the fault
recorded. The whole bytes of the codes before it stay in enc_out and the pending bits in the group. -/
def Obligations.MissedCodeEndsTheSession : Prop :=
  ∀ (s : State) (pre post : List Byte) (x : Byte), s.enc = { acc := 0#8, nbits := 0#3, fault := 0#2 } →
    (∀ y ∈ pre, s.img.HasCode y) → (s.img.codeLookup x).len = 0#8 →
    ∃ u, execAll (pre.map .encPut) s = .next u ∧
      execAll ((pre ++ x :: post).map .encPut ++ [.encFlush]) s =
        .next { u with enc := { u.enc with fault := 1#2 } } ∧
      u = { s with
        enc := u.enc
        encOut := s.encOut ++ (artifact (s.img.codesOf pre)).take ((s.img.codesOf pre).length / 8) } ∧
      u.enc.fault = 0#2 ∧ u.enc.nbits.toNat = (s.img.codesOf pre).length % 8

/-- 41_bit_stream_encoder.md R120: an encoder command writes only ENC's registers, appends only to enc_out, and reads of the
image only CODE. -/
def Obligations.EncoderCommandFrame : Prop :=
  ∀ (i : Instr) (s t : State), (i = .encInit ∨ (∃ b, i = .encPut b) ∨ i = .encFlush) → exec i s = .next t →
    (∃ bs, t = { s with enc := t.enc, encOut := s.encOut ++ bs }) ∧
    (∀ (node : Memory 21) (root : RootEntry),
      exec i { s with img := { s.img with node := node, root := root } } =
        .next { t with img := { s.img with node := node, root := root } })

/-! ### Decoder -/

/-- 42_bit_stream_decoder.md R141: DEC_INIT loads the total, clears the count and the fault, places the walk at the root (at 0
with no tree), and records DEC_NO_TREE when there is no tree and `n` is not 0; it reads no NODE entry; with `n = 0` the
session is done at once, and with no tree every later bit is ignored. -/
def Obligations.DecInitStartsASession : Prop :=
  ∀ (n : Count) (s : State),
    exec (.decInit n) s = .next
      { s with dec :=
          { total := n
            produced := 0#32
            cur := if s.img.hasTree then s.img.rootIdx else 0#9
            fault := if s.img.hasTree = false ∧ n ≠ 0#32 then 3#2 else 0#2 } } ∧
    (∀ t, exec (.decInit n) s = .next t →
      (n = 0#32 → t.decDone = true ∧ t.dec.fault = 0#2) ∧
      (s.img.hasTree = false → ∀ b, exec (.decPut b) t = .next t))

/-- 42_bit_stream_decoder.md R142: DEC_PUT consumes the bits of its byte, bit 7 first, as `Image.Decodes` tells by whole
paths of the tree; it changes only DEC's registers and dec_out, and emits at most 8 symbols; while a fault is recorded or the
session is done it does nothing. -/
def Obligations.DecPutWalksTheTree : Prop :=
  (∀ (s : State) (b : Byte), ∃ d out,
    exec (.decPut b) s = .next { s with dec := d, decOut := s.decOut ++ out } ∧ out.length ≤ 8) ∧
  (∀ (s : State) (b : Byte) (d : Dec) (out : List Byte),
    exec (.decPut b) s = .next { s with dec := d, decOut := s.decOut ++ out } ↔
      s.img.Decodes [b.getLsbD 7, b.getLsbD 6, b.getLsbD 5, b.getLsbD 4, b.getLsbD 3, b.getLsbD 2, b.getLsbD 1,
        b.getLsbD 0] s.dec out d) ∧
  (∀ (s : State) (b : Byte), s.dec.fault ≠ 0#2 ∨ s.dec.produced = s.dec.total →
    exec (.decPut b) s = .next s)

/-- 42_bit_stream_decoder.md R142, on the raw bits of the NODE entries (30_encoding.md R77): with one symbol owed, the current
node internal and the child that bit 7 selects a leaf (LEFT, valid if LV, on a 0; RIGHT, valid if RV, on a 1), DEC_PUT emits
that leaf's symbol, returns to the root and drops the other bits; with that child not valid it records DEC_NO_CHILD and
changes nothing else. -/
def Obligations.ABitTakesTheLeftOrTheRightChild : Prop :=
  ∀ (s : State) (b : Byte) (e : NodeEntry) (valid : Bool) (c : NodeIdx), s.dec.fault = 0#2 →
    e = s.img.nodeEntry s.dec.cur → e.getLsbD 20 = false →
    valid = (if b.getLsbD 7 = false then e.getLsbD 19 else e.getLsbD 9) →
    c = (if b.getLsbD 7 = false then e.extractLsb' 10 9 else e.extractLsb' 0 9) →
    (s.dec.total = s.dec.produced + 1#32 → valid = true → (s.img.nodeEntry c).getLsbD 20 = true →
      exec (.decPut b) s = .next
        { s with
          dec := { s.dec with produced := s.dec.total, cur := s.img.root.extractLsb' 0 9 }
          decOut := s.decOut ++ [(s.img.nodeEntry c).extractLsb' 0 8] }) ∧
    (s.dec.produced ≠ s.dec.total → valid = false →
      exec (.decPut b) s = .next { s with dec := { s.dec with fault := 1#2 } })

/-- 42_bit_stream_decoder.md R143: DEC_END records DEC_TRUNCATED exactly when no fault is recorded and symbols are owed, and
does nothing otherwise; so no fault after it means that the session is done (70_reset_and_hazards.md R226). -/
def Obligations.DecEndChecksTheCount : Prop :=
  (∀ s : State, s.dec.fault = 0#2 → s.dec.produced ≠ s.dec.total →
    exec .decEnd s = .next { s with dec := { s.dec with fault := 2#2 } }) ∧
  (∀ s : State, s.dec.fault ≠ 0#2 ∨ s.dec.produced = s.dec.total → exec .decEnd s = .next s) ∧
  (∀ s t : State, exec .decEnd s = .next t → t.dec.fault = 0#2 → t.dec.produced = t.dec.total)

/-- 10_state.md R24, 42_bit_stream_decoder.md R151 (both mark it [derived]: it rests on R142): DEC_PUT counts every symbol
it emits, and the count does not wrap. -/
def Obligations.DecPutCountsItsSymbols : Prop :=
  ∀ (s t : State) (b : Byte), s.dec.produced.toNat ≤ s.dec.total.toNat → exec (.decPut b) s = .next t →
    ∃ out, t.decOut = s.decOut ++ out ∧
      t.dec.produced.toNat = s.dec.produced.toNat + out.length ∧
      t.dec.produced.toNat ≤ t.dec.total.toNat

/-- 42_bit_stream_decoder.md R145: with a leaf root the first bit of a session, whatever it is, records DEC_NO_CHILD and nothing
is ever emitted, however many bytes follow. -/
def Obligations.LeafRootFaultsAtTheFirstBit : Prop :=
  ∀ (s : State) (n : Count) (bs : List Byte), s.img.hasTree = true → s.img.isLeaf s.img.rootIdx = true → n ≠ 0#32 →
    bs ≠ [] →
    execAll (.decInit n :: bs.map .decPut) s = .next
      { s with dec := { total := n, produced := 0#32, cur := s.img.rootIdx, fault := 1#2 } }

/-- 42_bit_stream_decoder.md R140: a decoder command writes only DEC's registers, appends only to dec_out, and reads of the
image only NODE and ROOT. -/
def Obligations.DecoderCommandFrame : Prop :=
  ∀ (i : Instr) (s t : State), ((∃ n, i = .decInit n) ∨ (∃ b, i = .decPut b) ∨ i = .decEnd) → exec i s = .next t →
    (∃ bs, t = { s with dec := t.dec, decOut := s.decOut ++ bs }) ∧
    (∀ code : Memory 263,
      exec i { s with img := { s.img with code := code } } =
        .next { t with img := { s.img with code := code } })

/-! ### Lookups and status -/

/-- 30_encoding.md R79 with 40_tree_rom_lookup.md R103 to R105: each lookup command appends one response, its tag the opcode,
its data the entry zero-extended, and changes nothing else. -/
def Obligations.LookupsAnswerWithTheEntry : Prop :=
  (∀ (s : State) (b : Byte), ∃ d : RspData,
    exec (.romCode b) s = .next { s with rsp := s.rsp ++ [{ tag := 0x8#4, data := d }] } ∧
    d.extractLsb' 255 8 = (s.img.codeLookup b).len ∧ d.extractLsb' 0 255 = (s.img.codeLookup b).bits ∧
    d.getLsbD 263 = false) ∧
  (∀ (s : State) (i : NodeIdx),
    exec (.romNode i) s =
      .next { s with rsp := s.rsp ++ [{ tag := 0x9#4, data := 0#243 ++ s.img.nodeEntry i }] }) ∧
  (∀ s : State,
    exec .romRoot s = .next { s with rsp := s.rsp ++ [{ tag := 0xA#4, data := 0#254 ++ s.img.root }] })

/-- 40_tree_rom_lookup.md R100 to R102, with the codes of 30_encoding.md R76 and the children of 42_bit_stream_decoder.md R150:
the fields that the units read, at their bits of the entry. Code bit k is bit 254 - k; a 0 bit selects LEFT where LV is 1,
a 1 bit RIGHT where RV is 1. -/
def Obligations.LookupsReadTheFieldsOfAnEntry : Prop :=
  (∀ (img : Image) (x : Byte),
    (img.codeLookup x).len = (img.codeEntry x).extractLsb' 255 8 ∧
    (img.codeLookup x).bits = (img.codeEntry x).extractLsb' 0 255 ∧
    (img.codeOf x).length = (img.codeLookup x).len.toNat ∧
    ∀ k, k < (img.codeLookup x).len.toNat → (img.codeOf x)[k]? = some ((img.codeEntry x).getLsbD (254 - k))) ∧
  (∀ (img : Image) (i : NodeIdx),
    (img.nodeLookup i).leaf = (img.nodeEntry i).getLsbD 20 ∧ img.isLeaf i = (img.nodeEntry i).getLsbD 20 ∧
    (img.nodeLookup i).sym = (img.nodeEntry i).extractLsb' 0 8 ∧
    (img.nodeLookup i).lv = (img.nodeEntry i).getLsbD 19 ∧
    (img.nodeLookup i).left = (img.nodeEntry i).extractLsb' 10 9 ∧
    (img.nodeLookup i).rv = (img.nodeEntry i).getLsbD 9 ∧
    (img.nodeLookup i).right = (img.nodeEntry i).extractLsb' 0 9 ∧
    (∀ j, (img.nodeLookup i).child false = some j ↔
      (img.nodeEntry i).getLsbD 19 = true ∧ j = (img.nodeEntry i).extractLsb' 10 9) ∧
    (∀ j, (img.nodeLookup i).child true = some j ↔
      (img.nodeEntry i).getLsbD 9 = true ∧ j = (img.nodeEntry i).extractLsb' 0 9)) ∧
  (∀ img : Image,
    img.rootLookup.valid = img.root.getLsbD 9 ∧ img.rootLookup.idx = img.root.extractLsb' 0 9 ∧
    img.hasTree = img.root.getLsbD 9 ∧ img.rootIdx = img.root.extractLsb' 0 9)

/-- 43_status_and_control.md R160, 10_state.md R32: STAT appends one response that holds every state bit at its place, zero in
the reserved places, and changes nothing. -/
def Obligations.StatReportsTheState : Prop :=
  ∀ s : State, ∃ d : RspData,
    exec .stat s = .next { s with rsp := s.rsp ++ [{ tag := 0xC#4, data := d }] } ∧
    d.extractLsb' 0 2 = s.enc.fault ∧ d.extractLsb' 2 2 = s.dec.fault ∧ d.getLsbD 4 = s.cmdErr ∧
    d.getLsbD 5 = decide (s.dec.produced = s.dec.total) ∧ d.getLsbD 6 = s.img.root.getLsbD 9 ∧
    d.getLsbD 7 = false ∧ d.extractLsb' 8 3 = s.enc.nbits ∧ d.extractLsb' 11 5 = 0#5 ∧
    d.extractLsb' 16 9 = s.dec.cur ∧ d.extractLsb' 25 7 = 0#7 ∧ d.extractLsb' 32 32 = s.dec.produced ∧
    d.extractLsb' 64 32 = s.dec.total ∧ d.extractLsb' 96 8 = s.enc.acc ∧ d.extractLsb' 104 160 = 0#160

/-- 43_status_and_control.md R164: STAT exposes every state bit, and the lookup commands every bit of the image. -/
def Obligations.StatAndLookupsHideNothing : Prop :=
  (∀ s t : State, s.statusWord = t.statusWord → s.enc = t.enc ∧ s.dec = t.dec ∧ s.cmdErr = t.cmdErr) ∧
  (∀ a b : Image, a.canonical = true → b.canonical = true →
    (∀ (s : State) (i : Instr), (∃ x, i = .romCode x) ∨ (∃ k, i = .romNode k) ∨ i = .romRoot →
      ∀ ta tb, exec i { s with img := a } = .next ta → exec i { s with img := b } = .next tb →
        ta.rsp = tb.rsp) → a = b)

/-- 30_encoding.md R79: only ROM_CODE, ROM_NODE, ROM_ROOT and STAT produce a response, one each, tagged with their opcode, and
they change nothing else. -/
def Obligations.OnlyLookupsAndStatRespond : Prop :=
  ∀ (i : Instr) (s t : State), exec i s = .next t →
    if (∃ b, i = .romCode b) ∨ (∃ k, i = .romNode k) ∨ i = .romRoot ∨ i = .stat then
      ∃ d, t = { s with rsp := s.rsp ++ [{ tag := i.op, data := d }] }
    else t.rsp = s.rsp

/-- 60_exceptions.md R196: the level of fault_o out of reset. -/
def Obligations.FaultOutputIsTheOrOfTheFlags : Prop :=
  ∀ (b : Bench) (i : PortsIn) (t : Timing), i.rstN = true →
    ((b.outputs i t).faultO = true ↔
      b.state.enc.fault ≠ 0#2 ∨ b.state.dec.fault ≠ 0#2 ∨ b.state.cmdErr = true)

/-! ### Faults -/

/-- 60_exceptions.md R190: the first fault of a session stays; only the unit's own INIT changes a recorded code. -/
def Obligations.FirstFaultStays : Prop :=
  ∀ s t : State, step s = .next t →
    (s.enc.fault ≠ 0#2 → t.enc.fault ≠ s.enc.fault → t.enc.fault = 0#2 ∧
      ∃ w ws, s.cmdQueue = w :: ws ∧ decode w = .ok .encInit) ∧
    (s.dec.fault ≠ 0#2 → t.dec.fault ≠ s.dec.fault →
      ∃ w ws n, s.cmdQueue = w :: ws ∧ decode w = .ok (.decInit n))

/-- 60_exceptions.md R191, and R197 (marked [derived] there): which command records which code, from which cause, and what
the state preserves. -/
def Obligations.EachFaultHasItsCause : Prop :=
  ∀ (i : Instr) (s t : State), exec i s = .next t →
    (t.enc.fault ≠ s.enc.fault → t.enc.fault ≠ 0#2 →
      ∃ b, i = .encPut b ∧ (s.img.codeLookup b).len = 0#8 ∧ t = { s with enc := { s.enc with fault := 1#2 } }) ∧
    (t.dec.fault ≠ s.dec.fault → t.dec.fault ≠ 0#2 →
      (t.dec.fault = 1#2 ∧ (∃ b, i = .decPut b) ∧ t.dec.total = s.dec.total ∧
        (s.img.isLeaf t.dec.cur = true ∨ ∃ bit, (s.img.nodeLookup t.dec.cur).child bit = none)) ∨
      (t.dec.fault = 2#2 ∧ i = .decEnd ∧ s.dec.produced ≠ s.dec.total ∧
        t = { s with dec := { s.dec with fault := 2#2 } }) ∨
      (t.dec.fault = 3#2 ∧ ∃ n, i = .decInit n ∧ n ≠ 0#32 ∧ s.img.hasTree = false ∧
        t = { s with dec := { total := n, produced := 0#32, cur := 0#9, fault := 3#2 } }))

/-- 60_exceptions.md R193: while a unit's fault is recorded its data commands do nothing; the other unit and the lookups do
what they do without it. -/
def Obligations.FaultedUnitIsSilent : Prop :=
  (∀ (s : State) (i : Instr), s.enc.fault ≠ 0#2 → (∃ b, i = .encPut b) ∨ i = .encFlush → exec i s = .next s) ∧
  (∀ (s : State) (i : Instr), s.dec.fault ≠ 0#2 → (∃ b, i = .decPut b) ∨ i = .decEnd → exec i s = .next s) ∧
  (∀ (s t : State) (i : Instr) (f : FaultCode), exec i s = .next t →
    (i ≠ .stat → i ≠ .encInit → (∀ b, i ≠ .encPut b) → i ≠ .encFlush →
      exec i { s with enc := { s.enc with fault := f } } = .next { t with enc := { t.enc with fault := f } }) ∧
    (i ≠ .stat → (∀ n, i ≠ .decInit n) → (∀ b, i ≠ .decPut b) → i ≠ .decEnd →
      exec i { s with dec := { s.dec with fault := f } } = .next { t with dec := { t.dec with fault := f } }))

/-! ### Whole machine -/

/-- 10_state.md R20, 70_reset_and_hazards.md R237 (both mark it [derived]: it rests on R120 and R140): an encoder command
and a decoder command may be exchanged. -/
def Obligations.EncoderAndDecoderCommandsCommute : Prop :=
  ∀ (e d : Instr) (s : State), (e = .encInit ∨ (∃ b, e = .encPut b) ∨ e = .encFlush) →
    ((∃ n, d = .decInit n) ∨ (∃ b, d = .decPut b) ∨ d = .decEnd) →
    ∃ t, execAll [e, d] s = .next t ∧ execAll [d, e] s = .next t

/-- 10_state.md R36, 20_memory.md R60, and the widths that 20_memory.md R56 marks [derived]: a step only appends to the
histories, and no more than the command may. -/
def Obligations.StreamsOnlyGrowWithinBounds : Prop :=
  ∀ s t : State, step s = .next t →
    ∃ e d r, t.encOut = s.encOut ++ e ∧ t.decOut = s.decOut ++ d ∧ t.rsp = s.rsp ++ r ∧
      e.length ≤ 32 ∧ d.length ≤ 8 ∧ r.length ≤ 1 ∧ e.length + d.length + r.length ≤ 32 ∧
      (∀ w ws, s.cmdQueue = w :: ws → decode w = .ok .encFlush → e.length ≤ 1) ∧
      (∀ w ws b, s.cmdQueue = w :: ws → decode w = .ok (.encPut b) → s.enc.fault = 0#2 →
        e.length = if (s.img.codeLookup b).len = 0#8 then 0
          else (s.enc.nbits.toNat + (s.img.codeLookup b).len.toNat) / 8)

/-- 30_encoding.md R83: two images that agree on every field the units read give the same behaviour, whatever their reserved
bits; the lookup commands return those bits as stored. -/
def Obligations.ReservedBitsChangeNothing : Prop :=
  (∀ (a b : Image) (s t : State) (i : Instr),
    (∀ x, (a.codeLookup x).len = (b.codeLookup x).len ∧ a.codeOf x = b.codeOf x) →
    (∀ k, a.isLeaf k = b.isLeaf k ∧
      (a.isLeaf k = true → (a.nodeLookup k).sym = (b.nodeLookup k).sym) ∧
      (a.isLeaf k = false → ∀ bit, (a.nodeLookup k).child bit = (b.nodeLookup k).child bit)) →
    a.hasTree = b.hasTree → (a.hasTree = true → a.rootIdx = b.rootIdx) →
    (a.hasTree = false → s.dec.stopped = true) →
    (∃ x, i = .encPut x) ∨ (∃ n, i = .decInit n) ∨ (∃ x, i = .decPut x) ∨ i = .decEnd →
    exec i { s with img := a } = .next { t with img := a } →
    exec i { s with img := b } = .next { t with img := b })

/-- 30_encoding.md R71, 70_reset_and_hazards.md R233: at an edge out of reset a command word is accepted, last in line, exactly
where valid and ready are both 1, and the words that leave the line at its front are executed, in order, and nothing else
changes the state; no element of a history is lost
or reordered; at most one is taken, the oldest one not yet taken, and only where valid and ready are both 1; one that is
offered and not taken is offered again with the same data, whatever the timing; a host that withdraws or changes a word
not yet accepted is refused. That all this happens at one edge is the model's choice (log entries 7 and 8), and so is the waiting line (log entry 4). -/
def Obligations.PortsLoseNothing : Prop :=
  ∀ (b b' : Bench) (i i' : PortsIn) (t t' : Timing), i.rstN = true → i'.rstN = true →
    b.enc.taken ≤ b.state.encOut.length → b.dec.taken ≤ b.state.decOut.length → b.rsp.taken ≤ b.state.rsp.length →
    b.edge i t = .next b' →
    b'.state.cmdQueue =
      (if i.cmdValid = true ∧ t.cmdReady = true then b.state.cmdQueue ++ [i.cmd] else b.state.cmdQueue).drop t.work ∧
    Sys2Proof.core.run t.work
      { b.state with cmdQueue :=
          if i.cmdValid = true ∧ t.cmdReady = true then b.state.cmdQueue ++ [i.cmd] else b.state.cmdQueue } =
      .next b'.state ∧
    (∃ e d r, b'.state.encOut = b.state.encOut ++ e ∧ b'.state.decOut = b.state.decOut ++ d ∧
      b'.state.rsp = b.state.rsp ++ r) ∧
    (b'.enc.taken ≤ b'.state.encOut.length ∧ b'.dec.taken ≤ b'.state.decOut.length ∧
      b'.rsp.taken ≤ b'.state.rsp.length) ∧
    (∀ x, (b.outputs i t).encOut = some x → b.state.encOut[b.enc.taken]? = some x) ∧
    (∀ x, (b.outputs i t).decOut = some x → b.state.decOut[b.dec.taken]? = some x) ∧
    (∀ x, (b.outputs i t).rsp = some x → b.state.rsp[b.rsp.taken]? = some x) ∧
    (b'.enc.taken = if (b.outputs i t).encOut.isSome ∧ i.encReady = true then b.enc.taken + 1 else b.enc.taken) ∧
    (b'.dec.taken = if (b.outputs i t).decOut.isSome ∧ i.decReady = true then b.dec.taken + 1 else b.dec.taken) ∧
    (b'.rsp.taken = if (b.outputs i t).rsp.isSome ∧ i.rspReady = true then b.rsp.taken + 1 else b.rsp.taken) ∧
    keepsOffer (b.outputs i t).encOut (b'.outputs i' t').encOut i.encReady ∧
    keepsOffer (b.outputs i t).decOut (b'.outputs i' t').decOut i.decReady ∧
    keepsOffer (b.outputs i t).rsp (b'.outputs i' t').rsp i.rspReady ∧
    (i.cmdValid = true → t.cmdReady = false → i'.newImage = none → (i'.cmdValid = false ∨ i'.cmd ≠ i.cmd) →
      b'.edge i' t' = .refused .commandWithdrawn)

/-- 30_encoding.md R71, 20_memory.md R63: an edge answers a next bench exactly where the platform and the host keep to what they
may do, whatever the timing: the image changes only in reset, and a word offered and not accepted is offered again. That
the other edges are refused is the model's choice (log entry 8). -/
def Obligations.EdgeAnswersWhereTheHostKeepsToTheRules : Prop :=
  ∀ (b : Bench) (i : PortsIn) (t : Timing),
    (∃ b', b.edge i t = .next b') ↔
      (i.rstN = false ∨
        (i.newImage = none ∧ ∀ w, b.cmdHeld = some w → i.cmdValid = true ∧ i.cmd = w))

/-! ### Well-formed images -/

/-- 40_tree_rom_lookup.md R108 (3) (marked [derived] there: it rests on R106): under WF no code is a prefix of another
symbol's code. -/
def Obligations.CodesArePrefixFree : Prop :=
  ∀ (img : Image) (x y : Byte), img.WF → img.HasCode x → img.HasCode y →
    img.codeOf x <+: img.codeOf y → x = y

/-- 42_bit_stream_decoder.md R144 (marked [derived] there: it rests on R106, R122, R123 and R141 to R143): under WF a
decoder session given the artifact of an encoder session and its count recovers the symbols, with no fault. -/
def Obligations.RoundTripUnderWellFormedImage : Prop :=
  ∀ (s : State) (ss : List Byte), s.img.WF → (∀ x ∈ ss, s.img.HasCode x) → ss.length < 2 ^ 32 →
    ∃ bytes, execAll (compressCommands ss) s =
        .next { s with
          enc := { acc := 0#8, nbits := 0#3, fault := 0#2 }
          encOut := s.encOut ++ bytes } ∧
      ∃ t, execAll (decompressCommands (BitVec.ofNat 32 ss.length) bytes) s = .next t ∧
        t.decOut = s.decOut ++ ss ∧ t.dec.fault = 0#2 ∧ t.dec.produced = BitVec.ofNat 32 ss.length ∧
        t.dec.total = BitVec.ofNat 32 ss.length ∧ (ss ≠ [] → t.dec.cur = s.img.rootIdx)

/-- 42_bit_stream_decoder.md R147 (1) to (3) (marked [derived] there: it rests on R142 and R143): given a total at most the
number of symbols encoded, the decoder emits that many symbols and stops, silently; padding bits and whole surplus bytes are
never decoded. -/
def Obligations.UncountedInputIsIgnored : Prop :=
  ∀ (s : State) (ss extra : List Byte) (n : Nat), s.img.WF → (∀ x ∈ ss, s.img.HasCode x) → n ≤ ss.length → n < 2 ^ 32 →
    ∃ t, execAll (decompressCommands (BitVec.ofNat 32 n) (artifact (s.img.codesOf ss) ++ extra)) s = .next t ∧
      t.decOut = s.decOut ++ ss.take n ∧ t.dec.fault = 0#2 ∧ t.decDone = true

/-- 42_bit_stream_decoder.md R147 (5) (marked [derived] there: it rests on R142 and R143): if bytes are missing, so that not
all code bits are there, the symbols whose codes are whole in the rest are emitted and DEC_END records DEC_TRUNCATED. -/
def Obligations.TruncatedArtifactIsReported : Prop :=
  ∀ (s : State) (ss : List Byte) (m : Nat), s.img.WF → (∀ x ∈ ss, s.img.HasCode x) → ss.length < 2 ^ 32 →
    8 * m < (s.img.codesOf ss).length →
    ∃ t k, execAll (decompressCommands (BitVec.ofNat 32 ss.length) ((artifact (s.img.codesOf ss)).take m)) s = .next t ∧
      k < ss.length ∧ (s.img.codesOf (ss.take k)).length ≤ 8 * m ∧ 8 * m < (s.img.codesOf (ss.take (k + 1))).length ∧
      t.decOut = s.decOut ++ ss.take k ∧ t.dec.fault = 2#2 ∧ t.decDone = false

/-- 40_tree_rom_lookup.md R108 (1) and (4) (marked [derived] there: it rests on R106): under WF every code has 1 to 255
bits, and any bit string followed from the root meets a leaf within 255 bits or, only in the one-leaf tree, the missing
child of the synthetic root at once. -/
def Obligations.WalkMeetsALeafWithin255Bits : Prop :=
  ∀ img : Image, img.WF →
    (∀ x, img.HasCode x → 1 ≤ (img.codeOf x).length ∧ (img.codeOf x).length ≤ 255) ∧
    (img.hasTree = true → ∀ bits : List Bool, 255 ≤ bits.length →
      (∃ n i, 1 ≤ n ∧ n ≤ 255 ∧ img.LeafAt (bits.take n) i) ∨
      (img.shape = .singleLeaf ∧
        ∃ bit rest, bits = bit :: rest ∧ (img.nodeLookup img.rootIdx).child bit = none))

/-- 40_tree_rom_lookup.md R109: the three shapes and the codes they come with. -/
def Obligations.ShapesAndTheirCodes : Prop :=
  ∀ img : Image, img.WF →
    (img.shape = .empty ↔ img.hasTree = false) ∧
    (img.shape = .empty → ∀ x, (img.codeLookup x).len = 0#8) ∧
    (img.shape = .singleLeaf →
      img.hasTree = true ∧ img.isLeaf img.rootIdx = false ∧ (∃ bit, img.OneLeafOn bit) ∧
      ∃ x, (img.codeLookup x).len = 1#8 ∧ ∀ y, y ≠ x → (img.codeLookup y).len = 0#8) ∧
    (img.shape = .binary →
      img.hasTree = true ∧ img.isLeaf img.rootIdx = false ∧ img.TwoChildren img.rootIdx ∧
      ∃ x y, x ≠ y ∧ img.HasCode x ∧ img.HasCode y)

/-! ### The host's procedures -/

/-- 44_rom_image_construction.md R171: the counted model's total is the sum of its counts, and each count is the symbol's
number of occurrences. -/
def Obligations.CountedModelCountsEverySymbol : Prop :=
  ∀ bytes : List Byte,
    (FreqModel.count bytes).total = ((FreqModel.count bytes).counts.map (·.2)).sum ∧
    (∀ (b : Byte) (n : Nat), (b, n) ∈ (FreqModel.count bytes).counts ↔ n = bytes.count b ∧ 1 ≤ n)

/-- 44_rom_image_construction.md R172 and R173, on the artifact's three fields (log entry 12): the table artifact of a
counted model is read back as that model, and one whose declared number of entries is not the number present is refused. -/
def Obligations.TableArtifactRoundTrip : Prop :=
  (∀ bytes : List Byte, deserialize (serialize (FreqModel.count bytes)) = .ok (FreqModel.count bytes)) ∧
  (∀ t : TableArtifact, t.distinct ≠ t.pairs.length → deserialize t = .error .malformedTable)

/-- 44_rom_image_construction.md R179 (marked [derived] there: it rests on R174 to R178): an image built from a model with
distinct symbols is well-formed, its unused entries and reserved fields are zero, exactly the model's symbols have codes,
and its tables are canonical (the model's form of a table: log entry 3). -/
def Obligations.BuiltImageIsWellFormed : Prop :=
  ∀ m : FreqModel, (m.counts.map (·.1)).Nodup →
    (buildImage m).WF ∧ (buildImage m).ReservedZero ∧ (buildImage m).canonical = true ∧
    (∀ x, (buildImage m).HasCode x ↔ x ∈ m.counts.map (·.1))

/-- 44_rom_image_construction.md R180 and R181 (marked [derived] there), the table artifact being the model's three fields
(log entry 12): what `compress` makes of a non-empty input, `decompress` turns back into it; an
empty input makes nothing. -/
def Obligations.CompressThenDecompressIsIdentity : Prop :=
  compress [] = .ok none ∧
  ∀ bytes : List Byte, bytes ≠ [] → bytes.length < 2 ^ 32 →
    ∃ table packed, compress bytes = .ok (some (table, packed)) ∧ decompress table packed = .ok bytes
end

