-- ==== Sys2Proof/Laws/Bits.lean ====
section
/-! SUPPORT. A bit string read as a number, first bit highest, and the two facts that tie it to bit vectors: its bits, and the
code string of a CODE entry. -/

namespace Sys2Proof.Machine

/-- The number a bit string spells, first bit highest. -/
def bitsVal (w : List Bool) : Nat := w.foldl (fun a c => 2 * a + c.toNat) 0

@[simp] theorem bitsVal_nil : bitsVal [] = 0 := rfl

@[simp] theorem bitsVal_snoc (w : List Bool) (c : Bool) : bitsVal (w ++ [c]) = 2 * bitsVal w + c.toNat := by
  simp [bitsVal]

theorem bitsVal_append (v w : List Bool) : bitsVal (v ++ w) = bitsVal v * 2 ^ w.length + bitsVal w := by
  induction w using List.reverseRecOn with
  | nil => simp
  | append_singleton w c ih =>
    rw [← List.append_assoc, bitsVal_snoc, bitsVal_snoc, ih, List.length_append, List.length_singleton, Nat.pow_succ]
    ring

theorem bitsVal_lt (w : List Bool) : bitsVal w < 2 ^ w.length := by
  induction w using List.reverseRecOn with
  | nil => simp
  | append_singleton w c ih =>
    rw [bitsVal_snoc, List.length_append, List.length_singleton, Nat.pow_succ]
    have : c.toNat ≤ 1 := Bool.toNat_le c
    omega

/-- Bit `j` of the number, from the low end, is bit `length - 1 - j` of the string; past the string it is 0. -/
theorem testBit_bitsVal (w : List Bool) (j : Nat) :
    (bitsVal w).testBit j = (decide (j < w.length) && w.getD (w.length - 1 - j) false) := by
  induction w using List.reverseRecOn generalizing j with
  | nil => simp
  | append_singleton w c ih =>
    rw [bitsVal_snoc]
    cases j with
    | zero =>
      cases c <;> simp [Nat.testBit_zero]
    | succ j =>
      have half : (2 * bitsVal w + c.toNat) / 2 = bitsVal w := by
        have : c.toNat ≤ 1 := Bool.toNat_le c
        omega
      rw [Nat.testBit_succ, half, ih, List.length_append, List.length_singleton]
      by_cases hj : j < w.length
      · have e : w.length + 1 - 1 - (j + 1) = w.length - 1 - j := by omega
        rw [e]
        simp only [hj, decide_true, Bool.true_and, Nat.add_lt_add_iff_right]
        rw [List.getD_append _ _ _ _ (by omega)]
      · simp [hj]

/-- The code string of an entry has LEN bits. -/
@[simp] theorem CodeFields.length_string (c : CodeFields) : c.string.length = c.len.toNat := by
  simp [CodeFields.string]

/-- Code bit `i` is BITS[254 - i] (20_memory.md rule R54). -/
theorem CodeFields.getD_string (c : CodeFields) (i : Nat) (h : i < c.len.toNat) :
    c.string.getD i false = c.bits.getLsbD (254 - i) := by
  have : i < c.string.length := by simpa using h
  rw [List.getD_eq_getElem?_getD, List.getElem?_eq_getElem this]
  simp [CodeFields.string]

/-- The code read as a number is `BITS[254 : 255 - LEN]` (41_bit_stream_encoder.md rule R128). -/
theorem CodeFields.bitsVal_string (c : CodeFields) :
    bitsVal c.string = c.bits.toNat / 2 ^ (255 - c.len.toNat) := by
  have hl : c.len.toNat ≤ 255 := by have := c.len.isLt; omega
  apply Nat.eq_of_testBit_eq
  intro j
  rw [testBit_bitsVal, Nat.testBit_div_two_pow, length_string]
  by_cases hj : j < c.len.toNat
  · simp only [hj, decide_true, Bool.true_and]
    rw [c.getD_string _ (by omega), BitVec.getLsbD]
    congr 1
    omega
  · simp only [hj, decide_false, Bool.false_and]
    exact (Nat.testBit_lt_two_pow (lt_of_lt_of_le c.bits.isLt (Nat.pow_le_pow_right (by decide) (by omega)))).symm

@[simp] theorem length_byteBits (b : Byte) : (byteBits b).length = 8 := rfl

end Sys2Proof.Machine
end

