-- ==== Sys2Proof/Laws/State.lean ====
section
/-! SUPPORT. One lemma per field per named update of State, Enc and Dec, each true by unfolding the update once. -/

namespace Sys2Proof.Machine

/-! ### emitEnc -/
@[simp] theorem emitEnc_enc (s : State) (bs : List Byte) : (s.emitEnc bs).enc = s.enc := rfl
@[simp] theorem emitEnc_dec (s : State) (bs : List Byte) : (s.emitEnc bs).dec = s.dec := rfl
@[simp] theorem emitEnc_cmdErr (s : State) (bs : List Byte) : (s.emitEnc bs).cmdErr = s.cmdErr := rfl
@[simp] theorem emitEnc_encOut (s : State) (bs : List Byte) : (s.emitEnc bs).encOut = s.encOut ++ bs := rfl
@[simp] theorem emitEnc_decOut (s : State) (bs : List Byte) : (s.emitEnc bs).decOut = s.decOut := rfl
@[simp] theorem emitEnc_rsp (s : State) (bs : List Byte) : (s.emitEnc bs).rsp = s.rsp := rfl
@[simp] theorem emitEnc_img (s : State) (bs : List Byte) : (s.emitEnc bs).img = s.img := rfl
@[simp] theorem emitEnc_cmdQueue (s : State) (bs : List Byte) : (s.emitEnc bs).cmdQueue = s.cmdQueue := rfl

/-! ### emitDec -/
@[simp] theorem emitDec_enc (s : State) (bs : List Byte) : (s.emitDec bs).enc = s.enc := rfl
@[simp] theorem emitDec_dec (s : State) (bs : List Byte) : (s.emitDec bs).dec = s.dec := rfl
@[simp] theorem emitDec_cmdErr (s : State) (bs : List Byte) : (s.emitDec bs).cmdErr = s.cmdErr := rfl
@[simp] theorem emitDec_encOut (s : State) (bs : List Byte) : (s.emitDec bs).encOut = s.encOut := rfl
@[simp] theorem emitDec_decOut (s : State) (bs : List Byte) : (s.emitDec bs).decOut = s.decOut ++ bs := rfl
@[simp] theorem emitDec_rsp (s : State) (bs : List Byte) : (s.emitDec bs).rsp = s.rsp := rfl
@[simp] theorem emitDec_img (s : State) (bs : List Byte) : (s.emitDec bs).img = s.img := rfl
@[simp] theorem emitDec_cmdQueue (s : State) (bs : List Byte) : (s.emitDec bs).cmdQueue = s.cmdQueue := rfl

/-! ### emitRsp -/
@[simp] theorem emitRsp_enc (s : State) (g : Opcode) (d : RspData) : (s.emitRsp g d).enc = s.enc := rfl
@[simp] theorem emitRsp_dec (s : State) (g : Opcode) (d : RspData) : (s.emitRsp g d).dec = s.dec := rfl
@[simp] theorem emitRsp_cmdErr (s : State) (g : Opcode) (d : RspData) : (s.emitRsp g d).cmdErr = s.cmdErr := rfl
@[simp] theorem emitRsp_encOut (s : State) (g : Opcode) (d : RspData) : (s.emitRsp g d).encOut = s.encOut := rfl
@[simp] theorem emitRsp_decOut (s : State) (g : Opcode) (d : RspData) : (s.emitRsp g d).decOut = s.decOut := rfl
@[simp] theorem emitRsp_rsp (s : State) (g : Opcode) (d : RspData) :
    (s.emitRsp g d).rsp = s.rsp ++ [{ tag := g, data := d }] := rfl
@[simp] theorem emitRsp_img (s : State) (g : Opcode) (d : RspData) : (s.emitRsp g d).img = s.img := rfl
@[simp] theorem emitRsp_cmdQueue (s : State) (g : Opcode) (d : RspData) : (s.emitRsp g d).cmdQueue = s.cmdQueue := rfl

/-! ### illegalWord -/
@[simp] theorem illegalWord_enc (s : State) : s.illegalWord.enc = s.enc := rfl
@[simp] theorem illegalWord_dec (s : State) : s.illegalWord.dec = s.dec := rfl
@[simp] theorem illegalWord_cmdErr (s : State) : s.illegalWord.cmdErr = true := rfl
@[simp] theorem illegalWord_encOut (s : State) : s.illegalWord.encOut = s.encOut := rfl
@[simp] theorem illegalWord_decOut (s : State) : s.illegalWord.decOut = s.decOut := rfl
@[simp] theorem illegalWord_rsp (s : State) : s.illegalWord.rsp = s.rsp := rfl
@[simp] theorem illegalWord_img (s : State) : s.illegalWord.img = s.img := rfl
@[simp] theorem illegalWord_cmdQueue (s : State) : s.illegalWord.cmdQueue = s.cmdQueue := rfl

/-! ### accept and putNext -/
@[simp] theorem accept_enc (s : State) (w : CmdWord) : (s.accept w).enc = s.enc := rfl
@[simp] theorem accept_dec (s : State) (w : CmdWord) : (s.accept w).dec = s.dec := rfl
@[simp] theorem accept_cmdErr (s : State) (w : CmdWord) : (s.accept w).cmdErr = s.cmdErr := rfl
@[simp] theorem accept_encOut (s : State) (w : CmdWord) : (s.accept w).encOut = s.encOut := rfl
@[simp] theorem accept_decOut (s : State) (w : CmdWord) : (s.accept w).decOut = s.decOut := rfl
@[simp] theorem accept_rsp (s : State) (w : CmdWord) : (s.accept w).rsp = s.rsp := rfl
@[simp] theorem accept_img (s : State) (w : CmdWord) : (s.accept w).img = s.img := rfl
@[simp] theorem accept_cmdQueue (s : State) (w : CmdWord) : (s.accept w).cmdQueue = s.cmdQueue ++ [w] := rfl
@[simp] theorem putNext_img (s : State) (w : CmdWord) : (s.putNext w).img = s.img := rfl
@[simp] theorem putNext_cmdQueue (s : State) (w : CmdWord) : (s.putNext w).cmdQueue = w :: s.cmdQueue := rfl

/-! ### encAppend -/
@[simp] theorem encAppend_enc (s : State) (cs : List Bool) : (s.encAppend cs).enc = (Enc.pushBits cs s.enc).1 := rfl
@[simp] theorem encAppend_dec (s : State) (cs : List Bool) : (s.encAppend cs).dec = s.dec := rfl
@[simp] theorem encAppend_cmdErr (s : State) (cs : List Bool) : (s.encAppend cs).cmdErr = s.cmdErr := rfl
@[simp] theorem encAppend_encOut (s : State) (cs : List Bool) :
    (s.encAppend cs).encOut = s.encOut ++ (Enc.pushBits cs s.enc).2 := rfl
@[simp] theorem encAppend_decOut (s : State) (cs : List Bool) : (s.encAppend cs).decOut = s.decOut := rfl
@[simp] theorem encAppend_rsp (s : State) (cs : List Bool) : (s.encAppend cs).rsp = s.rsp := rfl
@[simp] theorem encAppend_img (s : State) (cs : List Bool) : (s.encAppend cs).img = s.img := rfl
@[simp] theorem encAppend_cmdQueue (s : State) (cs : List Bool) : (s.encAppend cs).cmdQueue = s.cmdQueue := rfl

/-! ### decWalk -/
@[simp] theorem decWalk_enc (s : State) (cs : List Bool) : (s.decWalk cs).enc = s.enc := rfl
@[simp] theorem decWalk_dec (s : State) (cs : List Bool) :
    (s.decWalk cs).dec = (Dec.walkBits s.img cs s.dec).1 := rfl
@[simp] theorem decWalk_cmdErr (s : State) (cs : List Bool) : (s.decWalk cs).cmdErr = s.cmdErr := rfl
@[simp] theorem decWalk_encOut (s : State) (cs : List Bool) : (s.decWalk cs).encOut = s.encOut := rfl
@[simp] theorem decWalk_decOut (s : State) (cs : List Bool) :
    (s.decWalk cs).decOut = s.decOut ++ (Dec.walkBits s.img cs s.dec).2 := rfl
@[simp] theorem decWalk_rsp (s : State) (cs : List Bool) : (s.decWalk cs).rsp = s.rsp := rfl
@[simp] theorem decWalk_img (s : State) (cs : List Bool) : (s.decWalk cs).img = s.img := rfl
@[simp] theorem decWalk_cmdQueue (s : State) (cs : List Bool) : (s.decWalk cs).cmdQueue = s.cmdQueue := rfl

/-! ### raise -/
@[simp] theorem firstFault_zero (c : FaultCode) : firstFault 0#2 c = c := rfl
@[simp] theorem firstFault_of_ne (now c : FaultCode) (h : now ≠ 0#2) : firstFault now c = now := by simp [firstFault, h]
@[simp] theorem Enc.raise_acc (e : Enc) (c : FaultCode) : (e.raise c).acc = e.acc := rfl
@[simp] theorem Enc.raise_nbits (e : Enc) (c : FaultCode) : (e.raise c).nbits = e.nbits := rfl
@[simp] theorem Enc.raise_fault (e : Enc) (c : FaultCode) : (e.raise c).fault = firstFault e.fault c := rfl
@[simp] theorem Dec.raise_total (d : Dec) (c : FaultCode) : (d.raise c).total = d.total := rfl
@[simp] theorem Dec.raise_produced (d : Dec) (c : FaultCode) : (d.raise c).produced = d.produced := rfl
@[simp] theorem Dec.raise_cur (d : Dec) (c : FaultCode) : (d.raise c).cur = d.cur := rfl
@[simp] theorem Dec.raise_fault (d : Dec) (c : FaultCode) : (d.raise c).fault = firstFault d.fault c := rfl

/-! ### resetWith -/
@[simp] theorem resetWith_enc (img : Image) : (State.resetWith img).enc = Enc.fresh := rfl
@[simp] theorem resetWith_dec (img : Image) :
    (State.resetWith img).dec = { total := 0#32, produced := 0#32, cur := 0#9, fault := 0#2 } := rfl
@[simp] theorem resetWith_cmdErr (img : Image) : (State.resetWith img).cmdErr = false := rfl
@[simp] theorem resetWith_encOut (img : Image) : (State.resetWith img).encOut = [] := rfl
@[simp] theorem resetWith_decOut (img : Image) : (State.resetWith img).decOut = [] := rfl
@[simp] theorem resetWith_rsp (img : Image) : (State.resetWith img).rsp = [] := rfl
@[simp] theorem resetWith_img (img : Image) : (State.resetWith img).img = img := rfl
@[simp] theorem resetWith_cmdQueue (img : Image) : (State.resetWith img).cmdQueue = [] := rfl

end Sys2Proof.Machine
end

