-- ==== Sys2Proof/Laws/Encoder.lean ====
section
/-! SUPPORT. What the encoder's loop does, said once: the registers and the bytes after any bit string, as arithmetic on the
number the pending bits and the string spell (41_bit_stream_encoder.md rules R122, R127 and R128). -/

namespace Sys2Proof.Machine

@[simp] theorem Enc.pushBit_fault (e : Enc) (c : Bool) : (e.pushBit c).1.fault = e.fault := by
  unfold Enc.pushBit
  dsimp only
  split <;> rfl

theorem Enc.pushBits_append (cs ds : List Bool) (e : Enc) :
    Enc.pushBits (cs ++ ds) e =
      ((Enc.pushBits ds (Enc.pushBits cs e).1).1, (Enc.pushBits cs e).2 ++ (Enc.pushBits ds (Enc.pushBits cs e).1).2) := by
  induction cs generalizing e with
  | nil => simp [Enc.pushBits]
  | cons c cs ih => simp [Enc.pushBits, ih, List.append_assoc]

@[simp] theorem Enc.pushBits_singleton (c : Bool) (e : Enc) : Enc.pushBits [c] e = e.pushBit c := by
  simp [Enc.pushBits]

@[simp] theorem Enc.pushBits_fault (cs : List Bool) (e : Enc) : (Enc.pushBits cs e).1.fault = e.fault := by
  induction cs generalizing e with
  | nil => rfl
  | cons c cs ih => simp [Enc.pushBits, ih]

/-- The group one bit longer, as a number. -/
theorem toNat_group_push (acc : Byte) (c : Bool) :
    ((acc ++ BitVec.ofBool c).setWidth 8 : Byte).toNat = (2 * acc.toNat + c.toNat) % 256 := by
  have h : (acc ++ BitVec.ofBool c).toNat = 2 * acc.toNat + c.toNat := by
    rw [BitVec.toNat_append]
    cases c
    · simp [Nat.shiftLeft_eq, Nat.mul_comm]
    · rw [Nat.shiftLeft_eq, ← Nat.shiftLeft_eq, ← Nat.shiftLeft_add_eq_or_of_lt (by decide), Nat.shiftLeft_eq]
      simp [Nat.mul_comm]
  rw [BitVec.toNat_setWidth, h]

/-- The encoder's registers and bytes after the bits `cs`: `T` bits spelling `Z`, of which the whole bytes are out and the
rest is pending. -/
theorem Enc.pushBits_spec (cs : List Bool) (e : Enc) (small : e.acc.toNat < 2 ^ e.nbits.toNat) :
    let T := e.nbits.toNat + cs.length
    let Z := e.acc.toNat * 2 ^ cs.length + bitsVal cs
    Enc.pushBits cs e =
      ({ acc := BitVec.ofNat 8 (Z % 2 ^ (T % 8)), nbits := BitVec.ofNat 3 (T % 8), fault := e.fault },
        (List.range (T / 8)).map fun m => BitVec.ofNat 8 (Z / 2 ^ (T - 8 - 8 * m))) := by
  have hn : e.nbits.toNat < 8 := e.nbits.isLt
  induction cs using List.reverseRecOn with
  | nil =>
    have : e.nbits.toNat / 8 = 0 := by omega
    obtain ⟨acc, nbits, fault⟩ := e
    simp only [Enc.pushBits, List.length_nil, Nat.add_zero, pow_zero, Nat.mul_one, bitsVal_nil, Nat.mod_eq_of_lt hn,
      this, List.range_zero, List.map_nil, Nat.mod_eq_of_lt small, BitVec.ofNat_toNat, BitVec.setWidth_eq]
  | append_singleton cs c ih =>
    have hc : c.toNat ≤ 1 := Bool.toNat_le c
    dsimp only at ih ⊢
    rw [Enc.pushBits_append, Enc.pushBits_singleton, ih, bitsVal_snoc, List.length_append, List.length_singleton]
    obtain ⟨T, hT⟩ : ∃ T, T = e.nbits.toNat + cs.length := ⟨_, rfl⟩
    obtain ⟨Z, hZ⟩ : ∃ Z, Z = e.acc.toNat * 2 ^ cs.length + bitsVal cs := ⟨_, rfl⟩
    have hZ' : e.acc.toNat * 2 ^ (cs.length + 1) + (2 * bitsVal cs + c.toNat) = 2 * Z + c.toNat := by
      rw [hZ, Nat.pow_succ]; ring
    rw [hZ', ← Nat.add_assoc, ← hT, ← hZ]
    have old : ∀ m, m < T / 8 → (2 * Z + c.toNat) / 2 ^ (T + 1 - 8 - 8 * m) = Z / 2 ^ (T - 8 - 8 * m) := by
      intro m hm
      have : T + 1 - 8 - 8 * m = (T - 8 - 8 * m) + 1 := by omega
      rw [this, Nat.pow_succ, Nat.mul_comm (2 ^ _) 2, ← Nat.div_div_eq_div_mul]
      congr 1
      omega
    have hmod : T % 8 < 8 := Nat.mod_lt _ (by decide)
    unfold Enc.pushBit
    dsimp only
    by_cases h7 : T % 8 = 7
    · have e7 : (BitVec.ofNat 3 (T % 8)) = 7#3 := by rw [h7]
      have q : (T + 1) / 8 = T / 8 + 1 := by omega
      have r : (T + 1) % 8 = 0 := by omega
      rw [if_pos e7, q, r, List.range_succ, List.map_append]
      simp only [Nat.pow_zero, Nat.mod_one, List.map_singleton, Prod.mk.injEq, true_and]
      have last : (BitVec.setWidth 8 (BitVec.ofNat 8 (Z % 2 ^ (T % 8)) ++ BitVec.ofBool c) : Byte) =
          BitVec.ofNat 8 ((2 * Z + c.toNat) / 2 ^ (T + 1 - 8 - 8 * (T / 8))) := by
        apply BitVec.eq_of_toNat_eq
        have : T + 1 - 8 - 8 * (T / 8) = 0 := by omega
        rw [toNat_group_push, BitVec.toNat_ofNat, BitVec.toNat_ofNat, this, h7, Nat.pow_zero, Nat.div_one]
        omega
      rw [last]
      congr 1
      exact List.map_congr_left fun m hm => by rw [old m (List.mem_range.1 hm)]
    · have e7 : ¬ (BitVec.ofNat 3 (T % 8)) = 7#3 := by
        intro h
        have := congrArg BitVec.toNat h
        simp only [BitVec.toNat_ofNat] at this
        omega
      have q : (T + 1) / 8 = T / 8 := by omega
      have r : (T + 1) % 8 = T % 8 + 1 := by omega
      rw [if_neg e7, q, r, List.append_nil]
      refine Prod.ext ?_ ?_ <;> dsimp only
      · congr 1
        · apply BitVec.eq_of_toNat_eq
          rw [toNat_group_push, BitVec.toNat_ofNat, BitVec.toNat_ofNat, Nat.pow_succ 2 (T % 8),
            Nat.mul_comm (2 ^ (T % 8)) 2]
          have hp : 2 ^ (T % 8) ≤ 2 ^ 6 := Nat.pow_le_pow_right (by decide) (by omega)
          have hlt : Z % 2 ^ (T % 8) < 2 ^ (T % 8) := Nat.mod_lt _ (Nat.two_pow_pos _)
          have split : Z = 2 ^ (T % 8) * (Z / 2 ^ (T % 8)) + Z % 2 ^ (T % 8) := (Nat.div_add_mod _ _).symm
          have key : (2 * Z + c.toNat) % (2 * 2 ^ (T % 8)) = 2 * (Z % 2 ^ (T % 8)) + c.toNat := by
            generalize Z / 2 ^ (T % 8) = d at split
            generalize Z % 2 ^ (T % 8) = m at *
            generalize 2 ^ (T % 8) = P at *
            have : 2 * Z + c.toNat = (2 * m + c.toNat) + (2 * P) * d := by rw [split]; ring
            rw [this, Nat.add_mul_mod_self_left, Nat.mod_eq_of_lt (by omega)]
          rw [key, Nat.mod_eq_of_lt (by omega : Z % 2 ^ (T % 8) < 2 ^ 8)]
        · apply BitVec.eq_of_toNat_eq
          simp only [BitVec.toNat_add, BitVec.toNat_ofNat]
          omega
      · exact List.map_congr_left fun m hm => by rw [old m (List.mem_range.1 hm)]

/-- A bit string leaves the group in its form (10_state.md rule R22). -/
theorem Enc.pushBits_small (cs : List Bool) (e : Enc) (small : e.acc.toNat < 2 ^ e.nbits.toNat) :
    (Enc.pushBits cs e).1.acc.toNat < 2 ^ (Enc.pushBits cs e).1.nbits.toNat := by
  have h := Enc.pushBits_spec cs e small
  dsimp only at h
  rw [h]
  have hr : (e.nbits.toNat + cs.length) % 8 < 8 := Nat.mod_lt _ (by decide)
  simp only [BitVec.toNat_ofNat]
  rw [Nat.mod_eq_of_lt (show (e.nbits.toNat + cs.length) % 8 < 2 ^ 3 from hr)]
  refine lt_of_le_of_lt (Nat.mod_le _ _) (Nat.mod_lt _ (Nat.two_pow_pos _))

/-- How many bytes a bit string completes (41_bit_stream_encoder.md rule R122). It does not depend on the group's form. -/
theorem Enc.length_pushBits (cs : List Bool) (e : Enc) :
    (Enc.pushBits cs e).2.length = (e.nbits.toNat + cs.length) / 8 ∧
      (Enc.pushBits cs e).1.nbits.toNat = (e.nbits.toNat + cs.length) % 8 := by
  induction cs generalizing e with
  | nil =>
    have : e.nbits.toNat < 8 := e.nbits.isLt
    simp [Enc.pushBits]
    omega
  | cons c cs ih =>
    have hn : e.nbits.toNat < 8 := e.nbits.isLt
    simp only [Enc.pushBits, List.length_append, List.length_cons]
    obtain ⟨h1, h2⟩ := ih (e.pushBit c).1
    rw [h1, h2]
    unfold Enc.pushBit
    dsimp only
    by_cases h7 : e.nbits = 7#3
    · rw [if_pos h7]
      have : e.nbits.toNat = 7 := by rw [h7]; rfl
      simp
      omega
    · rw [if_neg h7]
      have : e.nbits.toNat ≠ 7 := fun h => h7 (BitVec.eq_of_toNat_eq h)
      simp
      omega

end Sys2Proof.Machine
end

