-- ==== Sys2Proof/Laws/Artifact.lean ====
section
/-! SUPPORT. The bytes of an artifact, bit by bit (20_memory.md rules R50 to R52), and as the encoder makes them: whole bytes by its
loop, the last one by its flush. -/

namespace Sys2Proof.Machine

/-- Bit `k` of byte `m` of an artifact is bit `8m + 7 - k` of its bit string (20_memory.md rule R51). -/
theorem getLsbD_artifactByte (w : List Bool) (m k : Nat) (h : k < 8) :
    (artifactByte w m).getLsbD k = w.getD (8 * m + 7 - k) false := by
  unfold artifactByte
  rw [BitVec.getLsbD_ofBoolListBE]
  interval_cases k <;> rfl

@[simp] theorem length_artifact (w : List Bool) : (artifact w).length = (w.length + 7) / 8 := by
  simp [artifact]

/-- A whole byte of an artifact, as the encoder's loop emits it. -/
theorem artifactByte_whole (w : List Bool) (m : Nat) (h : m < w.length / 8) :
    artifactByte w m = BitVec.ofNat 8 (bitsVal w / 2 ^ (w.length - 8 - 8 * m)) := by
  apply BitVec.eq_of_getLsbD_eq
  intro k hk
  rw [getLsbD_artifactByte w m k hk, BitVec.getLsbD_ofNat, Nat.testBit_div_two_pow, testBit_bitsVal]
  have : k + (w.length - 8 - 8 * m) < w.length := by omega
  simp only [hk, this, decide_true, Bool.true_and]
  congr 1
  omega

/-- The last, partial byte of an artifact, as the encoder's flush makes it. -/
theorem artifactByte_partial (w : List Bool) :
    artifactByte w (w.length / 8) =
      (BitVec.ofNat 8 (bitsVal w % 2 ^ (w.length % 8))) <<< (8 - w.length % 8) := by
  apply BitVec.eq_of_getLsbD_eq
  intro k hk
  have hr : w.length % 8 < 8 := Nat.mod_lt _ (by decide)
  rw [getLsbD_artifactByte w _ k hk, BitVec.getLsbD_shiftLeft, BitVec.getLsbD_ofNat, Nat.testBit_mod_two_pow,
    testBit_bitsVal]
  by_cases hlow : k < 8 - w.length % 8
  · simp only [hlow, decide_true, Bool.not_true, Bool.and_false, Bool.false_and]
    exact List.getD_eq_default _ _ (by omega)
  · have h1 : k - (8 - w.length % 8) < 8 := by omega
    have h2 : k - (8 - w.length % 8) < w.length % 8 := by omega
    have h3 : k - (8 - w.length % 8) < w.length := by omega
    simp only [hk, hlow, h1, h2, h3, decide_true, decide_false, Bool.not_false, Bool.true_and]
    congr 1
    omega

/-- The whole bytes of an artifact. -/
theorem take_artifact (w : List Bool) :
    (artifact w).take (w.length / 8) =
      (List.range (w.length / 8)).map fun m => BitVec.ofNat 8 (bitsVal w / 2 ^ (w.length - 8 - 8 * m)) := by
  unfold artifact
  rw [← List.map_take, List.take_range, Nat.min_eq_left (by omega)]
  exact List.map_congr_left fun m hm => artifactByte_whole w m (List.mem_range.1 hm)

/-- An artifact is its whole bytes and, if bits are left over, the padded last one (20_memory.md rule R52). -/
theorem artifact_eq (w : List Bool) :
    artifact w = (artifact w).take (w.length / 8) ++
      if w.length % 8 = 0 then [] else [artifactByte w (w.length / 8)] := by
  unfold artifact
  rw [← List.map_take, List.take_range, Nat.min_eq_left (by omega)]
  split
  · rw [show (w.length + 7) / 8 = w.length / 8 by omega, List.append_nil]
  · rw [show (w.length + 7) / 8 = w.length / 8 + 1 by omega, List.range_succ, List.map_append, List.map_singleton]

/-- What the encoder's loop makes of a whole session's bits, from the initial state. -/
theorem pushBits_fresh (w : List Bool) :
    Enc.pushBits w Enc.fresh =
      ({ acc := BitVec.ofNat 8 (bitsVal w % 2 ^ (w.length % 8)), nbits := BitVec.ofNat 3 (w.length % 8), fault := 0#2 },
        (artifact w).take (w.length / 8)) := by
  have h := Enc.pushBits_spec w Enc.fresh (by decide)
  have ha : Enc.fresh.acc.toNat = 0 := rfl
  have hn : Enc.fresh.nbits.toNat = 0 := rfl
  have hf : Enc.fresh.fault = 0#2 := rfl
  simpa only [ha, hn, hf, Nat.zero_add, Nat.zero_mul, ← take_artifact] using h

end Sys2Proof.Machine
end

