-- ==== Sys2Proof/Laws/Decode.lean ====
section
/-! SUPPORT. The field layout of a command word, said once: OP and ARG of a word put together from them, and the word put together
from its OP and ARG; what `decode` does with a word so put together. -/

namespace Sys2Proof

theorem extractLsb'_high_append (o : Opcode) (a : Arg) : BitVec.extractLsb' 32 4 (o ++ a) = o := by
  ext k hk
  rw [BitVec.getElem_extractLsb', BitVec.getLsbD_append]
  simp [← BitVec.getLsbD_eq_getElem]

theorem extractLsb'_low_append (o : Opcode) (a : Arg) : BitVec.extractLsb' 0 32 (o ++ a) = a := by
  ext k hk
  rw [BitVec.getElem_extractLsb', BitVec.getLsbD_append]
  simp [← BitVec.getLsbD_eq_getElem, hk]

theorem extractLsb'_append_self (w : BitVec (4 + 32)) :
    BitVec.extractLsb' 32 4 w ++ BitVec.extractLsb' 0 32 w = w := by
  ext k hk
  rw [BitVec.getElem_append]
  split
  · rw [BitVec.getElem_extractLsb', Nat.zero_add, BitVec.getLsbD_eq_getElem]
  · rw [BitVec.getElem_extractLsb', ← BitVec.getLsbD_eq_getElem]
    congr 1
    omega

/-- OP of a word put together from OP and ARG. -/
@[simp] theorem op_append (o : Opcode) (a : Arg) : CmdWord.op (o ++ a) = o := extractLsb'_high_append o a

/-- ARG of a word put together from OP and ARG. -/
@[simp] theorem arg_append (o : Opcode) (a : Arg) : CmdWord.arg (o ++ a) = a := extractLsb'_low_append o a

/-- A word is its OP and its ARG put together (30_encoding.md rule R72). -/
theorem op_append_arg (w : CmdWord) : (CmdWord.op w ++ CmdWord.arg w : CmdWord) = w := extractLsb'_append_self w

@[simp] theorem op_encode (i : Instr) : CmdWord.op (encode i) = i.op := op_append _ _
@[simp] theorem arg_encode (i : Instr) : CmdWord.arg (encode i) = i.arg := arg_append _ _

/-- Whether ARG's must-be-zero bits are zero, bit by bit (30_encoding.md rule R73). -/
theorem Format.accepts_iff (f : Format) (arg : Arg) :
    f.accepts arg = true ↔ ∀ k, f.operandBits ≤ k → k < 32 → arg.getLsbD k = false := by
  have width : arg.toNat < 2 ^ 32 := arg.isLt
  simp only [Format.accepts, decide_eq_true_eq]
  constructor
  · intro h k hk _
    rw [BitVec.getLsbD]
    exact Nat.testBit_lt_two_pow (lt_of_lt_of_le h (Nat.pow_le_pow_right (by decide) hk))
  · intro h
    apply Nat.lt_pow_two_of_testBit
    intro k hk
    by_cases hk32 : k < 32
    · exact h k hk hk32
    · exact Nat.testBit_lt_two_pow (lt_of_lt_of_le width (Nat.pow_le_pow_right (by decide) (by omega)))

/-- An opcode has a format exactly when it has a command. -/
theorem formatOf_isSome (op : Opcode) (arg : Arg) : (formatOf op).isSome = (instrOf op arg).isSome := by
  unfold formatOf instrOf
  split <;> rfl

/-- A word decodes exactly when its opcode has a format that accepts its argument (30_encoding.md rule R82). -/
theorem decode_ok_iff (w : CmdWord) (i : Instr) :
    decode w = .ok i ↔ ∃ f, formatOf (CmdWord.op w) = some f ∧ f.accepts (CmdWord.arg w) = true ∧
      instrOf (CmdWord.op w) (CmdWord.arg w) = some i := by
  unfold decode
  have same := formatOf_isSome (CmdWord.op w) (CmdWord.arg w)
  cases hf : formatOf (CmdWord.op w) <;> cases hi : instrOf (CmdWord.op w) (CmdWord.arg w) <;>
    simp only [hf, hi, Option.isSome] at same ⊢ <;> try contradiction
  · simp
  · split <;> simp_all

/-- The command's opcode and its operand's place, constructor by constructor (30_encoding.md rules R73 to R75). -/
theorem instrOf_ok (op : Opcode) (arg : Arg) (i : Instr) (h : instrOf op arg = some i) :
    i.op = op ∧ (∀ f, formatOf op = some f → f.accepts arg = true → i.arg = arg) := by
  obtain ⟨⟨o, ho⟩⟩ := op
  have hb : ∀ n : Nat, arg.toNat < 2 ^ n → n ≤ 32 → ((arg.extractLsb' 0 n).setWidth 32) = arg := by
    intro n hn hn'
    apply BitVec.eq_of_toNat_eq
    simp only [BitVec.toNat_setWidth, BitVec.extractLsb'_toNat, Nat.shiftRight_zero]
    rw [Nat.mod_eq_of_lt hn, Nat.mod_eq_of_lt arg.isLt]
  have h0 : arg.toNat < 2 ^ 0 → (0#32) = arg := by
    intro hz
    apply BitVec.eq_of_toNat_eq
    simp at hz ⊢
    simp [hz]
  have ho' : o < 16 := ho
  interval_cases o <;> simp [instrOf] at h <;> subst h <;>
    refine ⟨rfl, fun f hf hlt => ?_⟩ <;> simp [formatOf] at hf <;> subst hf <;>
    have hlt := of_decide_eq_true hlt <;>
    first
      | rfl
      | exact h0 hlt
      | exact hb _ hlt (by decide)

/-- OP and ARG determine a word and are determined by it. -/
theorem cmdWord_append_inj (o o' : BitVec 4) (a a' : BitVec 32) : (o ++ a = o' ++ a') ↔ o = o' ∧ a = a' := by
  constructor
  · intro h
    refine ⟨?_, ?_⟩
    · rw [← extractLsb'_high_append o a, h, extractLsb'_high_append]
    · rw [← extractLsb'_low_append o a, h, extractLsb'_low_append]
  · rintro ⟨rfl, rfl⟩; rfl

/-- A row's test compares the opcode and asks for zeros under the argument's mask. -/
theorem masked_iff (w : CmdWord) (o : BitVec 4) (ma : BitVec 32) :
   (w &&& (0xF#4 ++ ma) = o ++ 0#32) ↔ CmdWord.op w = o ∧ CmdWord.arg w &&& ma = 0#32 := by
  conv_lhs => rw [← op_append_arg w]
  rw [show ((CmdWord.op w ++ CmdWord.arg w : CmdWord) &&& (0xF#4 ++ ma) : CmdWord) =
    (CmdWord.op w &&& 0xF#4) ++ (CmdWord.arg w &&& ma) from BitVec.and_append]
  rw [cmdWord_append_inj]
  have : CmdWord.op w &&& 0xF#4 = CmdWord.op w := BitVec.and_allOnes
  rw [this]

/-- The mask of a format's must-be-zero bits (30_encoding.md rule R73). -/
theorem Format.mask_iff (f : Format) (a : Arg) :
    (a &&& (BitVec.allOnes 32 <<< f.operandBits) = 0#32) ↔ f.accepts a = true := by
  rw [Format.accepts_iff]
  constructor
  · intro h k hk h32
    have := congrArg (·.getLsbD k) h
    have e : (BitVec.allOnes 32).getLsbD (k - f.operandBits) = true := by rw [BitVec.getLsbD_allOnes]; simp; omega
    rw [BitVec.getLsbD_and, BitVec.getLsbD_shiftLeft, e] at this
    simpa [h32, Nat.not_lt.2 hk] using this
  · intro h
    ext k hk
    rw [BitVec.getElem_and, BitVec.getElem_shiftLeft, BitVec.getElem_zero]
    by_cases hf : f.operandBits ≤ k
    · rw [← BitVec.getLsbD_eq_getElem, h k hf hk]; rfl
    · simp; omega

/-- A row of the table covers a word exactly when OP is the row's opcode and ARG fits its format (30_encoding.md rule R75). -/
theorem OpRow.covers_iff (r : OpRow) (hr : r ∈ opTable) (w : CmdWord) :
    r.covers w = true ↔ ∃ f, formatOf (CmdWord.op w) = some f ∧ f.accepts (CmdWord.arg w) = true ∧
      CmdWord.op w = r.matchBits.extractLsb' 32 4 := by
  have key : ∀ (o : BitVec 4) (f : Format), formatOf o = some f →
      ((w &&& (0xF#4 ++ (BitVec.allOnes 32 <<< f.operandBits)) == o ++ 0#32) = true ↔
        ∃ f, formatOf (CmdWord.op w) = some f ∧ f.accepts (CmdWord.arg w) = true ∧ CmdWord.op w = o) := by
    intro o f hf
    rw [beq_iff_eq, masked_iff, Format.mask_iff]
    constructor
    · rintro ⟨rfl, h⟩; exact ⟨f, hf, h, rfl⟩
    · rintro ⟨f', hf', h, rfl⟩
      rw [hf] at hf'; cases hf'; exact ⟨rfl, h⟩
  simp only [opTable, List.mem_cons, List.not_mem_nil, or_false] at hr
  rcases hr with rfl | rfl | rfl | rfl | rfl | rfl | rfl | rfl | rfl | rfl
  · exact key 1 .Z rfl
  · exact key 2 .B rfl
  · exact key 3 .Z rfl
  · exact key 4 .N rfl
  · exact key 5 .B rfl
  · exact key 6 .Z rfl
  · exact key 8 .B rfl
  · exact key 9 .X rfl
  · exact key 10 .Z rfl
  · exact key 12 .Z rfl

/-- Every assigned opcode has a row. -/
theorem row_of_op (op : BitVec 4) (f : Format) (h : formatOf op = some f) :
    ∃ r ∈ opTable, op = r.matchBits.extractLsb' 32 4 := by
  have := op.isLt
  obtain ⟨⟨o, ho⟩⟩ := op
  have ho' : o < 16 := ho
  interval_cases o <;> simp [formatOf] at h <;> simp [opTable]

/-- A word is legal exactly when its opcode has a format that accepts its argument (30_encoding.md rule R82). -/
theorem legal_iff (w : CmdWord) :
    legal w = true ↔ ∃ f, formatOf (CmdWord.op w) = some f ∧ f.accepts (CmdWord.arg w) = true := by
  unfold legal
  rw [List.any_eq_true]
  constructor
  · rintro ⟨r, hr, h⟩
    obtain ⟨f, a, b, c⟩ := (OpRow.covers_iff r hr w).1 h
    exact ⟨f, a, b⟩
  · rintro ⟨f, a, b⟩
    obtain ⟨r, hr, h⟩ := row_of_op _ f a
    exact ⟨r, hr, (OpRow.covers_iff r hr w).2 ⟨f, a, b, h⟩⟩

/-- An operand of a byte command fits its format. -/
theorem accepts_byte (b : Byte) : Format.B.accepts (b.setWidth 32) = true := by
  have := b.isLt
  simp [Format.accepts, Format.operandBits]
  omega

/-- An operand of an index command fits its format. -/
theorem accepts_index (i : NodeIdx) : Format.X.accepts (i.setWidth 32) = true := by
  have := i.isLt
  simp [Format.accepts, Format.operandBits]
  omega

/-- A byte operand is read back from ARG. -/
theorem extractLsb'_byte (b : Byte) : BitVec.extractLsb' 0 8 (BitVec.setWidth 32 b) = b := by
  ext k hk
  simp [hk]
  omega

/-- An index operand is read back from ARG. -/
theorem extractLsb'_index (i : NodeIdx) : BitVec.extractLsb' 0 9 (BitVec.setWidth 32 i) = i := by
  ext k hk
  simp [hk]
  omega

/-- A legal word decodes. -/
theorem legal_iff_decodes (w : CmdWord) : legal w = true ↔ ∃ i, decode w = .ok i := by
  rw [legal_iff]
  constructor
  · rintro ⟨f, hf, ha⟩
    have same := formatOf_isSome (CmdWord.op w) (CmdWord.arg w)
    rw [hf] at same
    obtain ⟨i, hi⟩ := Option.isSome_iff_exists.1 same.symm
    exact ⟨i, (decode_ok_iff w i).2 ⟨f, hf, ha, hi⟩⟩
  · rintro ⟨i, h⟩
    obtain ⟨f, hf, ha, _⟩ := (decode_ok_iff w i).1 h
    exact ⟨f, hf, ha⟩

end Sys2Proof
end

