-- ==== Sys2Proof/Laws/Tree.lean ====
section
/-! SUPPORT. Paths in the tree an image denotes, and what a well-formed image says of its codes (40_tree_rom_lookup.md rules R106
to R108). -/

namespace Sys2Proof.Machine

theorem Image.Path.append {img : Image} {i j k : NodeIdx} {p q : List Bool}
    (h : img.Path i p j) (h' : img.Path j q k) : img.Path i (p ++ q) k := by
  induction h with
  | here => exact h'
  | edge internal child _ ih => exact .edge internal child (ih h')

theorem Image.path_nil_iff {img : Image} {i j : NodeIdx} : img.Path i [] j ↔ i = j := by
  constructor
  · intro h
    cases h
    rfl
  · rintro rfl
    exact .here _

theorem Image.path_cons_iff {img : Image} {i k : NodeIdx} {bit : Bool} {p : List Bool} :
    img.Path i (bit :: p) k ↔
      (img.nodeLookup i).leaf = false ∧ ∃ j, (img.nodeLookup i).child bit = some j ∧ img.Path j p k := by
  constructor
  · intro h
    cases h with
    | edge internal child rest => exact ⟨internal, _, child, rest⟩
  · rintro ⟨internal, j, child, rest⟩
    exact .edge internal child rest

/-- A path splits at any point. -/
theorem Image.path_append_iff {img : Image} {i k : NodeIdx} {p q : List Bool} :
    img.Path i (p ++ q) k ↔ ∃ j, img.Path i p j ∧ img.Path j q k := by
  induction p generalizing i with
  | nil => simp [Image.path_nil_iff]
  | cons bit p ih =>
    simp only [List.cons_append, Image.path_cons_iff, ih]
    constructor
    · rintro ⟨internal, j, child, m, hm, hk⟩
      exact ⟨m, ⟨internal, j, child, hm⟩, hk⟩
    · rintro ⟨m, ⟨internal, j, child, hm⟩, hk⟩
      exact ⟨internal, j, child, m, hm, hk⟩

/-- The bits determine where a path ends. -/
theorem Image.Path.unique {img : Image} {i j k : NodeIdx} {p : List Bool}
    (h : img.Path i p j) (h' : img.Path i p k) : j = k := by
  induction h with
  | here => exact Image.path_nil_iff.1 h'
  | edge internal child _ ih =>
    obtain ⟨_, m, hm, rest⟩ := Image.path_cons_iff.1 h'
    rw [child] at hm
    cases hm
    exact ih rest

/-- A path that goes on leaves from an internal node. -/
theorem Image.Path.internal_of_ne_nil {img : Image} {i j : NodeIdx} {p : List Bool}
    (h : img.Path i p j) (hp : p ≠ []) : img.isLeaf i = false := by
  cases h with
  | here => exact absurd rfl hp
  | edge internal _ _ => exact internal

/-- The path of a leaf is not empty, for the root is internal. -/
theorem Image.WF.path_ne_nil {img : Image} (wf : img.WF) {p : List Bool} {i : NodeIdx} (h : img.LeafAt p i) :
    p ≠ [] := by
  rintro rfl
  obtain ⟨tree, path, leaf⟩ := h
  rw [← Image.path_nil_iff.1 path, wf.rootInternal] at leaf
  exact absurd leaf (by decide)

/-- A symbol with a code is the symbol of a leaf whose path is the code. -/
theorem Image.WF.leaf_of_hasCode {img : Image} (wf : img.WF) {x : Byte} (h : img.HasCode x) :
    ∃ i, img.LeafAt (img.codeOf x) i ∧ (img.nodeLookup i).sym = x := by
  by_contra none
  apply h
  have zero : img.codeEntry x = 0 := wf.noOtherCode x fun p i leaf hx => by
    apply none
    refine ⟨i, ?_, hx⟩
    have code := (wf.codeOfLeaf p i leaf).2.1
    rw [hx] at code
    rw [Image.codeOf, code]
    exact leaf
  unfold Image.codeLookup
  rw [zero]
  simp [codeFields]

/-- A code is as long as its LEN says, so no leaf lies deeper than 255 edges. -/
theorem Image.WF.length_path {img : Image} (wf : img.WF) {p : List Bool} {i : NodeIdx} (h : img.LeafAt p i) :
    p.length ≤ 255 := by
  have len := (wf.codeOfLeaf p i h).1
  have := (img.codeLookup (img.nodeLookup i).sym).len.isLt
  omega

/-- A node with two children has one for either bit. -/
theorem Image.TwoChildren.child {img : Image} {i : NodeIdx} (h : img.TwoChildren i) (bit : Bool) :
    ∃ j, (img.nodeLookup i).child bit = some j := by
  cases bit with
  | false => exact ⟨(img.nodeLookup i).left, by simp [NodeFields.child, h.1]⟩
  | true => exact ⟨(img.nodeLookup i).right, by simp [NodeFields.child, h.2]⟩

/-- In a binary tree, 512 bits followed from a node of the tree meet a leaf: the tree has no cycle and at most 512 nodes. -/
theorem Image.WF.leaf_on {img : Image} (wf : img.WF) (tree : img.hasTree = true)
    (two : ∀ p i, img.Path img.rootIdx p i → img.isLeaf i = false → img.TwoChildren i) {p : List Bool} {i : NodeIdx}
    (path : img.Path img.rootIdx p i) (bits : List Bool) (long : 512 ≤ bits.length) :
    ∃ n j, n ≤ 512 ∧ img.LeafAt (p ++ bits.take n) j := by
  by_contra none
  have visit : ∀ n, n ≤ 512 → ∃ j, img.Path img.rootIdx (p ++ bits.take n) j := by
    intro n
    induction n with
    | zero => exact fun _ => ⟨i, by simpa using path⟩
    | succ n ih =>
      intro hn
      obtain ⟨j, hj⟩ := ih (by omega)
      have internal : img.isLeaf j = false := by
        by_contra leaf
        exact none ⟨n, j, by omega, tree, hj, by simpa using leaf⟩
      obtain ⟨k, hk⟩ := (two _ _ hj internal).child bits[n]
      refine ⟨k, ?_⟩
      rw [List.take_succ_eq_append_getElem (by omega), ← List.append_assoc]
      exact hj.append (.edge internal hk (.here k))
  choose node hnode using fun n : Fin 513 => visit n.1 (by omega)
  obtain ⟨a, b, apart, same⟩ := Fintype.exists_ne_map_eq_of_card_lt (fun n => (node n).toFin) (by simp)
  have same : node a = node b := BitVec.toFin_inj.1 same
  have hb := hnode b
  rw [← same] at hb
  have lengths := congrArg List.length (wf.tree tree _ _ _ (hnode a) hb)
  simp only [List.length_append, List.length_take] at lengths
  apply apart
  apply Fin.ext
  omega

end Sys2Proof.Machine
end

