-- ==== Sys2Proof/Laws/Decoder.lean ====
section
/-! SUPPORT. What the decoder's loop does, said once: bit strings one after the other, whole paths at a time, and that it is
`Image.Decodes` (42_bit_stream_decoder.md rule R142). -/

namespace Sys2Proof.Machine

theorem Dec.stopped_eq_false_iff (d : Dec) :
    d.stopped = false ↔ d.fault = 0#2 ∧ d.produced ≠ d.total := by
  simp [Dec.stopped, Dec.done]

theorem Dec.stopped_eq_true_iff (d : Dec) :
    d.stopped = true ↔ d.fault ≠ 0#2 ∨ d.produced = d.total := by
  simp [Dec.stopped, Dec.done]

/-- A done or faulted decoder reads no bit. -/
@[simp] theorem Dec.walkBits_of_stopped (img : Image) (bits : List Bool) (d : Dec) (h : d.stopped = true) :
    Dec.walkBits img bits d = (d, []) := by
  cases bits with
  | nil => rfl
  | cons bit bits => simp [Dec.walkBits, h]

@[simp] theorem Dec.walkBits_nil (img : Image) (d : Dec) : Dec.walkBits img [] d = (d, []) := rfl

theorem Dec.walkBits_cons (img : Image) (bit : Bool) (bits : List Bool) (d : Dec) (h : d.stopped = false) :
    Dec.walkBits img (bit :: bits) d =
      ((Dec.walkBits img bits (d.walkBit img bit).1).1,
        (d.walkBit img bit).2 ++ (Dec.walkBits img bits (d.walkBit img bit).1).2) := by
  simp [Dec.walkBits, h]

theorem Dec.walkBits_append (img : Image) (p q : List Bool) (d : Dec) :
    Dec.walkBits img (p ++ q) d =
      ((Dec.walkBits img q (Dec.walkBits img p d).1).1,
        (Dec.walkBits img p d).2 ++ (Dec.walkBits img q (Dec.walkBits img p d).1).2) := by
  induction p generalizing d with
  | nil => simp
  | cons bit p ih =>
    by_cases h : d.stopped = true
    · simp [h]
    · have h := Bool.eq_false_of_not_eq_true h
      simp [Dec.walkBits_cons _ _ _ _ h, ih, List.append_assoc]

/-- A running decoder that meets a missing child records DEC_NO_CHILD and nothing else. -/
theorem Dec.raise_noChild {d : Dec} (h : d.stopped = false) : d.raise decNoChild = { d with fault := decNoChild } := by
  simp [Dec.raise, ((Dec.stopped_eq_false_iff d).1 h).1]

/-- DEC_NO_CHILD ends the reading of bits. -/
theorem Dec.stopped_noChild (d : Dec) : ({ d with fault := decNoChild } : Dec).stopped = true := by
  simp [Dec.stopped, decNoChild]

/-! ### One bit -/

theorem Dec.walkBit_leaf {img : Image} {d : Dec} (bit : Bool) (h : img.isLeaf d.cur = true) :
    d.walkBit img bit = (d.raise decNoChild, []) := by
  unfold Image.isLeaf at h
  simp [Dec.walkBit, h]

theorem Dec.walkBit_noChild {img : Image} {d : Dec} {bit : Bool} (h : img.isLeaf d.cur = false)
    (missing : (img.nodeLookup d.cur).child bit = none) : d.walkBit img bit = (d.raise decNoChild, []) := by
  unfold Image.isLeaf at h
  simp [Dec.walkBit, h, missing]

theorem Dec.walkBit_toLeaf {img : Image} {d : Dec} {bit : Bool} {j : NodeIdx} (h : img.isLeaf d.cur = false)
    (child : (img.nodeLookup d.cur).child bit = some j) (leaf : img.isLeaf j = true) :
    d.walkBit img bit =
      ({ d with produced := d.produced + 1#32, cur := img.rootIdx }, [(img.nodeLookup j).sym]) := by
  unfold Image.isLeaf at h leaf
  simp [Dec.walkBit, h, child, leaf, Image.rootIdx]

theorem Dec.walkBit_toInternal {img : Image} {d : Dec} {bit : Bool} {j : NodeIdx} (h : img.isLeaf d.cur = false)
    (child : (img.nodeLookup d.cur).child bit = some j) (internal : img.isLeaf j = false) :
    d.walkBit img bit = ({ d with cur := j }, []) := by
  unfold Image.isLeaf at h internal
  simp [Dec.walkBit, h, child, internal]

/-- Everything one bit can do (42_bit_stream_decoder.md rule R142). -/
theorem Dec.walkBit_cases (img : Image) (d : Dec) (bit : Bool) :
    (d.walkBit img bit = (d.raise decNoChild, []) ∧
      (img.isLeaf d.cur = true ∨ (img.nodeLookup d.cur).child bit = none)) ∨
    (∃ j, img.isLeaf d.cur = false ∧ (img.nodeLookup d.cur).child bit = some j ∧ img.isLeaf j = true ∧
      d.walkBit img bit =
        ({ d with produced := d.produced + 1#32, cur := img.rootIdx }, [(img.nodeLookup j).sym])) ∨
    (∃ j, img.isLeaf d.cur = false ∧ (img.nodeLookup d.cur).child bit = some j ∧ img.isLeaf j = false ∧
      d.walkBit img bit = ({ d with cur := j }, [])) := by
  cases hl : img.isLeaf d.cur with
  | true => exact .inl ⟨Dec.walkBit_leaf bit hl, .inl rfl⟩
  | false =>
    cases hc : (img.nodeLookup d.cur).child bit with
    | none => exact .inl ⟨Dec.walkBit_noChild hl hc, .inr rfl⟩
    | some j =>
      cases hj : img.isLeaf j with
      | true => exact .inr (.inl ⟨j, rfl, rfl, hj, Dec.walkBit_toLeaf hl hc hj⟩)
      | false => exact .inr (.inr ⟨j, rfl, rfl, hj, Dec.walkBit_toInternal hl hc hj⟩)

/-! ### Whole paths -/

/-- Bits that lead to an internal node leave the walk there. -/
theorem Dec.walkBits_toInternal {img : Image} {p : List Bool} {i j : NodeIdx} (path : img.Path i p j)
    (internal : img.isLeaf j = false) (d : Dec) (hd : d.cur = i) (h : d.stopped = false) :
    Dec.walkBits img p d = ({ d with cur := j }, []) := by
  induction path generalizing d with
  | here => simp [← hd]
  | @edge i j k bit p hi child rest ih =>
    subst hd
    have hj : img.isLeaf j = false := by
      cases rest with
      | here => exact internal
      | edge hj _ _ => exact hj
    rw [Dec.walkBits_cons _ _ _ _ h, Dec.walkBit_toInternal hi child hj]
    have := ih internal { d with cur := j } rfl h
    rw [this]
    rfl

/-- Bits that lead to a leaf emit its symbol and bring the walk back to the root. -/
theorem Dec.walkBits_toLeaf {img : Image} {p : List Bool} {i j : NodeIdx} (path : img.Path i p j)
    (leaf : img.isLeaf j = true) (moved : p ≠ []) (d : Dec) (hd : d.cur = i) (h : d.stopped = false) :
    Dec.walkBits img p d =
      ({ d with produced := d.produced + 1#32, cur := img.rootIdx }, [(img.nodeLookup j).sym]) := by
  induction path generalizing d with
  | here => exact absurd rfl moved
  | @edge i j k bit p hi child rest ih =>
    subst hd
    rw [Dec.walkBits_cons _ _ _ _ h]
    cases rest with
    | here =>
      rw [Dec.walkBit_toLeaf hi child leaf]
      simp
    | edge hj child' rest' =>
      rw [Dec.walkBit_toInternal hi child hj]
      have := ih leaf (by simp) { d with cur := j } rfl h
      rw [this]
      rfl

/-! ### Decodes -/

/-- One edge to an internal node before a decoding. -/
theorem Image.Decodes.edge {img : Image} {d d' : Dec} {bit : Bool} {rest : List Bool} {j : NodeIdx} {out : List Byte}
    (h : d.stopped = false) (hi : img.isLeaf d.cur = false)
    (child : (img.nodeLookup d.cur).child bit = some j) (hj : img.isLeaf j = false)
    (more : img.Decodes rest { d with cur := j } out d') : img.Decodes (bit :: rest) d out d' := by
  generalize he : ({ d with cur := j } : Dec) = e at more
  cases more with
  | ignored hs =>
    subst he
    exact absurd (hs.symm.trans h) (by decide)
  | spent =>
    subst he
    exact .waits h (.edge hi child (.here j)) hj
  | waits hs path internal =>
    subst he
    exact .waits (d := d) h (.edge hi child path) internal
  | symbol hs moved path leaf more =>
    subst he
    exact .symbol (p := bit :: _) (d := d) h (by simp) (.edge hi child path) leaf more
  | noChild hs path internal missing =>
    subst he
    exact .noChild (p := bit :: _) (d := d) h (.edge hi child path) internal missing
  | leafStart hs leaf =>
    subst he
    exact absurd (leaf.symm.trans hj) (by decide)

/-- The loop decodes. -/
theorem Dec.walkBits_decodes (img : Image) (bits : List Bool) (d : Dec) :
    img.Decodes bits d (Dec.walkBits img bits d).2 (Dec.walkBits img bits d).1 := by
  induction bits generalizing d with
  | nil => exact .spent
  | cons bit bits ih =>
    by_cases hs : d.stopped = true
    · rw [Dec.walkBits_of_stopped _ _ _ hs]
      exact .ignored hs
    · have hs := Bool.eq_false_of_not_eq_true hs
      have raised := Dec.raise_noChild hs
      have stop := Dec.stopped_noChild d
      rw [Dec.walkBits_cons _ _ _ _ hs]
      rcases Dec.walkBit_cases img d bit with ⟨hb, hl | hc⟩ | ⟨j, hi, hc, hj, hb⟩ | ⟨j, hi, hc, hj, hb⟩
      · rw [hb]
        dsimp only
        rw [raised, Dec.walkBits_of_stopped _ _ _ stop]
        exact .leafStart hs hl
      · rw [hb]
        dsimp only
        rw [raised, Dec.walkBits_of_stopped _ _ _ stop]
        cases hl : img.isLeaf d.cur with
        | true => exact .leafStart hs hl
        | false => exact .noChild (p := []) (d := d) hs (.here _) hl hc
      · rw [hb]
        exact .symbol (p := [bit]) hs (by simp) (.edge hi hc (.here j)) hj (ih _)
      · rw [hb]
        exact .edge hs hi hc hj (ih _)

/-- What decodes is what the loop does. -/
theorem Image.Decodes.eq_walkBits {img : Image} {bits : List Bool} {d d' : Dec} {out : List Byte}
    (h : img.Decodes bits d out d') : Dec.walkBits img bits d = (d', out) := by
  induction h with
  | ignored hs => exact Dec.walkBits_of_stopped _ _ _ hs
  | spent => rfl
  | waits hs path internal => exact Dec.walkBits_toInternal path internal _ rfl hs
  | symbol hs moved path leaf _ ih =>
    rw [Dec.walkBits_append, Dec.walkBits_toLeaf path leaf moved _ rfl hs]
    dsimp only
    rw [ih]
    rfl
  | @noChild p rest bit d j hs path internal missing =>
    have hs' : ({ d with cur := j } : Dec).stopped = false := hs
    have stop := Dec.stopped_noChild { d with cur := j }
    rw [Dec.walkBits_append, Dec.walkBits_toInternal path internal _ rfl hs]
    dsimp only
    rw [Dec.walkBits_cons _ _ _ _ hs',
      Dec.walkBit_noChild (d := { d with cur := j }) internal missing, Dec.raise_noChild hs']
    dsimp only
    rw [Dec.walkBits_of_stopped _ _ _ stop]
    rfl
  | @leafStart bit rest d hs leaf =>
    have stop := Dec.stopped_noChild d
    rw [Dec.walkBits_cons _ _ _ _ hs, Dec.walkBit_leaf bit leaf, Dec.raise_noChild hs]
    dsimp only
    rw [Dec.walkBits_of_stopped _ _ _ stop]
    rfl

/-! ### What the loop keeps -/

/-- An induction over the bits a running decoder reads: what each of the three things a bit can do keeps, the loop keeps. -/
theorem Dec.walkBits_keeps (img : Image) {P : Dec → Prop}
    (noChild : ∀ d, P d → d.stopped = false →
      (img.isLeaf d.cur = true ∨ ∃ bit, (img.nodeLookup d.cur).child bit = none) → P { d with fault := decNoChild })
    (symbol : ∀ d bit j, P d → d.stopped = false → img.isLeaf d.cur = false →
      (img.nodeLookup d.cur).child bit = some j → img.isLeaf j = true →
      P { d with produced := d.produced + 1#32, cur := img.rootIdx })
    (move : ∀ d bit j, P d → d.stopped = false → img.isLeaf d.cur = false →
      (img.nodeLookup d.cur).child bit = some j → img.isLeaf j = false → P { d with cur := j })
    (bits : List Bool) (d : Dec) (h : P d) : P (Dec.walkBits img bits d).1 := by
  induction bits generalizing d with
  | nil => exact h
  | cons bit bits ih =>
    by_cases hs : d.stopped = true
    · rwa [Dec.walkBits_of_stopped _ _ _ hs]
    · have hs := Bool.eq_false_of_not_eq_true hs
      rw [Dec.walkBits_cons _ _ _ _ hs]
      apply ih
      rcases Dec.walkBit_cases img d bit with ⟨hb, hl | hc⟩ | ⟨j, hi, hc, hj, hb⟩ | ⟨j, hi, hc, hj, hb⟩
      · rw [hb, Dec.raise_noChild hs]
        exact noChild d h hs (.inl hl)
      · rw [hb, Dec.raise_noChild hs]
        exact noChild d h hs (.inr ⟨bit, hc⟩)
      · rw [hb]
        exact symbol d bit j h hs hi hc hj
      · rw [hb]
        exact move d bit j h hs hi hc hj

/-- A running decoder's count does not wrap (42_bit_stream_decoder.md rule R151). -/
theorem Dec.count_succ {d : Dec} (h : d.produced.toNat ≤ d.total.toNat) (hs : d.stopped = false) :
    (d.produced + 1#32).toNat = d.produced.toNat + 1 ∧ d.produced.toNat + 1 ≤ d.total.toNat := by
  have ne := ((Dec.stopped_eq_false_iff d).1 hs).2
  have lt : d.produced.toNat < d.total.toNat := lt_of_le_of_ne h fun e => ne (BitVec.eq_of_toNat_eq e)
  have := d.total.isLt
  rw [BitVec.toNat_add]
  simp
  omega

/-! ### Totals -/

@[simp] theorem Dec.walkBit_total (img : Image) (d : Dec) (bit : Bool) : (d.walkBit img bit).1.total = d.total := by
  rcases Dec.walkBit_cases img d bit with ⟨h, _⟩ | ⟨j, _, _, _, h⟩ | ⟨j, _, _, _, h⟩ <;> simp [h]

@[simp] theorem Dec.walkBits_total (img : Image) (bits : List Bool) (d : Dec) :
    (Dec.walkBits img bits d).1.total = d.total := by
  induction bits generalizing d with
  | nil => rfl
  | cons bit bits ih =>
    by_cases hs : d.stopped = true
    · simp [hs]
    · simp [Dec.walkBits_cons _ _ _ _ (Bool.eq_false_of_not_eq_true hs), ih]

/-- Each bit emits at most one symbol. -/
theorem Dec.length_walkBits (img : Image) (bits : List Bool) (d : Dec) :
    (Dec.walkBits img bits d).2.length ≤ bits.length := by
  induction bits generalizing d with
  | nil => simp
  | cons bit bits ih =>
    by_cases hs : d.stopped = true
    · simp [hs]
    · rw [Dec.walkBits_cons _ _ _ _ (Bool.eq_false_of_not_eq_true hs)]
      have one : (d.walkBit img bit).2.length ≤ 1 := by
        rcases Dec.walkBit_cases img d bit with ⟨h, _⟩ | ⟨j, _, _, _, h⟩ | ⟨j, _, _, _, h⟩ <;> simp [h]
      have := ih (d.walkBit img bit).1
      simp only [List.length_append, List.length_cons]
      omega

end Sys2Proof.Machine
end

