-- ==== Sys2Proof/Laws/Status.lean ====
section
/-! SUPPORT. The status word field by field (10_state.md rule R32), so that no proof unfolds its concatenation. -/

namespace Sys2Proof.Machine

/-! ### Slices of a concatenation -/

theorem extractLsb'_append_low {a b : Nat} (x : BitVec a) (y : BitVec b) (i n : Nat) (h : i + n ≤ b) :
    (x ++ y).extractLsb' i n = y.extractLsb' i n := by
  ext k hk
  rw [BitVec.getElem_extractLsb', BitVec.getElem_extractLsb', BitVec.getLsbD_append, if_pos (by omega)]

theorem extractLsb'_append_high {a b : Nat} (x : BitVec a) (y : BitVec b) (i n : Nat) (h : b ≤ i) :
    (x ++ y).extractLsb' i n = x.extractLsb' (i - b) n := by
  ext k hk
  rw [BitVec.getElem_extractLsb', BitVec.getElem_extractLsb', BitVec.getLsbD_append, if_neg (by omega)]
  congr 1
  omega

theorem getLsbD_append_low {a b : Nat} (x : BitVec a) (y : BitVec b) (k : Nat) (h : k < b) :
    (x ++ y).getLsbD k = y.getLsbD k := by
  rw [BitVec.getLsbD_append, if_pos h]

theorem getLsbD_append_high {a b : Nat} (x : BitVec a) (y : BitVec b) (k : Nat) (h : b ≤ k) :
    (x ++ y).getLsbD k = x.getLsbD (k - b) := by
  rw [BitVec.getLsbD_append, if_neg (by omega)]

theorem extractLsb'_whole {n : Nat} (x : BitVec n) : x.extractLsb' 0 n = x := by
  ext k hk
  rw [BitVec.getElem_extractLsb', Nat.zero_add, BitVec.getLsbD_eq_getElem]

/-! ### The fields of STATUS -/

theorem statusWord_encFault (s : State) : s.statusWord.extractLsb' 0 2 = s.enc.fault := by
  unfold State.statusWord
  rw [extractLsb'_append_low _ _ _ _ (by decide)]
  exact extractLsb'_whole _

theorem statusWord_decFault (s : State) : s.statusWord.extractLsb' 2 2 = s.dec.fault := by
  unfold State.statusWord
  rw [extractLsb'_append_high _ _ _ _ (by decide), extractLsb'_append_low _ _ _ _ (by decide)]
  exact extractLsb'_whole _

theorem statusWord_cmdErr (s : State) : s.statusWord.getLsbD 4 = s.cmdErr := by
  unfold State.statusWord
  iterate 2 rw [getLsbD_append_high _ _ _ (by decide)]
  rw [getLsbD_append_low _ _ _ (by decide)]
  cases s.cmdErr <;> rfl

theorem statusWord_decDone (s : State) : s.statusWord.getLsbD 5 = s.decDone := by
  unfold State.statusWord
  iterate 3 rw [getLsbD_append_high _ _ _ (by decide)]
  rw [getLsbD_append_low _ _ _ (by decide)]
  cases s.decDone <;> rfl

theorem statusWord_rootValid (s : State) : s.statusWord.getLsbD 6 = s.img.rootLookup.valid := by
  unfold State.statusWord
  iterate 4 rw [getLsbD_append_high _ _ _ (by decide)]
  rw [getLsbD_append_low _ _ _ (by decide)]
  cases s.img.rootLookup.valid <;> rfl

theorem statusWord_reserved7 (s : State) : s.statusWord.getLsbD 7 = false := by
  unfold State.statusWord
  iterate 5 rw [getLsbD_append_high _ _ _ (by decide)]
  rw [getLsbD_append_low _ _ _ (by decide)]
  rfl

theorem statusWord_encNbits (s : State) : s.statusWord.extractLsb' 8 3 = s.enc.nbits := by
  unfold State.statusWord
  iterate 6 rw [extractLsb'_append_high _ _ _ _ (by decide)]
  rw [extractLsb'_append_low _ _ _ _ (by decide)]
  exact extractLsb'_whole _

theorem statusWord_reserved11 (s : State) : s.statusWord.extractLsb' 11 5 = 0#5 := by
  unfold State.statusWord
  iterate 7 rw [extractLsb'_append_high _ _ _ _ (by decide)]
  rw [extractLsb'_append_low _ _ _ _ (by decide)]
  rfl

theorem statusWord_decCur (s : State) : s.statusWord.extractLsb' 16 9 = s.dec.cur := by
  unfold State.statusWord
  iterate 8 rw [extractLsb'_append_high _ _ _ _ (by decide)]
  rw [extractLsb'_append_low _ _ _ _ (by decide)]
  exact extractLsb'_whole _

theorem statusWord_reserved25 (s : State) : s.statusWord.extractLsb' 25 7 = 0#7 := by
  unfold State.statusWord
  iterate 9 rw [extractLsb'_append_high _ _ _ _ (by decide)]
  rw [extractLsb'_append_low _ _ _ _ (by decide)]
  rfl

theorem statusWord_decProduced (s : State) : s.statusWord.extractLsb' 32 32 = s.dec.produced := by
  unfold State.statusWord
  iterate 10 rw [extractLsb'_append_high _ _ _ _ (by decide)]
  rw [extractLsb'_append_low _ _ _ _ (by decide)]
  exact extractLsb'_whole _

theorem statusWord_decTotal (s : State) : s.statusWord.extractLsb' 64 32 = s.dec.total := by
  unfold State.statusWord
  iterate 11 rw [extractLsb'_append_high _ _ _ _ (by decide)]
  rw [extractLsb'_append_low _ _ _ _ (by decide)]
  exact extractLsb'_whole _

theorem statusWord_encAcc (s : State) : s.statusWord.extractLsb' 96 8 = s.enc.acc := by
  unfold State.statusWord
  iterate 12 rw [extractLsb'_append_high _ _ _ _ (by decide)]
  rw [extractLsb'_append_low _ _ _ _ (by decide)]
  exact extractLsb'_whole _

theorem statusWord_reserved104 (s : State) : s.statusWord.extractLsb' 104 160 = 0#160 := by
  unfold State.statusWord
  iterate 13 rw [extractLsb'_append_high _ _ _ _ (by decide)]
  rfl

end Sys2Proof.Machine
end

