-- ==== Sys2Proof/Laws/Entries.lean ====
section
/-! SUPPORT. The entries a builder writes are read back field by field (30_encoding.md rules R76 to R78). -/

namespace Sys2Proof.Machine

theorem leaf_mkLeaf (s : Byte) : (nodeFields (mkLeaf s)).leaf = true := by
  show (mkLeaf s).getLsbD 20 = _
  unfold mkLeaf
  iterate 2 rw [getLsbD_append_high _ _ _ (by decide)]
  rfl

theorem sym_mkLeaf (s : Byte) : (nodeFields (mkLeaf s)).sym = s := by
  show (mkLeaf s).extractLsb' 0 8 = _
  unfold mkLeaf
  rw [extractLsb'_append_low _ _ _ _ (by decide)]
  exact extractLsb'_whole _

theorem reserved_mkLeaf (s : Byte) : (mkLeaf s).extractLsb' 8 12 = 0#12 := by
  unfold mkLeaf
  rw [extractLsb'_append_high _ _ _ _ (by decide), extractLsb'_append_low _ _ _ _ (by decide)]
  rfl

theorem mkLeaf_ne_zero (s : Byte) : mkLeaf s ≠ 0 := by
  intro h
  have := leaf_mkLeaf s
  rw [h] at this
  revert this
  decide

theorem leaf_mkInternal (l r : Option NodeIdx) : (nodeFields (mkInternal l r)).leaf = false := by
  show (mkInternal l r).getLsbD 20 = _
  unfold mkInternal
  iterate 4 rw [getLsbD_append_high _ _ _ (by decide)]
  rfl

theorem lv_mkInternal (l r : Option NodeIdx) : (nodeFields (mkInternal l r)).lv = l.isSome := by
  show (mkInternal l r).getLsbD 19 = _
  unfold mkInternal
  iterate 3 rw [getLsbD_append_high _ _ _ (by decide)]
  rw [getLsbD_append_low _ _ _ (by decide)]
  cases l <;> simp

theorem left_mkInternal (l r : Option NodeIdx) : (nodeFields (mkInternal l r)).left = l.getD 0#9 := by
  show (mkInternal l r).extractLsb' 10 9 = _
  unfold mkInternal
  iterate 2 rw [extractLsb'_append_high _ _ _ _ (by decide)]
  rw [extractLsb'_append_low _ _ _ _ (by decide)]
  exact extractLsb'_whole _

theorem rv_mkInternal (l r : Option NodeIdx) : (nodeFields (mkInternal l r)).rv = r.isSome := by
  show (mkInternal l r).getLsbD 9 = _
  unfold mkInternal
  rw [getLsbD_append_high _ _ _ (by decide), getLsbD_append_low _ _ _ (by decide)]
  cases r <;> simp

theorem right_mkInternal (l r : Option NodeIdx) : (nodeFields (mkInternal l r)).right = r.getD 0#9 := by
  show (mkInternal l r).extractLsb' 0 9 = _
  unfold mkInternal
  rw [extractLsb'_append_low _ _ _ _ (by decide)]
  exact extractLsb'_whole _

/-- The children written are the children found. -/
theorem child_mkInternal (l r : Option NodeIdx) (bit : Bool) :
    (nodeFields (mkInternal l r)).child bit = if bit then r else l := by
  unfold NodeFields.child
  rw [lv_mkInternal, left_mkInternal, rv_mkInternal, right_mkInternal]
  cases bit <;> cases l <;> cases r <;> rfl

theorem mkInternal_ne_zero (l r : Option NodeIdx) (h : l.isSome = true) : mkInternal l r ≠ 0 := by
  intro zero
  have := lv_mkInternal l r
  rw [zero, h] at this
  revert this
  decide

theorem rootFields_mkRoot (i : NodeIdx) : rootFields (mkRoot i) = { valid := true, idx := i } := by
  unfold rootFields mkRoot
  rw [getLsbD_append_high _ _ _ (by decide), extractLsb'_append_low _ _ _ _ (by decide), extractLsb'_whole]
  rfl

/-- A code of at most 255 bits is read back, and nothing lies beyond it (30_encoding.md rule R76). -/
theorem codeFields_mkCode (p : List Bool) (h : p.length ≤ 255) :
    (codeFields (mkCode p)).len.toNat = p.length ∧ (codeFields (mkCode p)).string = p ∧
      ∀ k, k + p.length < 255 → (codeFields (mkCode p)).bits.getLsbD k = false := by
  have len : (codeFields (mkCode p)).len = BitVec.ofNat 8 p.length := by
    show (mkCode p).extractLsb' 255 8 = _
    unfold mkCode
    rw [extractLsb'_append_high _ _ _ _ (by decide)]
    exact extractLsb'_whole _
  have lenNat : (codeFields (mkCode p)).len.toNat = p.length := by
    rw [len, BitVec.toNat_ofNat]
    exact Nat.mod_eq_of_lt (by omega)
  have bits : (codeFields (mkCode p)).bits = (BitVec.ofBoolListBE p).setWidth 255 <<< (255 - p.length) := by
    show (mkCode p).extractLsb' 0 255 = _
    unfold mkCode
    rw [extractLsb'_append_low _ _ _ _ (by decide)]
    exact extractLsb'_whole _
  refine ⟨lenNat, ?_, fun k hk => ?_⟩
  · unfold CodeFields.string
    rw [lenNat]
    apply List.ext_getElem
    · simp
    · intro i h1 h2
      simp only [List.getElem_map, List.getElem_range]
      rw [bits, BitVec.getLsbD_shiftLeft, BitVec.getLsbD_setWidth, BitVec.getLsbD_ofBoolListBE]
      have a : Config.CODE_MAXLEN - 1 - i < 255 := by simp; omega
      have b : ¬ Config.CODE_MAXLEN - 1 - i < 255 - p.length := by simp; omega
      have c : Config.CODE_MAXLEN - 1 - i - (255 - p.length) < 255 := by omega
      have d : Config.CODE_MAXLEN - 1 - i - (255 - p.length) < p.length := by omega
      simp only [a, b, c, d, decide_true, decide_false, Bool.not_false, Bool.true_and]
      have e : p.length - 1 - (Config.CODE_MAXLEN - 1 - i - (255 - p.length)) = i := by simp; omega
      rw [e, List.getD_eq_getElem _ _ h2]
  · rw [bits, BitVec.getLsbD_shiftLeft]
    have : k < 255 - p.length := by omega
    simp [this]

theorem mkCode_ne_zero (p : List Bool) (h : p.length ≤ 255) (hp : p ≠ []) : mkCode p ≠ 0 := by
  intro zero
  have len := (codeFields_mkCode p h).1
  rw [zero] at len
  have : p.length = 0 := by
    rw [← len]
    simp [codeFields]
  exact hp (List.length_eq_zero_iff.1 this)

end Sys2Proof.Machine
end

