-- ==== Sys2Proof/Laws/Exec.lean ====
section
/-! SUPPORT. Everything a command and a step can do, said once. -/

namespace Sys2Proof.Machine

/-! ### One lemma per command: its next state -/

@[simp] theorem exec_encInit (s : State) : exec .encInit s = .next { s with enc := Enc.fresh } := rfl

theorem exec_encPut (b : Byte) (s : State) :
    exec (.encPut b) s =
      if s.enc.fault ≠ 0#2 then .next s
      else if (s.img.codeLookup b).len = 0#8 then .next { s with enc := { s.enc with fault := encNoCode } }
      else .next (s.encAppend (s.img.codeOf b)) := by
  show execEncPut b s = _
  unfold execEncPut Image.codeOf
  by_cases h : s.enc.fault = 0#2
  · simp [h, Enc.raise]
  · simp [h]

theorem exec_encFlush (s : State) :
    exec .encFlush s =
      if s.enc.fault ≠ 0#2 then .next s
      else .next { s with
        enc := { s.enc with acc := 0#8, nbits := 0#3 }
        encOut := s.encOut ++ if s.enc.nbits ≠ 0#3 then [s.enc.flushByte] else [] } := rfl

@[simp] theorem exec_decInit (n : Count) (s : State) :
    exec (.decInit n) s = .next { s with dec := Dec.start s.img.rootLookup n } := rfl

@[simp] theorem exec_decPut (b : Byte) (s : State) : exec (.decPut b) s = .next (s.decWalk (byteBits b)) := rfl

theorem exec_decEnd (s : State) :
    exec .decEnd s =
      if s.dec.fault = 0#2 ∧ s.dec.produced ≠ s.dec.total then
        .next { s with dec := { s.dec with fault := decTruncated } }
      else .next s := by
  show execDecEnd s = _
  unfold execDecEnd
  by_cases h : s.dec.fault = 0#2 ∧ s.dec.produced ≠ s.dec.total
  · simp [h, Dec.raise]
  · simp [h]

@[simp] theorem exec_romCode (b : Byte) (s : State) :
    exec (.romCode b) s = .next (s.emitRsp 0x8#4 ((s.img.codeEntry b).setWidth 264)) := rfl

@[simp] theorem exec_romNode (i : NodeIdx) (s : State) :
    exec (.romNode i) s = .next (s.emitRsp 0x9#4 ((s.img.nodeEntry i).setWidth 264)) := rfl

@[simp] theorem exec_romRoot (s : State) :
    exec .romRoot s = .next (s.emitRsp 0xA#4 (s.img.root.setWidth 264)) := rfl

@[simp] theorem exec_stat (s : State) : exec .stat s = .next (s.emitRsp 0xC#4 s.statusWord) := rfl

/-- The registers after DEC_INIT (42_bit_stream_decoder.md rule R141). -/
theorem Dec.start_eq (r : RootFields) (n : Count) :
    Dec.start r n =
      { total := n
        produced := 0#32
        cur := if r.valid then r.idx else 0#9
        fault := if r.valid = false ∧ n ≠ 0#32 then decNoTree else 0#2 } := by
  unfold Dec.start
  split <;> simp [Dec.raise, Dec.fresh]

/-! ### One lemma per unit: everything its commands can do -/

/-- What a command can change: the two units' registers and the three histories, which only grow. -/
theorem exec_changes (i : Instr) (s : State) :
    ∃ e d bs ss rs, exec i s = .next
      { s with enc := e, dec := d, encOut := s.encOut ++ bs, decOut := s.decOut ++ ss, rsp := s.rsp ++ rs } := by
  cases i with
  | encInit => exact ⟨Enc.fresh, s.dec, [], [], [], by simp⟩
  | encPut b =>
    rw [exec_encPut]
    split
    · exact ⟨s.enc, s.dec, [], [], [], by simp⟩
    · split
      · exact ⟨{ s.enc with fault := encNoCode }, s.dec, [], [], [], by simp⟩
      · exact ⟨(Enc.pushBits (s.img.codeOf b) s.enc).1, s.dec, (Enc.pushBits (s.img.codeOf b) s.enc).2, [], [],
          by simp [State.encAppend, State.emitEnc]⟩
  | encFlush =>
    rw [exec_encFlush]
    split
    · exact ⟨s.enc, s.dec, [], [], [], by simp⟩
    · exact ⟨{ s.enc with acc := 0#8, nbits := 0#3 }, s.dec, if s.enc.nbits ≠ 0#3 then [s.enc.flushByte] else [],
        [], [], by simp⟩
  | decInit n => exact ⟨s.enc, Dec.start s.img.rootLookup n, [], [], [], by simp⟩
  | decPut b =>
    exact ⟨s.enc, (Dec.walkBits s.img (byteBits b) s.dec).1, [], (Dec.walkBits s.img (byteBits b) s.dec).2, [],
      by simp [State.decWalk, State.emitDec]⟩
  | decEnd =>
    rw [exec_decEnd]
    split
    · exact ⟨s.enc, { s.dec with fault := decTruncated }, [], [], [], by simp⟩
    · exact ⟨s.enc, s.dec, [], [], [], by simp⟩
  | romCode b => exact ⟨s.enc, s.dec, [], [], [⟨0x8#4, (s.img.codeEntry b).setWidth 264⟩], by simp [State.emitRsp]⟩
  | romNode i => exact ⟨s.enc, s.dec, [], [], [⟨0x9#4, (s.img.nodeEntry i).setWidth 264⟩], by simp [State.emitRsp]⟩
  | romRoot => exact ⟨s.enc, s.dec, [], [], [⟨0xA#4, s.img.root.setWidth 264⟩], by simp [State.emitRsp]⟩
  | stat => exact ⟨s.enc, s.dec, [], [], [⟨0xC#4, s.statusWord⟩], by simp [State.emitRsp]⟩

/-- No command changes the image, CMD_ERR or the waiting words. -/
theorem exec_keeps {i : Instr} {s t : State} (h : exec i s = .next t) :
    t.img = s.img ∧ t.cmdErr = s.cmdErr ∧ t.cmdQueue = s.cmdQueue := by
  obtain ⟨e, d, bs, ss, rs, hx⟩ := exec_changes i s
  rw [hx] at h
  cases h
  exact ⟨rfl, rfl, rfl⟩

/-- A command reads neither CMD_ERR, unless it is STAT, nor the waiting words. -/
theorem exec_blind (i : Instr) (s : State) (q : List CmdWord) (c : Bool) (hi : i ≠ .stat ∨ c = s.cmdErr) {t : State}
    (h : exec i s = .next t) :
    exec i { s with cmdQueue := q, cmdErr := c } = .next { t with cmdQueue := q, cmdErr := c } := by
  cases i with
  | encPut b =>
    rw [exec_encPut] at h ⊢
    dsimp only
    split at h
    · cases h; simp_all
    · split at h
      · cases h; simp_all
      · cases h; simp_all [State.encAppend, State.emitEnc]
  | encFlush =>
    rw [exec_encFlush] at h ⊢
    dsimp only
    split at h <;> cases h <;> simp_all
  | decEnd =>
    rw [exec_decEnd] at h ⊢
    dsimp only
    split at h <;> cases h <;> simp_all
  | stat =>
    have hc : c = s.cmdErr := by simpa using hi
    subst hc
    cases h
    rfl
  | _ => cases h; rfl

/-! ### Steps -/

/-- Everything a step can do: wait, execute the oldest word's command, or mark the oldest word as illegal. -/
theorem step_cases {s t : State} (h : step s = .next t) :
    (s.cmdQueue = [] ∧ t = s) ∨
    (∃ w ws i, s.cmdQueue = w :: ws ∧ decode w = .ok i ∧ exec i { s with cmdQueue := ws } = .next t) ∨
    (∃ w ws r, s.cmdQueue = w :: ws ∧ decode w = .error r ∧ t = { s with cmdQueue := ws, cmdErr := true }) := by
  unfold step State.fetch at h
  cases hq : s.cmdQueue with
  | nil =>
    rw [hq] at h
    cases h
    exact .inl ⟨rfl, rfl⟩
  | cons w ws =>
    rw [hq] at h
    dsimp only at h
    cases hd : decode w with
    | ok i =>
      rw [hd] at h
      exact .inr (.inl ⟨w, ws, i, rfl, hd, h⟩)
    | error r =>
      rw [hd] at h
      cases h
      exact .inr (.inr ⟨w, ws, r, rfl, hd, rfl⟩)

/-- A step always goes on. -/
theorem step_completes (s : State) : ∃ t, step s = .next t := by
  unfold step
  cases s.fetch with
  | none => exact ⟨s, rfl⟩
  | some ws =>
    dsimp only
    cases decode ws.1 with
    | ok i =>
      obtain ⟨e, d, bs, ss, rs, hx⟩ := exec_changes i ws.2
      exact ⟨_, hx⟩
    | error r => exact ⟨_, rfl⟩

theorem step_idle {s : State} (h : s.cmdQueue = []) : step s = .next s := by
  simp [step, State.fetch, h]

theorem step_command {s : State} {w : CmdWord} {ws : List CmdWord} {i : Instr} (hq : s.cmdQueue = w :: ws)
    (hd : decode w = .ok i) : step s = exec i { s with cmdQueue := ws } := by
  simp [step, State.fetch, hq, hd]

theorem step_illegal {s : State} {w : CmdWord} {ws : List CmdWord} {r : IllegalWord} (hq : s.cmdQueue = w :: ws)
    (hd : decode w = .error r) : step s = .next { s with cmdQueue := ws, cmdErr := true } := by
  simp [step, State.fetch, hq, hd, State.illegalWord]

/-- An invariant that does not read CMD_ERR or the waiting words is kept by every step if every command keeps it. -/
theorem step_keeps_of_exec {P : State → Prop} (blind : ∀ s q c, P s → P { s with cmdQueue := q, cmdErr := c })
    (keeps : ∀ i s t, P s → exec i s = .next t → P t) {s t : State} (hs : P s) (h : step s = .next t) : P t := by
  rcases step_cases h with ⟨-, rfl⟩ | ⟨w, ws, i, -, -, hx⟩ | ⟨w, ws, r, -, -, rfl⟩
  · exact hs
  · exact keeps i _ t (blind s ws s.cmdErr hs) hx
  · exact blind s ws true hs

end Sys2Proof.Machine
end

