-- ==== Sys2Proof/Laws/FreqModel.lean ====
section
/-! SUPPORT. The list of counts of a frequency model (44_rom_image_construction.md rule R171) as a function from symbols to counts:
its one canonical form, what `addCount` does to it, and that canonical lists with the same counts are equal. -/

namespace Sys2Proof.Machine

/-- The count of a symbol in a list of counts; 0 if it is not there. -/
def countOf (x : Byte) : List (Byte × Nat) → Nat
  | [] => 0
  | (s, n) :: cs => if s = x then n else countOf x cs

/-- Symbols strictly ascending from `lo` on, every count at least 1. -/
def CanonicalCounts : Nat → List (Byte × Nat) → Prop
  | _, [] => True
  | lo, (s, n) :: cs => lo ≤ s.toNat ∧ 1 ≤ n ∧ CanonicalCounts (s.toNat + 1) cs

theorem CanonicalCounts.mono {lo lo' : Nat} {cs : List (Byte × Nat)} (h : CanonicalCounts lo cs) (hlo : lo' ≤ lo) :
    CanonicalCounts lo' cs := by
  cases cs with
  | nil => trivial
  | cons c cs => exact ⟨Nat.le_trans hlo h.1, h.2⟩

theorem countOf_below {lo : Nat} {cs : List (Byte × Nat)} (h : CanonicalCounts lo cs) {x : Byte} (hx : x.toNat < lo) :
    countOf x cs = 0 := by
  induction cs generalizing lo with
  | nil => rfl
  | cons c cs ih =>
    have apart : c.1 ≠ x := fun e => by have := h.1; rw [e] at this; omega
    simp only [countOf, if_neg apart]
    exact ih h.2.2 (by have := h.1; omega)

theorem canonical_addCount {lo : Nat} {cs : List (Byte × Nat)} (h : CanonicalCounts lo cs) (s : Byte) (n : Nat)
    (hs : lo ≤ s.toNat) : CanonicalCounts lo (addCount s n cs) := by
  induction cs generalizing lo with
  | nil =>
    simp only [addCount]
    split
    · trivial
    · exact ⟨hs, by omega, trivial⟩
  | cons c cs ih =>
    obtain ⟨t, k⟩ := c
    obtain ⟨ht, hk, hcs⟩ := h
    simp only [addCount]
    split
    · split
      · exact ⟨ht, hk, hcs⟩
      · exact ⟨hs, by omega, by omega, hk, hcs⟩
    · split
      · exact ⟨ht, by omega, hcs⟩
      · rename_i above apart
        have : s.toNat ≠ t.toNat := fun e => apart (BitVec.eq_of_toNat_eq e)
        exact ⟨ht, hk, ih hcs (by omega)⟩

/-- Counting `n` more occurrences of `s` adds `n` to the count of `s` and changes no other count. -/
theorem countOf_addCount {lo : Nat} {cs : List (Byte × Nat)} (h : CanonicalCounts lo cs) (s : Byte) (n : Nat) (x : Byte) :
    countOf x (addCount s n cs) = countOf x cs + if s = x then n else 0 := by
  induction cs generalizing lo with
  | nil =>
    simp only [addCount]
    split
    · simp [countOf]
      omega
    · simp [countOf]
  | cons c cs ih =>
    obtain ⟨t, k⟩ := c
    obtain ⟨ht, hk, hcs⟩ := h
    simp only [addCount]
    split
    · rename_i below
      by_cases hx : s = x
      · subst hx
        have apart : t ≠ s := fun e => by rw [e] at below; omega
        have zero : countOf s cs = 0 := countOf_below hcs (by omega)
        split
        · simp [countOf, apart, zero]
          omega
        · simp [countOf, apart, zero]
      · split <;> simp [countOf, hx]
    · split
      · rename_i e
        subst e
        by_cases hx : s = x <;> simp [countOf, hx]
      · rename_i above apart
        by_cases hx : t = x
        · subst hx
          simp [countOf, apart]
        · simp [countOf, hx, ih hcs]

/-- The counts of a list of (symbol, count) pairs, taken one after another. -/
theorem countOf_foldl (pairs cs : List (Byte × Nat)) (h : CanonicalCounts 0 cs) :
    CanonicalCounts 0 (pairs.foldl (fun a c => addCount c.1 c.2 a) cs) ∧
      ∀ x, countOf x (pairs.foldl (fun a c => addCount c.1 c.2 a) cs) =
        countOf x cs + ((pairs.filter fun c => c.1 == x).map (·.2)).sum := by
  induction pairs generalizing cs with
  | nil => exact ⟨h, fun x => by simp⟩
  | cons c pairs ih =>
    obtain ⟨canonical, counts⟩ := ih _ (canonical_addCount h c.1 c.2 (Nat.zero_le _))
    refine ⟨canonical, fun x => ?_⟩
    rw [List.foldl_cons, counts x, countOf_addCount h]
    by_cases hx : c.1 = x
    · simp [hx, Nat.add_assoc]
    · simp [hx]

/-- In a canonical list a pair is listed exactly when it says the count and the count is not 0. -/
theorem mem_counts_iff {lo : Nat} {cs : List (Byte × Nat)} (h : CanonicalCounts lo cs) (x : Byte) (n : Nat) :
    (x, n) ∈ cs ↔ n = countOf x cs ∧ 1 ≤ n := by
  induction cs generalizing lo with
  | nil =>
    simp only [List.not_mem_nil, countOf, false_iff]
    omega
  | cons c cs ih =>
    obtain ⟨t, k⟩ := c
    obtain ⟨ht, hk, hcs⟩ := h
    rw [List.mem_cons, ih hcs]
    by_cases hx : t = x
    · subst hx
      have zero : countOf t cs = 0 := countOf_below hcs (by omega)
      simp only [Prod.mk.injEq, true_and, countOf, if_true, zero]
      constructor
      · rintro (e | ⟨e, one⟩) <;> omega
      · exact fun e => .inl e.1
    · simp [countOf, hx, Ne.symm hx]

/-- Canonical lists with the same counts are equal. -/
theorem eq_of_countOf {lo : Nat} {cs ds : List (Byte × Nat)} (h : CanonicalCounts lo cs) (h' : CanonicalCounts lo ds)
    (eq : ∀ x, countOf x cs = countOf x ds) : cs = ds := by
  induction cs generalizing lo ds with
  | nil =>
    cases ds with
    | nil => rfl
    | cons d ds =>
      have := eq d.1
      simp only [countOf, if_true] at this
      have := h'.2.1
      omega
  | cons c cs ih =>
    obtain ⟨s, n⟩ := c
    cases ds with
    | nil =>
      have := eq s
      simp only [countOf, if_true] at this
      have := h.2.1
      omega
    | cons d ds =>
      obtain ⟨t, k⟩ := d
      obtain ⟨hs, hn, hcs⟩ := h
      obtain ⟨ht, hk, hds⟩ := h'
      have st : s = t := by
        apply BitVec.eq_of_toNat_eq
        rcases Nat.lt_trichotomy s.toNat t.toNat with lt | same | gt
        · have e := eq s
          rw [countOf_below (lo := t.toNat) (cs := (t, k) :: ds) ⟨Nat.le_refl _, hk, hds⟩ lt] at e
          simp only [countOf, if_true] at e
          omega
        · exact same
        · have e := eq t
          rw [countOf_below (lo := s.toNat) (cs := (s, n) :: cs) ⟨Nat.le_refl _, hn, hcs⟩ gt] at e
          simp only [countOf, if_true] at e
          omega
      subst st
      have nk : n = k := by simpa [countOf] using eq s
      subst nk
      congr 1
      refine ih hcs hds fun x => ?_
      by_cases hx : s = x
      · subst hx
        rw [countOf_below hcs (by omega), countOf_below hds (by omega)]
      · simpa [countOf, hx] using eq x

/-- The pairs of a canonical list with a given symbol say its count. -/
theorem sum_filter_counts {lo : Nat} {cs : List (Byte × Nat)} (h : CanonicalCounts lo cs) (x : Byte) :
    ((cs.filter fun c => c.1 == x).map (·.2)).sum = countOf x cs := by
  induction cs generalizing lo with
  | nil => rfl
  | cons c cs ih =>
    obtain ⟨t, k⟩ := c
    obtain ⟨ht, hk, hcs⟩ := h
    by_cases hx : t = x
    · subst hx
      have zero : countOf t cs = 0 := countOf_below hcs (by omega)
      simp [countOf, ih hcs, zero]
    · simp [countOf, hx, ih hcs]

theorem sum_addCount (s : Byte) (n : Nat) (cs : List (Byte × Nat)) :
    ((addCount s n cs).map (·.2)).sum = (cs.map (·.2)).sum + n := by
  induction cs with
  | nil =>
    simp only [addCount]
    split <;> simp
    omega
  | cons c cs ih =>
    obtain ⟨t, k⟩ := c
    simp only [addCount]
    split
    · split
      · omega
      · simp
        omega
    · split
      · simp
        omega
      · simp only [List.map_cons, List.sum_cons, ih]
        omega

/-- The counted model's list is canonical, and its counts are the numbers of occurrences. -/
theorem count_counts (bytes : List Byte) :
    CanonicalCounts 0 (FreqModel.count bytes).counts ∧
      ∀ x, countOf x (FreqModel.count bytes).counts = bytes.count x := by
  have general : ∀ (bytes : List Byte) (cs : List (Byte × Nat)), CanonicalCounts 0 cs →
      CanonicalCounts 0 (bytes.foldl (fun a b => addCount b 1 a) cs) ∧
        ∀ x, countOf x (bytes.foldl (fun a b => addCount b 1 a) cs) = countOf x cs + bytes.count x := by
    intro bytes
    induction bytes with
    | nil => exact fun cs h => ⟨h, fun x => by simp⟩
    | cons b bytes ih =>
      intro cs h
      obtain ⟨canonical, counts⟩ := ih _ (canonical_addCount h b 1 (Nat.zero_le _))
      refine ⟨canonical, fun x => ?_⟩
      rw [List.foldl_cons, counts x, countOf_addCount h, List.count_cons]
      by_cases hx : b = x
      · simp [hx]
        omega
      · simp [hx]
  obtain ⟨canonical, counts⟩ := general bytes [] trivial
  exact ⟨canonical, fun x => by
    have := counts x
    rwa [countOf, Nat.zero_add] at this⟩

theorem sum_counts_foldl (bytes : List Byte) (cs : List (Byte × Nat)) :
    ((bytes.foldl (fun a b => addCount b 1 a) cs).map (·.2)).sum = (cs.map (·.2)).sum + bytes.length := by
  induction bytes generalizing cs with
  | nil => simp
  | cons b bytes ih =>
    rw [List.foldl_cons, ih, sum_addCount, List.length_cons]
    omega

end Sys2Proof.Machine
end

