-- ==== Sys2Proof/Laws/Memory.lean ====
section
/-! SUPPORT. The laws of a table (30_encoding.md rule R87): an entry written is read back, every other entry reads as before,
writing keeps the canonical form, and canonical tables that read alike are equal. -/

namespace Sys2Proof.Machine

variable {width : Nat}

/-! ### Reading after writing -/

/-- An index below a table's first one reads zero. -/
theorem Memory.read_below (m : Memory width) (lo n : Nat) (h : Memory.wfFrom n lo m = true) (k : Nat) (hk : k < lo) :
    m.read k = 0 := by
  induction m generalizing lo with
  | nil => rfl
  | cons c m ih =>
    simp only [Memory.wfFrom, Bool.and_eq_true, decide_eq_true_eq] at h
    simp only [Memory.read]
    rw [if_neg (by omega)]
    exact ih _ h.2 (by omega)

theorem Memory.read_write_same (m : Memory width) (k : Nat) (v : BitVec width) (lo n : Nat)
    (h : Memory.wfFrom n lo m = true) : (m.write k v).read k = v := by
  induction m generalizing lo with
  | nil =>
    simp only [Memory.write]
    split <;> simp_all [Memory.read]
  | cons c m ih =>
    obtain ⟨a, u⟩ := c
    simp only [Memory.wfFrom, Bool.and_eq_true, decide_eq_true_eq] at h
    simp only [Memory.write]
    split
    · split
      · rename_i hk hv
        simp only [Memory.read]
        rw [if_neg (by omega), Memory.read_below m _ n h.2 k (by omega), hv]
      · simp [Memory.read]
    · split
      · rename_i hk
        subst hk
        split
        · rename_i hv
          rw [Memory.read_below m _ n h.2 k (by omega), hv]
        · simp [Memory.read]
      · simp only [Memory.read]
        rw [if_neg (by omega), ih _ h.2]

theorem Memory.read_write_other (m : Memory width) (k j : Nat) (v : BitVec width) (h : j ≠ k) :
    (m.write k v).read j = m.read j := by
  induction m with
  | nil =>
    simp only [Memory.write]
    split
    · rfl
    · simp [Memory.read, Ne.symm h]
  | cons c m ih =>
    obtain ⟨a, u⟩ := c
    simp only [Memory.write]
    split
    · split
      · rfl
      · simp [Memory.read, Ne.symm h]
    · split
      · rename_i hk
        subst hk
        split <;> simp [Memory.read, Ne.symm h]
      · simp only [Memory.read, ih]

/-! ### The canonical form -/

theorem Memory.wfFrom_mono (m : Memory width) {n lo lo' : Nat} (hlo : lo' ≤ lo) (h : Memory.wfFrom n lo m = true) :
    Memory.wfFrom n lo' m = true := by
  cases m with
  | nil => rfl
  | cons c m =>
    simp only [Memory.wfFrom, Bool.and_eq_true, decide_eq_true_eq] at h ⊢
    exact ⟨⟨⟨by omega, h.1.1.2⟩, h.1.2⟩, h.2⟩

theorem Memory.wfFrom_head {m : Memory width} {n lo a : Nat} {u : BitVec width}
    (h : Memory.wfFrom n lo ((a, u) :: m) = true) : Memory.wfFrom n a ((a, u) :: m) = true := by
  simp only [Memory.wfFrom, Bool.and_eq_true, decide_eq_true_eq] at h ⊢
  exact ⟨⟨⟨Nat.le_refl a, h.1.1.2⟩, h.1.2⟩, h.2⟩

theorem Memory.wfFrom_write (m : Memory width) {n lo k : Nat} (v : BitVec width) (hlo : lo ≤ k) (hk : k < n)
    (h : Memory.wfFrom n lo m = true) : Memory.wfFrom n lo (m.write k v) = true := by
  induction m generalizing lo with
  | nil =>
    simp only [Memory.write]
    split <;> simp_all [Memory.wfFrom]
  | cons c m ih =>
    obtain ⟨a, u⟩ := c
    simp only [Memory.wfFrom, Bool.and_eq_true, decide_eq_true_eq] at h
    simp only [Memory.write]
    split
    · split
      · simp only [Memory.wfFrom, Bool.and_eq_true, decide_eq_true_eq]
        exact h
      · simp only [Memory.wfFrom, Bool.and_eq_true, decide_eq_true_eq]
        exact ⟨⟨⟨hlo, hk⟩, ‹_›⟩, ⟨⟨by omega, h.1.1.2⟩, h.1.2⟩, h.2⟩
    · split
      · rename_i hka
        subst hka
        split
        · exact Memory.wfFrom_mono m (by omega) h.2
        · simp only [Memory.wfFrom, Bool.and_eq_true, decide_eq_true_eq]
          exact ⟨⟨⟨hlo, hk⟩, ‹_›⟩, h.2⟩
      · simp only [Memory.wfFrom, Bool.and_eq_true, decide_eq_true_eq]
        exact ⟨h.1, ih (by omega) h.2⟩

/-- The empty table is canonical. -/
@[simp] theorem Memory.wf_nil (n : Nat) : Memory.wf n ([] : Memory width) = true := rfl

/-- Writing, the one operation that makes a table, keeps its canonical form. -/
theorem Memory.wf_write (m : Memory width) {n k : Nat} (v : BitVec width) (hk : k < n) (h : Memory.wf n m = true) :
    Memory.wf n (m.write k v) = true := Memory.wfFrom_write m v (Nat.zero_le k) hk h

/-- An entry written is read back. -/
theorem Memory.read_write (m : Memory width) {n : Nat} (k j : Nat) (v : BitVec width) (h : Memory.wf n m = true) :
    (m.write k v).read j = if j = k then v else m.read j := by
  split
  · subst j
    exact Memory.read_write_same m k v 0 n h
  · exact Memory.read_write_other m k j v ‹_›

/-- An index past the last entry reads zero. -/
theorem Memory.read_past (m : Memory width) {n lo : Nat} (h : Memory.wfFrom n lo m = true) (k : Nat) (hk : n ≤ k) :
    m.read k = 0 := by
  induction m generalizing lo with
  | nil => rfl
  | cons c m ih =>
    simp only [Memory.wfFrom, Bool.and_eq_true, decide_eq_true_eq] at h
    simp only [Memory.read]
    rw [if_neg (by omega)]
    exact ih h.2

theorem Memory.eq_of_read_from (m m' : Memory width) {n lo : Nat} (h : Memory.wfFrom n lo m = true)
    (h' : Memory.wfFrom n lo m' = true) (eq : ∀ k, m.read k = m'.read k) : m = m' := by
  induction m generalizing m' lo with
  | nil =>
    cases m' with
    | nil => rfl
    | cons c' m' =>
      obtain ⟨b, w⟩ := c'
      simp only [Memory.wfFrom, Bool.and_eq_true, decide_eq_true_eq] at h'
      have := eq b
      simp only [Memory.read, if_true] at this
      exact absurd this.symm h'.1.2
  | cons c m ih =>
    obtain ⟨a, u⟩ := c
    have hc := h
    simp only [Memory.wfFrom, Bool.and_eq_true, decide_eq_true_eq] at h
    cases m' with
    | nil =>
      have := eq a
      simp only [Memory.read, if_true] at this
      exact absurd this h.1.2
    | cons c' m' =>
      obtain ⟨b, w⟩ := c'
      have hc' := h'
      simp only [Memory.wfFrom, Bool.and_eq_true, decide_eq_true_eq] at h'
      have ab : a = b := by
        rcases Nat.lt_trichotomy a b with hab | hab | hab
        · have := eq a
          rw [Memory.read_below ((b, w) :: m') b n (Memory.wfFrom_head hc') a hab] at this
          simp only [Memory.read, if_true] at this
          exact absurd this h.1.2
        · exact hab
        · have := eq b
          rw [Memory.read_below ((a, u) :: m) a n (Memory.wfFrom_head hc) b hab] at this
          simp only [Memory.read, if_true] at this
          exact absurd this.symm h'.1.2
      subst ab
      have uw : u = w := by simpa [Memory.read] using eq a
      subst uw
      congr 1
      refine ih m' h.2 h'.2 fun k => ?_
      by_cases hk : k = a
      · subst hk
        rw [Memory.read_below m _ n h.2 k (by omega), Memory.read_below m' _ n h'.2 k (by omega)]
      · simpa [Memory.read, Ne.symm hk] using eq k

/-- Canonical tables whose entries read alike are equal. -/
theorem Memory.eq_of_read (m m' : Memory width) {n : Nat} (h : Memory.wf n m = true) (h' : Memory.wf n m' = true)
    (eq : ∀ k, k < n → m.read k = m'.read k) : m = m' := by
  refine Memory.eq_of_read_from m m' h h' fun k => ?_
  by_cases hk : k < n
  · exact eq k hk
  · rw [Memory.read_past m h k (by omega), Memory.read_past m' h' k (by omega)]

/-- Canonical images whose entries read alike are equal. -/
theorem Image.eq_of_entries {a b : Image} (ha : a.canonical = true) (hb : b.canonical = true)
    (code : ∀ s, a.codeEntry s = b.codeEntry s) (node : ∀ i, a.nodeEntry i = b.nodeEntry i) (root : a.root = b.root) :
    a = b := by
  simp only [Image.canonical, Bool.and_eq_true] at ha hb
  obtain ⟨ac, an, ar⟩ := a
  obtain ⟨bc, bn, br⟩ := b
  have c : ac = bc := Memory.eq_of_read _ _ ha.1 hb.1 fun k hk => by
    have := code (BitVec.ofNat 8 k)
    simp only [Image.codeEntry, BitVec.toNat_ofNat] at this
    rwa [Nat.mod_eq_of_lt (by simpa using hk)] at this
  have d : an = bn := Memory.eq_of_read _ _ ha.2 hb.2 fun k hk => by
    have := node (BitVec.ofNat 9 k)
    simp only [Image.nodeEntry, BitVec.toNat_ofNat] at this
    rwa [Nat.mod_eq_of_lt (by simpa using hk)] at this
  cases c
  cases d
  cases root
  rfl

/-- The memory at reset is canonical. -/
@[simp] theorem reset_canonical : State.reset.img.canonical = true := rfl

end Sys2Proof.Machine
end

