-- ==== Sys2Proof/Laws/ImageBuild.lean ====
section
/-! SUPPORT. What the Tree Builder and the Code Generator make, as a tree of the tables' entries (44_rom_image_construction.md
rules R174 to R178): the merging keeps a forest that uses each index once, and the traversal writes each leaf's path. -/

namespace Sys2Proof.Machine

/-- A binary tree whose nodes say where in NODE they stand. -/
inductive BuiltTree where
  | leaf (i : Nat) (s : Byte)
  | node (i : Nat) (l r : BuiltTree)

namespace BuiltTree

/-- Where the root stands. -/
def idx : BuiltTree → Nat
  | .leaf i _ => i
  | .node i _ _ => i

/-- Where the nodes stand. -/
def indices : BuiltTree → List Nat
  | .leaf i _ => [i]
  | .node i l r => i :: (l.indices ++ r.indices)

/-- The leaves' symbols. -/
def symbols : BuiltTree → List Byte
  | .leaf _ s => [s]
  | .node _ l r => l.symbols ++ r.symbols

/-- The longest path. -/
def height : BuiltTree → Nat
  | .leaf _ _ => 0
  | .node _ l r => max l.height r.height + 1

/-- NODE holds the tree. -/
def Rep (node : Memory 21) : BuiltTree → Prop
  | .leaf i s => node.read i = mkLeaf s
  | .node i l r =>
    node.read i = mkInternal (some (BitVec.ofNat 9 l.idx)) (some (BitVec.ofNat 9 r.idx)) ∧ l.Rep node ∧ r.Rep node

/-- The subtree a bit string leads to. -/
def at? : BuiltTree → List Bool → Option BuiltTree
  | t, [] => some t
  | .leaf _ _, _ :: _ => none
  | .node _ l r, b :: p => if b then r.at? p else l.at? p

/-- The path of a symbol. -/
def pathOf (s : Byte) : BuiltTree → Option (List Bool)
  | .leaf _ t => if t = s then some [] else none
  | .node _ l r =>
    match r.pathOf s with
    | some p => some (true :: p)
    | none => (l.pathOf s).map (false :: ·)

theorem idx_mem_indices (t : BuiltTree) : t.idx ∈ t.indices := by
  cases t <;> simp [idx, indices]

theorem length_symbols_pos (t : BuiltTree) : t.height < t.symbols.length := by
  induction t with
  | leaf => simp [height, symbols]
  | node i l r hl hr =>
    simp only [height, symbols, List.length_append]
    omega

/-- A table that reads alike where the tree stands holds the tree too. -/
theorem Rep.congr {node node' : Memory 21} {t : BuiltTree} (h : t.Rep node)
    (same : ∀ i ∈ t.indices, node'.read i = node.read i) : t.Rep node' := by
  induction t with
  | leaf i s => exact (same i (by simp [indices])).trans h
  | node i l r hl hr =>
    obtain ⟨h0, h1, h2⟩ := h
    exact ⟨(same i (by simp [indices])).trans h0, hl h1 fun j hj => same j (by simp [indices, hj]),
      hr h2 fun j hj => same j (by simp [indices, hj])⟩

theorem at?_rep {node : Memory 21} {t u : BuiltTree} {p : List Bool} (h : t.Rep node) (hu : t.at? p = some u) :
    u.Rep node ∧ ∀ i ∈ u.indices, i ∈ t.indices := by
  induction p generalizing t with
  | nil =>
    cases t <;> cases hu <;> exact ⟨h, fun _ hi => hi⟩
  | cons b p ih =>
    cases t with
    | leaf => cases hu
    | node i l r =>
      cases b with
      | false =>
        obtain ⟨h1, h2⟩ := ih h.2.1 hu
        exact ⟨h1, fun j hj => by simp [indices, h2 j hj]⟩
      | true =>
        obtain ⟨h1, h2⟩ := ih h.2.2 hu
        exact ⟨h1, fun j hj => by simp [indices, h2 j hj]⟩

theorem at?_idx_mem {t u : BuiltTree} {p : List Bool} (hu : t.at? p = some u) : u.idx ∈ t.indices := by
  induction p generalizing t with
  | nil =>
    cases t <;> cases hu <;> exact idx_mem_indices _
  | cons b p ih =>
    cases t with
    | leaf => cases hu
    | node i l r => cases b <;> simp [indices, ih hu]

/-- Where every index is used once, a node has one path. -/
theorem at?_inj {t u v : BuiltTree} {p q : List Bool} (once : t.indices.Nodup) (hu : t.at? p = some u)
    (hv : t.at? q = some v) (same : u.idx = v.idx) : p = q := by
  induction p generalizing t q with
  | nil =>
    cases q with
    | nil => rfl
    | cons b q =>
      exfalso
      cases t with
      | leaf => cases hv
      | node i l r =>
        cases hu
        rw [indices, List.nodup_cons] at once
        apply once.1
        have : i = v.idx := same
        rw [this]
        cases b
        · simp [at?_idx_mem (t := l) hv]
        · simp [at?_idx_mem (t := r) hv]
  | cons b p ih =>
    cases t with
    | leaf => cases hu
    | node i l r =>
      rw [indices, List.nodup_cons, List.nodup_append] at once
      obtain ⟨top, ol, or, apart⟩ := once
      cases q with
      | nil =>
        exfalso
        cases hv
        apply top
        have : u.idx = i := same
        rw [← this]
        cases b
        · simp [at?_idx_mem (t := l) hu]
        · simp [at?_idx_mem (t := r) hu]
      | cons c q =>
        cases b <;> cases c
        · rw [ih ol hu hv]
        · exact absurd same (apart _ (at?_idx_mem hu) _ (at?_idx_mem hv))
        · exact absurd same.symm (apart _ (at?_idx_mem hv) _ (at?_idx_mem hu))
        · rw [ih or hu hv]

/-- A symbol's path leads to a leaf that holds it. -/
theorem at?_pathOf {t : BuiltTree} {s : Byte} {p : List Bool} (h : t.pathOf s = some p) :
    ∃ i, t.at? p = some (.leaf i s) := by
  induction t generalizing p with
  | leaf i u =>
    simp only [pathOf] at h
    split at h
    · cases h
      subst u
      exact ⟨i, rfl⟩
    · cases h
  | node i l r hl hr =>
    simp only [pathOf] at h
    split at h
    · cases h
      obtain ⟨j, hj⟩ := hr ‹_›
      exact ⟨j, hj⟩
    · cases hp : l.pathOf s with
      | none =>
        rw [hp] at h
        cases h
      | some q =>
        rw [hp] at h
        cases h
        obtain ⟨j, hj⟩ := hl hp
        exact ⟨j, hj⟩

theorem pathOf_isSome_iff {t : BuiltTree} {s : Byte} : (t.pathOf s).isSome = true ↔ s ∈ t.symbols := by
  induction t with
  | leaf i u =>
    simp only [pathOf, symbols, List.mem_singleton]
    split <;> simp_all [eq_comm]
  | node i l r hl hr =>
    simp only [pathOf, symbols, List.mem_append]
    split
    · simp_all
    · simp_all

theorem symbol_mem {t : BuiltTree} {i : Nat} {s : Byte} {p : List Bool} (h : t.at? p = some (.leaf i s)) :
    s ∈ t.symbols := by
  induction p generalizing t with
  | nil =>
    cases t <;> cases h
    simp [symbols]
  | cons b p ih =>
    cases t with
    | leaf => cases h
    | node i l r => cases b <;> simp [symbols, ih h]

/-- Where the leaves hold distinct symbols, a symbol has one path. -/
theorem leaf_inj {t : BuiltTree} {i j : Nat} {s : Byte} {p q : List Bool} (once : t.symbols.Nodup)
    (hp : t.at? p = some (.leaf i s)) (hq : t.at? q = some (.leaf j s)) : p = q ∧ i = j := by
  induction p generalizing t q with
  | nil =>
    cases t with
    | node => cases hp
    | leaf =>
      cases hp
      cases q with
      | nil =>
        cases hq
        exact ⟨rfl, rfl⟩
      | cons => cases hq
  | cons b p ih =>
    cases t with
    | leaf => cases hp
    | node k l r =>
      rw [symbols, List.nodup_append] at once
      obtain ⟨ol, or, apart⟩ := once
      cases q with
      | nil => cases hq
      | cons c q =>
        cases b <;> cases c
        · obtain ⟨e, e'⟩ := ih ol hp hq
          exact ⟨by rw [e], e'⟩
        · exact absurd rfl (apart _ (symbol_mem hp) _ (symbol_mem hq))
        · exact absurd rfl (apart _ (symbol_mem hq) _ (symbol_mem hp))
        · obtain ⟨e, e'⟩ := ih or hp hq
          exact ⟨by rw [e], e'⟩

theorem length_le_height {t u : BuiltTree} {p : List Bool} (h : t.at? p = some u) : p.length ≤ t.height := by
  induction p generalizing t with
  | nil => simp
  | cons b p ih =>
    cases t with
    | leaf => cases h
    | node i l r =>
      cases b
      · have := ih (t := l) h
        simp only [List.length_cons, height]
        omega
      · have := ih (t := r) h
        simp only [List.length_cons, height]
        omega

end BuiltTree

/-! ### The tree in an image -/

theorem nodeLookup_of_read {img : Image} {i : Nat} (h : i < 512) {e : NodeEntry} (he : img.node.read i = e) :
    img.nodeLookup (BitVec.ofNat 9 i) = nodeFields e := by
  unfold Image.nodeLookup Image.nodeEntry
  rw [BitVec.toNat_ofNat, Nat.mod_eq_of_lt h, he]

/-- The root of a held tree, as the lookups see it. -/
theorem BuiltTree.Rep.lookup {img : Image} {t : BuiltTree} (h : t.Rep img.node) (small : ∀ i ∈ t.indices, i < 512) :
    match t with
    | .leaf i s => img.isLeaf (BitVec.ofNat 9 i) = true ∧ (img.nodeLookup (BitVec.ofNat 9 i)).sym = s ∧
        img.nodeEntry (BitVec.ofNat 9 i) = mkLeaf s
    | .node i l r => img.isLeaf (BitVec.ofNat 9 i) = false ∧
        img.nodeEntry (BitVec.ofNat 9 i) =
          mkInternal (some (BitVec.ofNat 9 l.idx)) (some (BitVec.ofNat 9 r.idx)) ∧
        (img.nodeLookup (BitVec.ofNat 9 i)).child false = some (BitVec.ofNat 9 l.idx) ∧
        (img.nodeLookup (BitVec.ofNat 9 i)).child true = some (BitVec.ofNat 9 r.idx) := by
  cases t with
  | leaf i s =>
    have hi : i < 512 := small i (by simp [indices])
    have entry : img.nodeEntry (BitVec.ofNat 9 i) = mkLeaf s := by
      unfold Image.nodeEntry
      rw [BitVec.toNat_ofNat, Nat.mod_eq_of_lt hi]
      exact h
    dsimp only
    unfold Image.isLeaf
    rw [nodeLookup_of_read hi h]
    exact ⟨leaf_mkLeaf s, sym_mkLeaf s, entry⟩
  | node i l r =>
    have hi : i < 512 := small i (by simp [indices])
    have entry : img.nodeEntry (BitVec.ofNat 9 i) =
        mkInternal (some (BitVec.ofNat 9 l.idx)) (some (BitVec.ofNat 9 r.idx)) := by
      unfold Image.nodeEntry
      rw [BitVec.toNat_ofNat, Nat.mod_eq_of_lt hi]
      exact h.1
    dsimp only
    unfold Image.isLeaf
    rw [nodeLookup_of_read hi h.1]
    exact ⟨leaf_mkInternal _ _, entry, child_mkInternal _ _ _, child_mkInternal _ _ _⟩

/-- The paths of the image are the paths of the tree it holds. -/
theorem BuiltTree.Rep.path_iff {img : Image} {t : BuiltTree} (h : t.Rep img.node) (small : ∀ i ∈ t.indices, i < 512)
    (p : List Bool) (k : NodeIdx) :
    img.Path (BitVec.ofNat 9 t.idx) p k ↔ ∃ u, t.at? p = some u ∧ k = BitVec.ofNat 9 u.idx := by
  induction p generalizing t with
  | nil =>
    rw [Image.path_nil_iff]
    constructor
    · rintro rfl
      exact ⟨t, by cases t <;> rfl, rfl⟩
    · rintro ⟨u, hu, rfl⟩
      cases t <;> cases hu <;> rfl
  | cons b p ih =>
    rw [Image.path_cons_iff]
    have look := h.lookup small
    cases t with
    | leaf i s =>
      dsimp only at look
      constructor
      · rintro ⟨internal, _⟩
        unfold Image.isLeaf at look
        rw [idx, look.1] at internal
        cases internal
      · rintro ⟨u, hu, _⟩
        cases hu
    | node i l r =>
      dsimp only at look
      unfold Image.isLeaf at look
      obtain ⟨internal, _, toLeft, toRight⟩ := look
      have hl := ih h.2.1 fun j hj => small j (by simp [indices, hj])
      have hr := ih h.2.2 fun j hj => small j (by simp [indices, hj])
      cases b with
      | false =>
        rw [idx, toLeft]
        constructor
        · rintro ⟨_, j, hj, rest⟩
          cases hj
          exact hl.1 rest
        · intro hu
          exact ⟨internal, _, rfl, hl.2 hu⟩
      | true =>
        rw [idx, toRight]
        constructor
        · rintro ⟨_, j, hj, rest⟩
          cases hj
          exact hr.1 rest
        · intro hu
          exact ⟨internal, _, rfl, hr.2 hu⟩

/-! ### Code Generator -/

/-- The traversal writes each leaf's path, from `p` on, and keeps the canonical form. -/
theorem codesFrom_spec {img : Image} {t : BuiltTree} (h : t.Rep img.node) (small : ∀ i ∈ t.indices, i < 512)
    (fuel : Nat) (deep : t.height < fuel) (p : List Bool) (code : Memory 263) (wf : Memory.wf 256 code = true) :
    Memory.wf 256 (codesFrom img fuel (BitVec.ofNat 9 t.idx) p code) = true ∧
      ∀ s : Byte, (codesFrom img fuel (BitVec.ofNat 9 t.idx) p code).read s.toNat =
        match t.pathOf s with
        | some q => mkCode (p ++ q)
        | none => code.read s.toNat := by
  induction t generalizing fuel p code with
  | leaf i u =>
    obtain ⟨fuel, rfl⟩ : ∃ f, fuel = f + 1 := ⟨fuel - 1, by omega⟩
    have look := h.lookup small
    dsimp only at look
    unfold Image.isLeaf at look
    have here : codesFrom img (fuel + 1) (BitVec.ofNat 9 (BuiltTree.leaf i u).idx) p code =
        code.write u.toNat (mkCode p) := by
      rw [codesFrom]
      simp only [BuiltTree.idx, look.1, look.2.1, if_true]
    rw [here]
    refine ⟨Memory.wf_write code _ u.isLt wf, fun s => ?_⟩
    rw [Memory.read_write code _ _ _ wf]
    simp only [BuiltTree.pathOf]
    by_cases hu : u = s
    · subst hu
      simp
    · have : s.toNat ≠ u.toNat := fun e => hu (BitVec.eq_of_toNat_eq e.symm)
      simp [hu, this]
  | node i l r hl hr =>
    obtain ⟨fuel, rfl⟩ : ∃ f, fuel = f + 1 := ⟨fuel - 1, by omega⟩
    simp only [BuiltTree.height] at deep
    have look := h.lookup small
    dsimp only at look
    unfold Image.isLeaf at look
    obtain ⟨internal, _, toLeft, toRight⟩ := look
    have here : codesFrom img (fuel + 1) (BitVec.ofNat 9 (BuiltTree.node i l r).idx) p code =
        codesFrom img fuel (BitVec.ofNat 9 r.idx) (p ++ [true])
          (codesFrom img fuel (BitVec.ofNat 9 l.idx) (p ++ [false]) code) := by
      rw [codesFrom]
      simp only [BuiltTree.idx, internal, toLeft, toRight, Bool.false_eq_true, if_false]
    obtain ⟨wl, readL⟩ := hl h.2.1 (fun j hj => small j (by simp [BuiltTree.indices, hj])) fuel (by omega) (p ++ [false]) code wf
    obtain ⟨wr, readR⟩ := hr h.2.2 (fun j hj => small j (by simp [BuiltTree.indices, hj])) fuel (by omega) (p ++ [true]) _ wl
    rw [here]
    refine ⟨wr, fun s => ?_⟩
    rw [readR s, readL s]
    simp only [BuiltTree.pathOf]
    cases r.pathOf s with
    | some q => simp
    | none => cases l.pathOf s <;> simp

/-! ### Tree Builder -/

theorem enqueue_split (x : Pending) (q : List Pending) : ∃ q1 q2, q = q1 ++ q2 ∧ enqueue x q = q1 ++ x :: q2 := by
  induction q with
  | nil => exact ⟨[], [], rfl, rfl⟩
  | cons y q ih =>
    simp only [enqueue]
    split
    · exact ⟨[], y :: q, rfl, rfl⟩
    · obtain ⟨q1, q2, h1, h2⟩ := ih
      exact ⟨y :: q1, q2, by rw [h1]; rfl, by rw [h2]; rfl⟩

/-- The trees of a queue with one more tree put in its place. -/
theorem enqueue_trees (w : Nat) (t : BuiltTree) (q : List Pending) (ts : List BuiltTree)
    (h : ts.map BuiltTree.idx = q.map (·.2)) :
    ∃ ts' : List BuiltTree, ts'.map BuiltTree.idx = (enqueue (w, t.idx) q).map (·.2) ∧ ts'.Perm (t :: ts) := by
  obtain ⟨q1, q2, h1, h2⟩ := enqueue_split (w, t.idx) q
  rw [h1, List.map_append] at h
  obtain ⟨ts1, ts2, rfl, e1, e2⟩ := List.map_eq_append_iff.1 h
  exact ⟨ts1 ++ t :: ts2, by simp [h2, e1, e2], List.perm_middle⟩

/-- A table of which a forest uses the indices below `next`, each once. -/
structure Forest (node : Memory 21) (next : Nat) (ts : List BuiltTree) (ss : List Byte) : Prop where
  holds : ∀ t ∈ ts, t.Rep node
  indices : (ts.flatMap BuiltTree.indices).Perm (List.range next)
  symbols : (ts.flatMap BuiltTree.symbols).Perm ss
  unused : ∀ k, next ≤ k → node.read k = 0
  wf : Memory.wf 512 node = true

theorem Forest.reorder {node : Memory 21} {next : Nat} {ts ts' : List BuiltTree} {ss : List Byte}
    (h : Forest node next ts ss) (perm : ts'.Perm ts) : Forest node next ts' ss :=
  { holds := fun t ht => h.holds t (perm.mem_iff.1 ht)
    indices := (perm.flatMap_right _).trans h.indices
    symbols := (perm.flatMap_right _).trans h.symbols
    unused := h.unused
    wf := h.wf }

/-- Merging two trees of a forest under the next index. -/
theorem Forest.merge {node : Memory 21} {next : Nat} {a b : BuiltTree} {ts : List BuiltTree} {ss : List Byte}
    (h : Forest node next (a :: b :: ts) ss) (room : next < 512) :
    Forest (node.write next (mkInternal (some (BitVec.ofNat 9 a.idx)) (some (BitVec.ofNat 9 b.idx)))) (next + 1)
      (.node next a b :: ts) ss := by
  have below : ∀ t ∈ a :: b :: ts, ∀ i ∈ t.indices, i < next := fun t ht i hi =>
    List.mem_range.1 (h.indices.mem_iff.1 (List.mem_flatMap.2 ⟨t, ht, hi⟩))
  have keep : ∀ t ∈ a :: b :: ts,
      t.Rep (node.write next (mkInternal (some (BitVec.ofNat 9 a.idx)) (some (BitVec.ofNat 9 b.idx)))) := fun t ht =>
    (h.holds t ht).congr fun i hi => Memory.read_write_other _ _ _ _ (by have := below t ht i hi; omega)
  refine ⟨fun t ht => ?_, ?_, ?_, fun k hk => ?_, Memory.wf_write _ _ room h.wf⟩
  · rcases List.mem_cons.1 ht with rfl | ht
    · refine ⟨?_, keep a (by simp), keep b (by simp)⟩
      rw [Memory.read_write _ _ _ _ h.wf, if_pos rfl]
    · exact keep t (by simp [ht])
  · have := h.indices
    simp only [List.flatMap_cons] at this
    rw [List.range_succ, List.flatMap_cons, BuiltTree.indices]
    refine List.Perm.trans ?_ (List.perm_append_singleton next (List.range next)).symm
    simpa [List.append_assoc] using this
  · simpa [BuiltTree.symbols, List.append_assoc] using h.symbols
  · rw [Memory.read_write_other _ _ _ _ (by omega)]
    exact h.unused k (by omega)

/-- The merging ends with one tree, rooted at the last index used. -/
theorem mergeAll_spec (fuel : Nat) (q : List Pending) (next : Nat) (node : Memory 21) (ts : List BuiltTree) (ss : List Byte)
    (h : Forest node next ts ss) (order : ts.map BuiltTree.idx = q.map (·.2)) (enough : q.length ≤ fuel + 1)
    (some' : 1 ≤ q.length) (room : next + q.length ≤ 513) :
    ∃ t, Forest (mergeAll fuel q next node).1 (mergeAll fuel q next node).2 [t] ss ∧
      (2 ≤ q.length → t.idx = (mergeAll fuel q next node).2 - 1) ∧ (∀ x, q = [x] → t.idx = x.2) ∧
      (mergeAll fuel q next node).2 = next + q.length - 1 := by
  have single : ∀ (fuel : Nat) (x : Pending) (next : Nat) (node : Memory 21) (t : BuiltTree), Forest node next [t] ss →
      [t].map BuiltTree.idx = [x].map (·.2) →
      ∃ t, Forest (mergeAll fuel [x] next node).1 (mergeAll fuel [x] next node).2 [t] ss ∧
        (2 ≤ [x].length → t.idx = (mergeAll fuel [x] next node).2 - 1) ∧ (∀ y, [x] = [y] → t.idx = y.2) ∧
        (mergeAll fuel [x] next node).2 = next + [x].length - 1 := by
    intro fuel x next node t h order
    have e : mergeAll fuel [x] next node = (node, next) := by cases fuel <;> rfl
    rw [e]
    refine ⟨t, h, fun two => absurd two (by simp), fun y hy => ?_, by simp⟩
    cases hy
    simpa using order
  induction fuel generalizing q next node ts with
  | zero =>
    obtain ⟨x, rfl⟩ := List.length_eq_one_iff.1 (show q.length = 1 by omega)
    obtain ⟨t, rfl⟩ := List.length_eq_one_iff.1 (show ts.length = 1 by simpa using congrArg List.length order)
    exact single 0 x next node t h order
  | succ fuel ih =>
    rcases q with _ | ⟨⟨wa, ia⟩, _ | ⟨⟨wb, ib⟩, q⟩⟩
    · simp at some'
    · obtain ⟨t, rfl⟩ := List.length_eq_one_iff.1 (show ts.length = 1 by simpa using congrArg List.length order)
      exact single (fuel + 1) _ next node t h order
    · rcases ts with _ | ⟨a, _ | ⟨b, ts⟩⟩
      · simp at order
      · simp at order
      simp only [List.map_cons, List.cons.injEq] at order
      obtain ⟨rfl, rfl, order⟩ := order
      simp only [List.length_cons] at enough room
      have merged := h.merge (by omega)
      obtain ⟨ts', order', perm⟩ := enqueue_trees (wa + wb) (.node next a b) q ts order
      have len : (enqueue (wa + wb, next) q).length = q.length + 1 := by
        obtain ⟨q1, q2, h1, h2⟩ := enqueue_split (wa + wb, next) q
        rw [h2, h1]
        simp
        omega
      obtain ⟨t, forest, last, only, count⟩ :=
        ih (enqueue (wa + wb, next) q) (next + 1) _ ts' (merged.reorder perm) order' (by omega) (by omega) (by omega)
      rw [mergeAll]
      refine ⟨t, forest, fun _ => ?_, fun x hx => absurd hx (by simp), ?_⟩
      · by_cases two : 2 ≤ (enqueue (wa + wb, next) q).length
        · exact last two
        · have q0 : q = [] := List.length_eq_zero_iff.1 (by omega)
          subst q0
          rw [only _ rfl, count, len]
          simp
      · rw [count, len]
        simp only [List.length_cons]
        omega

/-- The leaves the builder starts from, `n` being the first index. -/
def leavesFrom : Nat → List (Byte × Nat) → List BuiltTree
  | _, [] => []
  | n, c :: cs => .leaf n c.1 :: leavesFrom (n + 1) cs

theorem leavesFrom_eq (n : Nat) (cs : List (Byte × Nat)) :
    leavesFrom n cs = (cs.zipIdx n).map fun c => BuiltTree.leaf c.2 c.1.1 := by
  induction cs generalizing n with
  | nil => rfl
  | cons c cs ih => rw [leavesFrom, ih, List.zipIdx_cons, List.map_cons]

theorem leavesFrom_indices (n : Nat) (cs : List (Byte × Nat)) :
    (leavesFrom n cs).flatMap BuiltTree.indices = List.range' n cs.length := by
  induction cs generalizing n with
  | nil => rfl
  | cons c cs ih => simp [leavesFrom, BuiltTree.indices, ih, List.range'_succ]

theorem leavesFrom_symbols (n : Nat) (cs : List (Byte × Nat)) :
    (leavesFrom n cs).flatMap BuiltTree.symbols = cs.map (·.1) := by
  induction cs generalizing n with
  | nil => rfl
  | cons c cs ih => simp [leavesFrom, BuiltTree.symbols, ih]

/-- The leaf entries from index `n` on: canonical, and each read back. -/
theorem leafEntries_from (n : Nat) (cs : List (Byte × Nat)) (room : n + cs.length ≤ 512) :
    Memory.wfFrom 512 n ((cs.zipIdx n).map fun c => (c.2, mkLeaf c.1.1)) = true ∧
      (∀ t ∈ leavesFrom n cs, t.Rep ((cs.zipIdx n).map fun c => (c.2, mkLeaf c.1.1))) ∧
      ∀ k, n + cs.length ≤ k → Memory.read ((cs.zipIdx n).map fun c => (c.2, mkLeaf c.1.1)) k = 0 := by
  induction cs generalizing n with
  | nil => exact ⟨rfl, fun t ht => absurd ht (by simp [leavesFrom]), fun _ _ => rfl⟩
  | cons c cs ih =>
    simp only [List.length_cons] at room
    obtain ⟨wf, holds, unused⟩ := ih (n + 1) (by omega)
    simp only [List.zipIdx_cons, List.map_cons]
    refine ⟨?_, fun t ht => ?_, fun k hk => ?_⟩
    · simp only [Memory.wfFrom, Bool.and_eq_true, decide_eq_true_eq]
      exact ⟨⟨⟨Nat.le_refl n, by omega⟩, mkLeaf_ne_zero _⟩, wf⟩
    · rcases List.mem_cons.1 ht with rfl | ht
      · simp [BuiltTree.Rep, Memory.read]
      · refine (holds t ht).congr fun i hi => ?_
        have : i ∈ List.range' (n + 1) cs.length := by
          rw [← leavesFrom_indices]
          exact List.mem_flatMap.2 ⟨t, ht, hi⟩
        have := (List.mem_range'_1.1 this).1
        rw [Memory.read, if_neg (by omega)]
    · simp only [List.length_cons] at hk
      rw [Memory.read, if_neg (by omega)]
      exact unused k (by omega)

/-- The queue the builder starts from stands for the leaves, in some order. -/
theorem seedQueue_trees (cs : List (Byte × Nat)) :
    ∃ ts : List BuiltTree, ts.map BuiltTree.idx = (seedQueue cs).map (·.2) ∧ ts.Perm (leavesFrom 0 cs) := by
  have general : ∀ (l : List ((Byte × Nat) × Nat)) (q : List Pending) (ts : List BuiltTree),
      ts.map BuiltTree.idx = q.map (·.2) →
      ∃ ts' : List BuiltTree, ts'.map BuiltTree.idx = (l.foldl (fun q c => enqueue (c.1.2, c.2) q) q).map (·.2) ∧
        ts'.Perm ((l.map fun c => BuiltTree.leaf c.2 c.1.1) ++ ts) := by
    intro l
    induction l with
    | nil => exact fun q ts h => ⟨ts, h, by simp⟩
    | cons c l ih =>
      intro q ts h
      obtain ⟨ts1, h1, p1⟩ := enqueue_trees c.1.2 (.leaf c.2 c.1.1) q ts h
      obtain ⟨ts2, h2, p2⟩ := ih _ ts1 h1
      refine ⟨ts2, h2, p2.trans ((List.Perm.append_left _ p1).trans ?_)⟩
      simp [List.perm_middle]
  obtain ⟨ts, h, p⟩ := general cs.zipIdx [] [] rfl
  refine ⟨ts, h, ?_⟩
  rw [leavesFrom_eq]
  simpa using p

/-- Before the first merge: one leaf per distinct symbol, at the first indices. -/
theorem forest_leaves (cs : List (Byte × Nat)) (room : cs.length ≤ 512) :
    Forest (leafEntries cs) cs.length (leavesFrom 0 cs) (cs.map (·.1)) := by
  obtain ⟨wf, holds, unused⟩ := leafEntries_from 0 cs (by omega)
  exact
    { holds := holds
      indices := by rw [leavesFrom_indices, List.range_eq_range']
      symbols := by rw [leavesFrom_symbols]
      unused := fun k hk => unused k (by omega)
      wf := wf }

/-- With at least two symbols the builder makes one tree, rooted at index 2N - 2 (44_rom_image_construction.md rule R177). -/
theorem buildTree_spec (cs : List (Byte × Nat)) (two : 2 ≤ cs.length) (room : cs.length ≤ 256) :
    ∃ t, Forest (buildTree cs).1 (2 * cs.length - 1) [t] (cs.map (·.1)) ∧
      (buildTree cs).2 = mkRoot (BitVec.ofNat 9 t.idx) := by
  obtain ⟨ts, order, perm⟩ := seedQueue_trees cs
  have len : (seedQueue cs).length = cs.length := by
    have h1 := congrArg List.length order
    have h2 := perm.length_eq
    rw [leavesFrom_eq] at h2
    simp only [List.length_map, List.length_zipIdx] at h1 h2
    omega
  obtain ⟨t, forest, last, -, count⟩ := mergeAll_spec cs.length (seedQueue cs) cs.length (leafEntries cs) ts _
    ((forest_leaves cs (by omega)).reorder perm) order (by omega) (by omega) (by omega)
  have shape : buildTree cs = ((mergeAll cs.length (seedQueue cs) cs.length (leafEntries cs)).1,
      mkRoot (BitVec.ofNat 9 ((mergeAll cs.length (seedQueue cs) cs.length (leafEntries cs)).2 - 1))) := by
    match cs, two with
    | _ :: _ :: _, _ => rfl
  refine ⟨t, ?_, ?_⟩
  · rw [shape, show 2 * cs.length - 1 = cs.length + (seedQueue cs).length - 1 by omega, ← count]
    exact forest
  · rw [shape, last (by omega)]

end Sys2Proof.Machine
end

