-- ==== Sys2Proof/Laws/PerInstr.lean ====
section
/-! SUPPORT. A statement about every command, proved constructor by constructor: its word is legal, its opcode has a format and
that format accepts its argument (30_encoding.md rules R73 to R75). -/

namespace Sys2Proof.Laws.Legal

/-- The command's word is covered by a row of the table, and ARG fits the format of OP. -/
def Statement (i : Instr) : Prop :=
  legal (encode i) = true ∧ ∃ f, formatOf i.op = some f ∧ f.accepts i.arg = true

theorem of_format {i : Instr} {f : Format} (hf : formatOf i.op = some f) (ha : f.accepts i.arg = true) : Statement i :=
  ⟨(legal_iff _).2 ⟨f, by rw [op_encode]; exact hf, by rw [arg_encode]; exact ha⟩, f, hf, ha⟩

theorem encInit : Statement .encInit := of_format (f := .Z) rfl rfl
theorem encPut (b : Byte) : Statement (.encPut b) := of_format (f := .B) rfl (accepts_byte b)
theorem encFlush : Statement .encFlush := of_format (f := .Z) rfl rfl
theorem decInit (n : Count) : Statement (.decInit n) := of_format (f := .N) rfl (decide_eq_true n.isLt)
theorem decPut (b : Byte) : Statement (.decPut b) := of_format (f := .B) rfl (accepts_byte b)
theorem decEnd : Statement .decEnd := of_format (f := .Z) rfl rfl
theorem romCode (b : Byte) : Statement (.romCode b) := of_format (f := .B) rfl (accepts_byte b)
theorem romNode (i : NodeIdx) : Statement (.romNode i) := of_format (f := .X) rfl (accepts_index i)
theorem romRoot : Statement .romRoot := of_format (f := .Z) rfl rfl
theorem stat : Statement .stat := of_format (f := .Z) rfl rfl

end Sys2Proof.Laws.Legal
end

