-- ==== Sys2Proof/Laws/Ports.lean ====
section
/-! SUPPORT. What an output channel, a run of steps and a clock edge do, each said once (30_encoding.md rule R71,
70_reset_and_hazards.md rules R220 and R233). -/

namespace Sys2Proof.Machine

/-! ### A channel -/

/-- A channel offers nothing but the first element not yet taken. -/
theorem Channel.getElem_of_offer {α : Type} {choice : Bool} {history : List α} {c : Channel} {x : α}
    (h : c.offer choice history = some x) : history[c.taken]? = some x := by
  unfold Channel.offer at h
  split at h
  · exact h
  · cases h

/-- The number of elements taken rises by one exactly at a transfer. -/
theorem Channel.taken_after {α : Type} (offered : Option α) (ready rstN : Bool) (c : Channel) :
    (c.after offered ready rstN).taken = if transfers offered.isSome ready rstN then c.taken + 1 else c.taken := by
  unfold Channel.after
  split <;> rfl

/-- No element is taken that is not in the history. -/
theorem Channel.taken_after_le {α : Type} {choice ready rstN : Bool} {history later : List α} {c : Channel}
    (h : c.taken ≤ history.length) :
    (c.after (c.offer choice history) ready rstN).taken ≤ (history ++ later).length := by
  rw [Channel.taken_after, List.length_append]
  split
  · rename_i moved
    simp only [transfers, Bool.and_eq_true] at moved
    obtain ⟨x, hx⟩ := Option.isSome_iff_exists.1 moved.1.1
    obtain ⟨lt, -⟩ := List.getElem?_eq_some_iff.1 (Channel.getElem_of_offer hx)
    omega
  · omega

/-- An offer that is not taken is offered at the next edge, with the same data, whatever the block chooses then. -/
theorem Channel.offer_held {α : Type} {choice choice' ready rstN : Bool} {history later : List α} {c : Channel}
    (offered : (c.offer choice history).isSome) (notReady : ready = false) :
    (c.after (c.offer choice history) ready rstN).offer choice' (history ++ later) = c.offer choice history := by
  obtain ⟨x, hx⟩ := Option.isSome_iff_exists.1 offered
  have first := Channel.getElem_of_offer hx
  obtain ⟨lt, -⟩ := List.getElem?_eq_some_iff.1 first
  have stays : c.after (some x) ready rstN = { taken := c.taken, held := true } := by
    simp [Channel.after, transfers, notReady]
  rw [hx, stays]
  simp [Channel.offer, List.getElem?_append_left lt, first]

/-! ### A run of steps -/

/-- Every run answers a next state. -/
theorem run_completes (k : Nat) (s : State) : ∃ t, Sys2Proof.core.run k s = .next t := by
  induction k generalizing s with
  | zero => exact ⟨s, rfl⟩
  | succ k ih =>
    obtain ⟨u, hu⟩ := step_completes s
    obtain ⟨t, ht⟩ := ih u
    refine ⟨t, ?_⟩
    simp only [Host.Core.run]
    rw [show Sys2Proof.core.step s = .next u from hu]
    exact ht

/-- A step only appends to the histories, and takes the oldest waiting word out of the line. -/
theorem step_grows {s t : State} (h : step s = .next t) :
    (∃ e d r, t.encOut = s.encOut ++ e ∧ t.decOut = s.decOut ++ d ∧ t.rsp = s.rsp ++ r) ∧
      t.cmdQueue = s.cmdQueue.drop 1 := by
  rcases step_cases h with ⟨hq, rfl⟩ | ⟨w, ws, i, hq, -, hx⟩ | ⟨w, ws, r, hq, -, rfl⟩
  · exact ⟨⟨[], [], [], by simp, by simp, by simp⟩, by simp [hq]⟩
  · obtain ⟨_, _, e, d, r, hc⟩ := exec_changes i { s with cmdQueue := ws }
    rw [hc] at hx
    cases hx
    exact ⟨⟨e, d, r, rfl, rfl, rfl⟩, by simp [hq]⟩
  · exact ⟨⟨[], [], [], by simp, by simp, by simp⟩, by simp [hq]⟩

/-- A run only appends to the histories, and takes the oldest waiting words out of the line, one a step. -/
theorem run_grows {k : Nat} {s t : State} (h : Sys2Proof.core.run k s = .next t) :
    (∃ e d r, t.encOut = s.encOut ++ e ∧ t.decOut = s.decOut ++ d ∧ t.rsp = s.rsp ++ r) ∧
      t.cmdQueue = s.cmdQueue.drop k := by
  induction k generalizing s with
  | zero =>
    cases h
    exact ⟨⟨[], [], [], by simp, by simp, by simp⟩, rfl⟩
  | succ k ih =>
    obtain ⟨u, hu⟩ := step_completes s
    simp only [Host.Core.run] at h
    rw [show Sys2Proof.core.step s = .next u from hu] at h
    obtain ⟨⟨e, d, r, he, hd, hr⟩, hq⟩ := ih h
    obtain ⟨⟨e', d', r', he', hd', hr'⟩, hq'⟩ := step_grows hu
    refine ⟨⟨e' ++ e, d' ++ d, r' ++ r, ?_, ?_, ?_⟩, ?_⟩
    · rw [he, he', List.append_assoc]
    · rw [hd, hd', List.append_assoc]
    · rw [hr, hr', List.append_assoc]
    · rw [hq, hq', List.drop_drop, Nat.add_comm]

/-! ### An edge -/

/-- Whether the host keeps to the sender's rule, as a proposition. -/
theorem Bench.hostHolds_iff (i : PortsIn) (b : Bench) :
    b.hostHolds i = true ↔ ∀ w, b.cmdHeld = some w → i.cmdValid = true ∧ i.cmd = w := by
  unfold Bench.hostHolds
  cases b.cmdHeld with
  | none => simp
  | some w => simp

/-- An edge in reset. -/
theorem Bench.edge_reset {i : PortsIn} {t : Timing} {b : Bench} (h : i.rstN = false) :
    b.edge i t = .next (Bench.resetWith (i.newImage.getD b.state.img)) := by
  simp [Bench.edge, h]

/-- Everything an edge out of reset can do. -/
theorem Bench.edge_cases (i : PortsIn) (t : Timing) (b : Bench) (h : i.rstN = true) :
    (i.newImage.isSome = true ∧ b.edge i t = .refused .imageChangedOutOfReset) ∨
    (i.newImage = none ∧ b.hostHolds i = false ∧ b.edge i t = .refused .commandWithdrawn) ∨
    (i.newImage = none ∧ b.hostHolds i = true ∧
      ∃ s, Sys2Proof.core.run t.work (b.accepted i t) = .next s ∧ b.edge i t = .next (b.moved i t s)) := by
  unfold Bench.edge
  rw [if_pos h]
  cases i.newImage with
  | some img => exact .inl ⟨rfl, rfl⟩
  | none =>
    cases hh : b.hostHolds i with
    | false => exact .inr (.inl ⟨rfl, rfl, rfl⟩)
    | true =>
      obtain ⟨s, hs⟩ := run_completes t.work (b.accepted i t)
      exact .inr (.inr ⟨rfl, rfl, s, hs, by simp [hs]⟩)

end Sys2Proof.Machine
end

