-- ==== Sys2Proof/Laws/Session.lean ====
section
/-! SUPPORT. Running command lists: lists run one after the other, and what a list of ENC_PUT commands does. -/

namespace Sys2Proof.Machine

@[simp] theorem execAll_nil (s : State) : execAll [] s = .next s := rfl

theorem execAll_cons_next {i : Instr} {is : List Instr} {s t : State} (h : exec i s = .next t) :
    execAll (i :: is) s = execAll is t := by
  simp [execAll, h]

theorem execAll_append_next {is js : List Instr} {s t : State} (h : execAll is s = .next t) :
    execAll (is ++ js) s = execAll js t := by
  induction is generalizing s with
  | nil =>
    cases h
    rfl
  | cons i is ih =>
    simp only [List.cons_append, execAll] at h ⊢
    cases he : exec i s with
    | next s' =>
      rw [he] at h
      exact ih h
    | fault r => cases r
    | refused r =>
      rw [he] at h
      cases h

/-- The host's words wait in the order of their acceptance (30_encoding.md rule R71). -/
theorem acceptAll_eq (ws : List CmdWord) (s : State) : s.acceptAll ws = { s with cmdQueue := s.cmdQueue ++ ws } := by
  induction ws generalizing s with
  | nil => simp [State.acceptAll]
  | cons w ws ih =>
    show State.acceptAll (s.accept w) ws = _
    rw [ih]
    simp [State.accept]

@[simp] theorem encAppend_nil (s : State) : s.encAppend [] = s := by
  simp [State.encAppend, State.emitEnc, Enc.pushBits]

theorem encAppend_encAppend (s : State) (v w : List Bool) : (s.encAppend v).encAppend w = s.encAppend (v ++ w) := by
  simp [State.encAppend, State.emitEnc, Enc.pushBits_append, List.append_assoc]

/-- ENC_PUT of a symbol with a code appends the code (41_bit_stream_encoder.md rule R122). -/
theorem exec_encPut_hasCode {s : State} {b : Byte} (h : s.enc.fault = 0#2) (hb : s.img.HasCode b) :
    exec (.encPut b) s = .next (s.encAppend (s.img.codeOf b)) := by
  show execEncPut b s = _
  unfold execEncPut
  rw [if_neg (not_not.2 h), if_neg hb]
  rfl

/-- ENC_PUT commands of symbols that all have codes append the codes one after another. -/
theorem execAll_encPut (ss : List Byte) (s : State) (h : s.enc.fault = 0#2) (codes : ∀ x ∈ ss, s.img.HasCode x) :
    execAll (ss.map .encPut) s = .next (s.encAppend (s.img.codesOf ss)) := by
  induction ss generalizing s with
  | nil => simp [Image.codesOf]
  | cons x xs ih =>
    rw [List.map_cons, execAll_cons_next (exec_encPut_hasCode h (codes x (by simp)))]
    have := ih (s.encAppend (s.img.codeOf x)) (by simpa using h) (fun y hy => codes y (by simp [hy]))
    rw [this, encAppend_img, encAppend_encAppend]
    simp [Image.codesOf]

/-- The rest of a session whose encoder is faulted does nothing (41_bit_stream_encoder.md rule R125). -/
theorem execAll_encPut_faulted (ss : List Byte) (s : State) (h : s.enc.fault ≠ 0#2) :
    execAll (ss.map .encPut ++ [.encFlush]) s = .next s := by
  induction ss with
  | nil =>
    have flush : exec .encFlush s = .next s := if_pos h
    rw [List.map_nil, List.nil_append, execAll_cons_next flush, execAll_nil]
  | cons x xs ih =>
    have put : exec (.encPut x) s = .next s := if_pos h
    rw [List.map_cons, List.cons_append, execAll_cons_next put, ih]

/-- ENC_FLUSH after a session's bits completes their artifact (41_bit_stream_encoder.md rule R124). -/
theorem exec_encFlush_encAppend (s : State) (w : List Bool) (h : s.enc = Enc.fresh) :
    exec .encFlush (s.encAppend w) = .next { s with encOut := s.encOut ++ artifact w } := by
  show execEncFlush _ = _
  unfold execEncFlush
  have hp := pushBits_fresh w
  rw [encAppend_enc, h, hp, if_neg (not_not.2 rfl)]
  dsimp only
  rw [artifact_eq w]
  simp only [State.encAppend, State.emitEnc, h, hp]
  rw [← h]
  congr 1
  by_cases h0 : w.length % 8 = 0
  · simp [h0, h, Enc.fresh]
  · have : ¬ BitVec.ofNat 3 (w.length % 8) = 0#3 := by
      intro hh
      have := congrArg BitVec.toNat hh
      simp at this; omega
    simp only [h0, this, ne_eq, not_false_eq_true, ↓reduceIte]
    rw [artifactByte_partial]
    simp [Enc.flushByte, h, Enc.fresh]

end Sys2Proof.Machine
end

