-- ==== Sys2Proof/Laws/RoundTrip.lean ====
section
/-! SUPPORT. What the round trip rests on (42_bit_stream_decoder.md rule R144): the artifact's bytes give back its bits and padding,
DEC_PUT commands walk their bytes' bits one after another, and under WF the codes of symbols walk to those symbols. -/

namespace Sys2Proof.Machine

/-- The bits of a byte of an artifact are eight bits of its string, zero past the end. -/
theorem byteBits_artifactByte (w : List Bool) (m : Nat) :
    byteBits (artifactByte w m) = (List.range 8).map fun k => w.getD (8 * m + k) false := by
  have h : ∀ k, k < 8 → (artifactByte w m).getLsbD k = w.getD (8 * m + 7 - k) false :=
    getLsbD_artifactByte w m
  simp only [byteBits, List.map_cons, List.map_nil, h 7 (by decide), h 6 (by decide), h 5 (by decide), h 4 (by decide),
    h 3 (by decide), h 2 (by decide), h 1 (by decide), h 0 (by decide)]
  rfl

/-- Reading `n` whole bytes of a string's artifact gives the string's first `8n` bits, zero past the end. -/
theorem flatMap_byteBits_artifactBytes (w : List Bool) (n : Nat) :
    ((List.range n).map (artifactByte w)).flatMap byteBits = (List.range (8 * n)).map fun k => w.getD k false := by
  induction n with
  | zero => rfl
  | succ n ih =>
    rw [List.range_succ, List.map_append, List.flatMap_append, ih, Nat.mul_succ, List.range_add, List.map_append]
    congr 1
    simp [byteBits_artifactByte, Function.comp_def]

/-- Reading an artifact back gives its bit string and then the padding (20_memory.md rule R52). -/
theorem flatMap_byteBits_artifact (w : List Bool) :
    ∃ pad, (artifact w).flatMap byteBits = w ++ List.replicate pad false := by
  refine ⟨8 * ((w.length + 7) / 8) - w.length, ?_⟩
  rw [artifact, flatMap_byteBits_artifactBytes]
  apply List.ext_getElem
  · simp
    omega
  · intro k h1 h2
    simp only [List.getElem_map, List.getElem_range]
    by_cases hk : k < w.length
    · rw [List.getD_eq_getElem _ _ hk, List.getElem_append_left hk]
    · rw [List.getD_eq_default _ _ (by omega), List.getElem_append_right (by omega), List.getElem_replicate]

/-- Reading only the first bytes of an artifact, all of them within its bit string, gives the string's first bits. -/
theorem flatMap_byteBits_take_artifact (w : List Bool) (n : Nat) (h : 8 * n ≤ w.length) :
    ((artifact w).take n).flatMap byteBits = w.take (8 * n) := by
  rw [artifact, ← List.map_take, List.take_range, Nat.min_eq_left (by omega), flatMap_byteBits_artifactBytes]
  apply List.ext_getElem
  · simp
    omega
  · intro k h1 h2
    have hk : k < w.length := by simp at h1; omega
    simp only [List.getElem_map, List.getElem_range, List.getElem_take]
    rw [List.getD_eq_getElem _ _ hk]

theorem decWalk_decWalk (s : State) (p q : List Bool) : (s.decWalk p).decWalk q = s.decWalk (p ++ q) := by
  simp [State.decWalk, State.emitDec, Dec.walkBits_append, List.append_assoc]

@[simp] theorem decWalk_nil (s : State) : s.decWalk [] = s := by
  simp [State.decWalk, State.emitDec]

/-- DEC_PUT commands walk the bits of their bytes one after another. -/
theorem execAll_decPut (bs : List Byte) (s : State) :
    execAll (bs.map .decPut) s = .next (s.decWalk (bs.flatMap byteBits)) := by
  induction bs generalizing s with
  | nil => simp
  | cons b bs ih =>
    have h : exec (.decPut b) s = .next (s.decWalk (byteBits b)) := rfl
    rw [List.map_cons, execAll_cons_next h, ih, decWalk_decWalk, List.flatMap_cons]

/-- Under WF the code of a symbol walks from the root to that symbol (42_bit_stream_decoder.md rule R144). -/
theorem walkBits_code {img : Image} (wf : img.WF) {x : Byte} (hx : img.HasCode x) (d : Dec)
    (root : d.cur = img.rootIdx) (h : d.stopped = false) :
    Dec.walkBits img (img.codeOf x) d = ({ d with produced := d.produced + 1#32, cur := img.rootIdx }, [x]) := by
  obtain ⟨i, leaf, hi⟩ := wf.leaf_of_hasCode hx
  rw [Dec.walkBits_toLeaf leaf.2.1 leaf.2.2 (wf.path_ne_nil leaf) d root h, hi]

/-- Under WF a proper beginning of a symbol's code leaves the walk inside the code. -/
theorem walkBits_partOfCode {img : Image} (wf : img.WF) {x : Byte} (hx : img.HasCode x) (d : Dec)
    (root : d.cur = img.rootIdx) (h : d.stopped = false) (n : Nat) (hn : n < (img.codeOf x).length) :
    ∃ j, Dec.walkBits img ((img.codeOf x).take n) d = ({ d with cur := j }, []) := by
  obtain ⟨i, leaf, -⟩ := wf.leaf_of_hasCode hx
  have path := leaf.2.1
  rw [← List.take_append_drop n (img.codeOf x), Image.path_append_iff] at path
  obtain ⟨j, front, back⟩ := path
  have more : (img.codeOf x).drop n ≠ [] := by
    intro hnil
    have := congrArg List.length hnil
    simp at this
    omega
  exact ⟨j, Dec.walkBits_toInternal front (back.internal_of_ne_nil more) d root h⟩

/-- Under WF the codes of symbols walk to those symbols, as long as they are still owed. -/
theorem walkBits_codes {img : Image} (wf : img.WF) (ss : List Byte) (codes : ∀ x ∈ ss, img.HasCode x) (d : Dec)
    (root : d.cur = img.rootIdx) (running : d.fault = 0#2) (owed : d.produced.toNat + ss.length ≤ d.total.toNat) :
    Dec.walkBits img (img.codesOf ss) d =
      ({ d with produced := d.produced + BitVec.ofNat 32 ss.length, cur := img.rootIdx }, ss) := by
  induction ss generalizing d with
  | nil => simp [Image.codesOf, ← root]
  | cons x xs ih =>
    have total : d.total.toNat < 2 ^ 32 := d.total.isLt
    simp only [List.length_cons] at owed
    have h : d.stopped = false := (Dec.stopped_eq_false_iff d).2
      ⟨running, fun h => by rw [h] at owed; omega⟩
    have e : img.codesOf (x :: xs) = img.codeOf x ++ img.codesOf xs := by simp [Image.codesOf]
    rw [e, Dec.walkBits_append, walkBits_code wf (codes x (by simp)) d root h]
    dsimp only
    have step : (d.produced + 1#32).toNat = d.produced.toNat + 1 := by
      rw [BitVec.toNat_add]
      simp
      omega
    rw [ih (fun y hy => codes y (by simp [hy])) { d with produced := d.produced + 1#32, cur := img.rootIdx } rfl running
      (by dsimp only; rw [step]; omega)]
    simp only [List.length_cons, List.singleton_append, Prod.mk.injEq, and_true]
    congr 1
    apply BitVec.eq_of_toNat_eq
    simp only [BitVec.toNat_add, BitVec.toNat_ofNat]
    omega

/-- Under WF a proper beginning of the codes of the symbols owed emits the symbols whose codes are whole in it, and leaves
symbols owed and no fault. -/
theorem walkBits_partOfCodes {img : Image} (wf : img.WF) (ss : List Byte) (codes : ∀ x ∈ ss, img.HasCode x) (d : Dec)
    (root : d.cur = img.rootIdx) (running : d.fault = 0#2) (owed : d.produced.toNat + ss.length = d.total.toNat)
    (n : Nat) (hn : n < (img.codesOf ss).length) :
    ∃ m, m < ss.length ∧ (img.codesOf (ss.take m)).length ≤ n ∧ n < (img.codesOf (ss.take (m + 1))).length ∧
      (Dec.walkBits img ((img.codesOf ss).take n) d).2 = ss.take m ∧
      (Dec.walkBits img ((img.codesOf ss).take n) d).1.fault = 0#2 ∧
      (Dec.walkBits img ((img.codesOf ss).take n) d).1.produced ≠ d.total := by
  induction ss generalizing d n with
  | nil => simp [Image.codesOf] at hn
  | cons x xs ih =>
    have total : d.total.toNat < 2 ^ 32 := d.total.isLt
    simp only [List.length_cons] at owed
    have apart : d.produced ≠ d.total := fun h => by rw [h] at owed; omega
    have h : d.stopped = false := (Dec.stopped_eq_false_iff d).2 ⟨running, apart⟩
    have e : ∀ ys, img.codesOf (x :: ys) = img.codeOf x ++ img.codesOf ys := fun ys => by simp [Image.codesOf]
    rw [e] at hn ⊢
    rw [List.length_append] at hn
    by_cases hx : n < (img.codeOf x).length
    · rw [List.take_append_of_le_length (by omega)]
      obtain ⟨j, hj⟩ := walkBits_partOfCode wf (codes x (by simp)) d root h n hx
      rw [hj]
      exact ⟨0, by simp, by simp [Image.codesOf], by simpa [Image.codesOf] using hx, rfl, running, apart⟩
    · rw [List.take_append, List.take_of_length_le (by omega), Dec.walkBits_append,
        walkBits_code wf (codes x (by simp)) d root h]
      have step : (d.produced + 1#32).toNat = d.produced.toNat + 1 := by
        rw [BitVec.toNat_add]
        simp
        omega
      obtain ⟨m, hm, low, high, out, fault, owes⟩ :=
        ih (fun y hy => codes y (by simp [hy])) { d with produced := d.produced + 1#32, cur := img.rootIdx } rfl running
          (by dsimp only; rw [step]; omega) (n - (img.codeOf x).length) (by omega)
      refine ⟨m + 1, by simpa using hm, ?_, ?_, ?_, fault, owes⟩
      · rw [List.take_succ_cons, e, List.length_append]
        omega
      · rw [List.take_succ_cons, e, List.length_append]
        omega
      · dsimp only
        rw [out]
        rfl

end Sys2Proof.Machine
end

