-- ==== Sys2Proof/Laws/Word.lean ====
section
/-! SUPPORT. The widths of Sys2Proof/Word.lean are the parameters of 00_scope.md rule R7, and those agree with one another. -/

namespace Sys2Proof.Laws

theorem byte_width : Byte = BitVec Config.SYM_W := rfl
theorem nodeIdx_width : NodeIdx = BitVec Config.NODE_IDX_W := rfl
theorem count_width : Count = BitVec Config.COUNT_W := rfl
theorem opcode_width : Opcode = BitVec Config.OP_W := rfl
theorem opcode_is_rsp_tag : Opcode = BitVec Config.RSP_TAG_W := rfl
theorem arg_width : Arg = BitVec Config.ARG_W := rfl
theorem cmdWord_width : CmdWord = BitVec Config.CMD_W := rfl
theorem codeEntry_width : CodeEntry = BitVec Config.CODE_W := rfl
theorem nodeEntry_width : NodeEntry = BitVec Config.NODE_W := rfl
theorem rootEntry_width : RootEntry = BitVec Config.ROOT_W := rfl
theorem rspData_width : RspData = BitVec Config.RSP_DATA_W := rfl

/-- The sizes of rule R7 that follow from others. -/
theorem parameters_agree :
    2 ^ Config.SYM_W = Config.NSYM ∧ 2 ^ Config.NODE_IDX_W = Config.NNODE ∧
    Config.LEN_W + Config.CODE_MAXLEN = Config.CODE_W ∧ Config.OP_W + Config.ARG_W = Config.CMD_W ∧
    Config.CODE_MAXLEN < 2 ^ Config.LEN_W := by decide

end Sys2Proof.Laws
end

