-- ==== Sys2Proof/Tests/Slice0.lean ====
section
/-! SUPPORT. Tests: images, words and one-step vectors taken from 95_test_vectors.md and the worked examples of the rules, the
ill-formed words the decoder refuses, and for every obligation with hypotheses a concrete state and operands that meet
them (named witness_...). No expected value here comes from the model. -/

namespace Sys2Proof.Tests

open Sys2Proof.Machine

/-! ### Images of 95_test_vectors.md section 2 -/

/-- A CODE entry of a code of at most 8 bits: LEN, the code in the top bits of BITS, zeros. -/
def shortCode (len : Nat) (code : Nat) : CodeEntry :=
  BitVec.ofNat 8 len ++ BitVec.ofNat 8 (code * 2 ^ (8 - len)) ++ 0#247

/-- Image A, from ABRACADABRA. -/
def imageA : Image :=
  { code := [(0x41, shortCode 1 0), (0x42, shortCode 3 0b110), (0x43, shortCode 3 0b100), (0x44, shortCode 3 0b101),
      (0x52, shortCode 3 0b111)]
    node := [(0, 0x100041#21), (1, 0x100042#21), (2, 0x100043#21), (3, 0x100044#21), (4, 0x100052#21),
      (5, 0x080A03#21), (6, 0x080604#21), (7, 0x081606#21), (8, 0x080207#21)]
    root := 0x208#10 }

/-- Image B, from aaaa. -/
def imageB : Image :=
  { code := [(0x61, shortCode 1 0)], node := [(0, 0x100061#21), (1, 0x080000#21)], root := 0x201#10 }

/-- Image C, from FF 00 FF. -/
def imageC : Image :=
  { code := [(0x00, shortCode 1 0), (0xFF, shortCode 1 1)]
    node := [(0, 0x100000#21), (1, 0x1000FF#21), (2, 0x080201#21)]
    root := 0x202#10 }

/-- Image X1, ill-formed: the root is a leaf. -/
def imageX1 : Image := { code := [(0x61, shortCode 1 1)], node := [(0, 0x100061#21)], root := 0x200#10 }

/-- Image X1 with every reserved bit of its leaf set. -/
def imageX1' : Image := { imageX1 with node := [(0, 0x1FFF61#21)] }

/-- Two entries of image H: the codes of 0x50 and 0x51, of 17 bits. -/
def imageH' : Image :=
  { code := [(0x50, 17#8 ++ 0b11111111111111110#17 ++ 0#238), (0x51, 17#8 ++ 0b11111111111111111#17 ++ 0#238)]
    node := []
    root := 0x200#10 }

/-- A code of 255 ones. -/
def image255 : Image := { code := [(0x41, BitVec.allOnes 263)], node := [], root := 0#10 }

def stateA : State := State.resetWith imageA

/-- The model's answer is a next state of which `p` holds. -/
def goes (o : Host.Outcome State Fault Refusal) (p : State → Bool) : Bool :=
  match o with
  | .next t => p t
  | _ => false

theorem test_buildImage_A :
    buildImage (FreqModel.count [0x41, 0x42, 0x52, 0x41, 0x43, 0x41, 0x44, 0x41, 0x42, 0x52, 0x41]) = imageA := by decide
theorem test_buildImage_B : buildImage (FreqModel.count [0x61, 0x61, 0x61, 0x61]) = imageB := by decide
theorem test_buildImage_C : buildImage (FreqModel.count [0xFF, 0x00, 0xFF]) = imageC := by decide
theorem test_buildImage_empty : buildImage (FreqModel.count []) = Image.empty := by decide
theorem test_images_canonical :
    imageA.canonical = true ∧ imageB.canonical = true ∧ imageC.canonical = true ∧ imageX1.canonical = true := by decide
/-- 44_rom_image_construction.md rule R172's example. -/
theorem test_serialize_A :
    serialize (FreqModel.count [0x41, 0x42, 0x52, 0x41, 0x43, 0x41, 0x44, 0x41, 0x42, 0x52, 0x41]) =
      { total := 11, distinct := 5, pairs := [(65, 5), (66, 2), (67, 1), (68, 1), (82, 2)] } := by decide

/-! ### Decoding: words written out from the encoding strings of 30_encoding.md rule R75 -/

theorem test_decode_encInit : decode 0b000100000000000000000000000000000000#36 = .ok .encInit := by decide
theorem test_decode_encPut : decode 0b001000000000000000000000000011111111#36 = .ok (.encPut 0xFF#8) := by decide
theorem test_decode_encFlush : decode 0b001100000000000000000000000000000000#36 = .ok .encFlush := by decide
theorem test_decode_decInit : decode 0b010011111111111111111111111111111111#36 = .ok (.decInit 4294967295#32) := by decide
theorem test_decode_decPut : decode 0b010100000000000000000000000001101110#36 = .ok (.decPut 0x6E#8) := by decide
theorem test_decode_decEnd : decode 0b011000000000000000000000000000000000#36 = .ok .decEnd := by decide
theorem test_decode_romCode : decode 0b100000000000000000000000000001000010#36 = .ok (.romCode 0x42#8) := by decide
theorem test_decode_romNode : decode 0b100100000000000000000000000100000000#36 = .ok (.romNode 256#9) := by decide
theorem test_decode_romRoot : decode 0b101000000000000000000000000000000000#36 = .ok .romRoot := by decide
theorem test_decode_stat : decode 0b110000000000000000000000000000000000#36 = .ok .stat := by decide

/-! ### Ill-formed words (30_encoding.md rule R82, vectors 6.3 to 6.7): each check of `legal` refuses one -/

theorem test_illegal_reserved_opcodes :
    [0x000000000#36, 0x700000000#36, 0xB00000000#36, 0xD00000000#36, 0xE00000000#36, 0xF00000000#36].all
      (fun w => !legal w) = true := by decide
theorem test_illegal_formatZ : legal 0x100000001#36 = false ∧ legal 0xC00000001#36 = false ∧ legal 0x680000000#36 = false := by
  decide
theorem test_illegal_formatB : legal 0x2000001FF#36 = false ∧ legal 0x200000141#36 = false ∧ legal 0x2000000FF#36 = true := by
  decide
theorem test_illegal_formatX : legal 0x900000200#36 = false ∧ legal 0x9000001FF#36 = true := by decide
theorem test_legal_formatN : legal 0x4FFFFFFFF#36 = true := by decide
theorem test_decode_names_the_reason :
    decode 0x700000000#36 = .error (.reservedOpcode 0x7#4) ∧
      decode 0x200000141#36 = .error (.mustBeZeroBitSet 0x2#4 0x141#32) := by decide
theorem test_tableWord :
    decodeTableWord 40 0x200000042 = some (.encPut 0x42#8) ∧ decodeTableWord 40 0x1200000042 = none ∧
      decodeTableWord 40 0x700000000 = none := by decide
/-- Vector 6.7: an illegal word only sets CMD_ERR. -/
theorem test_step_illegal :
    goes (step (stateA.withFetchWord 40 0xC00000001)) (fun t => decide (t = { stateA with cmdErr := true })) = true := by
  decide
/-- Vector 6.9: the first instruction after reset is the word placed. -/
theorem test_step_withFetchWord :
    goes (step (stateA.withFetchWord 40 0x2000000FF)) (fun t => decide (t.enc.fault = 1#2 ∧ t.cmdQueue = [])) = true := by
  decide

/-! ### One step of each command -/

/-- The worked example of rule R121. -/
theorem test_encInit :
    goes (exec .encInit { stateA with enc := ⟨0x05#8, 3#3, 1#2⟩ })
      (fun t => decide (t.enc = ⟨0x00#8, 0#3, 0#2⟩ ∧ t.encOut = [])) = true := by decide
/-- Vector 4.1 row 4: the last code bit completes the group. -/
theorem test_encPut_completes :
    goes (exec (.encPut 0x41#8) { stateA with enc := ⟨0x37#8, 7#3, 0#2⟩ })
      (fun t => decide (t.enc = ⟨0x00#8, 0#3, 0#2⟩ ∧ t.encOut = [0x6E#8])) = true := by decide
/-- Vector 4.2 row 2: a code of 17 bits on 4 pending bits. -/
theorem test_encPut_long :
    goes (exec (.encPut 0x51#8) { State.resetWith imageH' with enc := ⟨0x0E#8, 4#3, 0#2⟩ })
      (fun t => decide (t.enc = ⟨0x1F#8, 5#3, 0#2⟩ ∧ t.encOut = [0xEF#8, 0xFF#8])) = true := by decide
/-- Vector 4.1 row 12. -/
theorem test_encFlush_pads :
    goes (exec .encFlush { stateA with enc := ⟨0x6E#8, 7#3, 0#2⟩ })
      (fun t => decide (t.enc = ⟨0x00#8, 0#3, 0#2⟩ ∧ t.encOut = [0xDC#8])) = true := by decide
/-- Vector 4.2 row 6. -/
theorem test_encFlush_empty : goes (exec .encFlush stateA) (fun t => decide (t = stateA)) = true := by decide
/-- Vector 5.1 row 1. -/
theorem test_decInit :
    goes (exec (.decInit 11#32) stateA) (fun t => decide (t.dec = ⟨11#32, 0#32, 8#9, 0#2⟩)) = true := by decide
/-- Vector 5.11: no tree. -/
theorem test_decInit_noTree :
    goes (exec (.decInit 5#32) State.reset) (fun t => decide (t.dec = ⟨5#32, 0#32, 0#9, 3#2⟩)) = true := by decide
/-- Vector 5.1 row 4: the padding bit is not walked. -/
theorem test_decPut_stops :
    goes (exec (.decPut 0xDC#8) { stateA with dec := ⟨11#32, 8#32, 8#9, 0#2⟩ })
      (fun t => decide (t.dec = ⟨11#32, 11#32, 8#9, 0#2⟩ ∧ t.decOut = [0x42#8, 0x52#8, 0x41#8])) = true := by decide
/-- Vector 5.9: the third bit meets no child. -/
theorem test_decPut_noChild :
    goes (exec (.decPut 0x20#8) { State.resetWith imageB with dec := ⟨4#32, 0#32, 1#9, 0#2⟩ })
      (fun t => decide (t.dec = ⟨4#32, 2#32, 1#9, 1#2⟩ ∧ t.decOut = [0x61#8, 0x61#8])) = true := by decide
/-- Vector 5.4. -/
theorem test_decEnd_truncated :
    goes (exec .decEnd { stateA with dec := ⟨11#32, 8#32, 8#9, 0#2⟩ })
      (fun t => decide (t.dec = ⟨11#32, 8#32, 8#9, 2#2⟩)) = true := by decide
/-- Vector 5.9, its end: the first fault stays. -/
theorem test_decEnd_keeps :
    goes (exec .decEnd { State.resetWith imageB with dec := ⟨4#32, 2#32, 1#9, 1#2⟩ })
      (fun t => decide (t.dec.fault = 1#2)) = true := by decide
/-- Vector 3.5. -/
theorem test_romCode :
    goes (exec (.romCode 0x42#8) stateA)
      (fun t => decide (t.rsp = [⟨0x8#4, 0#1 ++ 3#8 ++ 0b110#3 ++ 0#252⟩])) = true := by decide
/-- Vector 3.6: no code, and ENC.fault stays 0. -/
theorem test_romCode_none :
    goes (exec (.romCode 0x5A#8) stateA) (fun t => decide (t.rsp = [⟨0x8#4, 0#264⟩] ∧ t.enc.fault = 0#2)) = true := by decide
/-- Vector 3.2. -/
theorem test_romNode :
    goes (exec (.romNode 8#9) stateA) (fun t => decide (t.rsp = [⟨0x9#4, 0x080207#264⟩])) = true := by decide
/-- Vector 3.4. -/
theorem test_romNode_unused :
    goes (exec (.romNode 511#9) stateA) (fun t => decide (t.rsp = [⟨0x9#4, 0#264⟩])) = true := by decide
/-- Vector 3.1. -/
theorem test_romRoot :
    goes (exec .romRoot stateA) (fun t => decide (t.rsp = [⟨0xA#4, 0x208#264⟩])) = true := by decide
/-- The worked example of 43_status_and_control.md rule R160. -/
theorem test_stat :
    goes (exec .stat { stateA with dec := ⟨11#32, 4#32, 8#9, 0#2⟩ })
      (fun t => decide (t.rsp = [⟨0xC#4, 0#168 ++ 11#32 ++ 4#32 ++ 0x00080040#32⟩])) = true := by decide
/-- Vector 4.6, its STAT. -/
theorem test_stat_fault :
    goes (exec .stat { stateA with enc := ⟨0x06#8, 4#3, 1#2⟩ })
      (fun t => decide (t.rsp = [⟨0xC#4, 0#160 ++ 0x06#8 ++ 0#64 ++ 0x00000461#32⟩] ∧ t.faultO = true)) = true := by decide

/-! ### Textual syntax (30_encoding.md rules R85 and R86) -/

theorem test_assemble_lines :
    assemble "ENC_PUT 'A' ; 0x200000041\n\nDEC_INIT 11\nROM_NODE 0x1FF\nSTAT" =
      some [.encPut 0x41#8, .decInit 11#32, .romNode 511#9, .stat] := by decide
theorem test_assemble_compress :
    assemble "COMPRESS \"aa\"" = some [.encInit, .encPut 0x61#8, .encPut 0x61#8, .encFlush] := by decide
theorem test_assemble_decompress :
    assemble "DECOMPRESS 3 : 0xA0" = some [.decInit 3#32, .decPut 0xA0#8, .decEnd] := by decide
/-- No space is needed beside a string (log entry 13). -/
theorem test_assemble_quotes :
    assemble "COMPRESS\"a\"'b'" = some [.encInit, .encPut 0x61#8, .encPut 0x62#8, .encFlush] ∧
      assemble "ENC_PUT'A'" = none := by decide
/-- LF alone ends a line (log entry 13). -/
theorem test_assemble_lineEnds :
    assemble "STAT\nSTAT" = some [.stat, .stat] ∧ assemble "STAT\r\nSTAT" = none ∧ assemble "STAT ;\r\nSTAT\n" = some [.stat, .stat] ∧
      assemble "STAT\tSTAT" = none := by decide
theorem test_assemble_refuses : assemble "ENC_PUT 256" = none ∧ assemble "ENC_INIT 0" = none ∧ assemble "NOP" = none := by
  decide

/-! ### Well-formed images -/

/-- Image C's paths: the root and its two leaves. -/
theorem paths_C (p : List Bool) (k : NodeIdx) :
    imageC.Path 2#9 p k ↔ (p = [] ∧ k = 2#9) ∨ (p = [false] ∧ k = 0#9) ∨ (p = [true] ∧ k = 1#9) := by
  constructor
  · intro h
    cases h with
    | here => exact .inl ⟨rfl, rfl⟩
    | @edge _ j _ b q _ child rest =>
      cases b with
      | false =>
        have : j = 0#9 := Option.some.inj (child.symm.trans (by decide))
        subst this
        cases rest with
        | here => exact .inr (.inl ⟨rfl, rfl⟩)
        | edge internal _ _ => exact absurd internal (by decide)
      | true =>
        have : j = 1#9 := Option.some.inj (child.symm.trans (by decide))
        subst this
        cases rest with
        | here => exact .inr (.inr ⟨rfl, rfl⟩)
        | edge internal _ _ => exact absurd internal (by decide)
  · rintro (⟨rfl, rfl⟩ | ⟨rfl, rfl⟩ | ⟨rfl, rfl⟩)
    · exact .here _
    · exact .edge (by decide) (by decide) (.here _)
    · exact .edge (by decide) (by decide) (.here _)

theorem leafAt_C (p : List Bool) (k : NodeIdx) :
    imageC.LeafAt p k ↔ (p = [false] ∧ k = 0#9) ∨ (p = [true] ∧ k = 1#9) := by
  have root : imageC.rootIdx = 2#9 := by decide
  unfold Image.LeafAt
  rw [root, paths_C]
  constructor
  · rintro ⟨_, ⟨_, rfl⟩ | h, leaf⟩
    · exact absurd leaf (by decide)
    · exact h
  · rintro (⟨rfl, rfl⟩ | ⟨rfl, rfl⟩)
    · exact ⟨by decide, .inr (.inl ⟨rfl, rfl⟩), by decide⟩
    · exact ⟨by decide, .inr (.inr ⟨rfl, rfl⟩), by decide⟩

theorem string_C : (imageC.codeLookup 0x00#8).string = [false] ∧ (imageC.codeLookup 0xFF#8).string = [true] := by decide

theorem bits_C : (imageC.codeLookup 0x00#8).bits = 0#255 ∧ (imageC.codeLookup 0xFF#8).bits = 1#1 ++ 0#254 := by decide

theorem wf_C : imageC.WF := by
  have root : imageC.rootIdx = 2#9 := by decide
  refine ⟨?_, ?_, ?_, ?_, ?_, ?_⟩
  · intro _ p q i hp hq
    rw [root, paths_C] at hp hq
    rcases hp with ⟨rfl, rfl⟩ | ⟨rfl, rfl⟩ | ⟨rfl, rfl⟩ <;>
      rcases hq with ⟨rfl, h⟩ | ⟨rfl, h⟩ | ⟨rfl, h⟩ <;> first | rfl | exact absurd h (by decide)
  · decide
  · intro _
    left
    intro p i hp internal
    rw [root, paths_C] at hp
    rcases hp with ⟨rfl, rfl⟩ | ⟨rfl, rfl⟩ | ⟨rfl, rfl⟩
    · exact ⟨by decide, by decide⟩
    · exact absurd internal (by decide)
    · exact absurd internal (by decide)
  · intro p q i j hi hj same
    rw [leafAt_C] at hi hj
    rcases hi with ⟨rfl, rfl⟩ | ⟨rfl, rfl⟩ <;> rcases hj with ⟨rfl, rfl⟩ | ⟨rfl, rfl⟩ <;>
      first | rfl | exact absurd same (by decide)
  · intro p i hi
    rw [leafAt_C] at hi
    rcases hi with ⟨rfl, rfl⟩ | ⟨rfl, rfl⟩
    · rw [show (imageC.nodeLookup 0#9).sym = 0x00#8 by decide]
      refine ⟨by decide, string_C.1, fun k _ => ?_⟩
      rw [bits_C.1, BitVec.getLsbD_zero]
    · rw [show (imageC.nodeLookup 1#9).sym = 0xFF#8 by decide]
      refine ⟨by decide, string_C.2, fun k hk => ?_⟩
      have hk : k + 1 < 255 := hk
      rw [bits_C.2, getLsbD_append_low _ _ _ (by omega), BitVec.getLsbD_zero]
  · intro s none
    have h0 : s ≠ 0x00#8 := fun h => none _ _ ((leafAt_C _ _).2 (.inl ⟨rfl, rfl⟩)) (h ▸ by decide)
    have h1 : s ≠ 0xFF#8 := fun h => none _ _ ((leafAt_C _ _).2 (.inr ⟨rfl, rfl⟩)) (h ▸ by decide)
    have n0 : 0x00 ≠ s.toNat := fun h => h0 (BitVec.eq_of_toNat_eq h.symm)
    have n1 : 0xFF ≠ s.toNat := fun h => h1 (BitVec.eq_of_toNat_eq h.symm)
    simp only [Image.codeEntry, imageC, Memory.read, if_neg n0, if_neg n1]

theorem paths_B (p : List Bool) (k : NodeIdx) :
    imageB.Path 1#9 p k ↔ (p = [] ∧ k = 1#9) ∨ (p = [false] ∧ k = 0#9) := by
  constructor
  · intro h
    cases h with
    | here => exact .inl ⟨rfl, rfl⟩
    | @edge _ j _ b q _ child rest =>
      cases b with
      | false =>
        have : j = 0#9 := Option.some.inj (child.symm.trans (by decide))
        subst this
        cases rest with
        | here => exact .inr ⟨rfl, rfl⟩
        | edge internal _ _ => exact absurd internal (by decide)
      | true => exact absurd (child.symm.trans (show _ = none by decide)) (by simp)
  · rintro (⟨rfl, rfl⟩ | ⟨rfl, rfl⟩)
    · exact .here _
    · exact .edge (by decide) (by decide) (.here _)

theorem leafAt_B (p : List Bool) (k : NodeIdx) : imageB.LeafAt p k ↔ p = [false] ∧ k = 0#9 := by
  have root : imageB.rootIdx = 1#9 := by decide
  unfold Image.LeafAt
  rw [root, paths_B]
  constructor
  · rintro ⟨_, ⟨_, rfl⟩ | h, leaf⟩
    · exact absurd leaf (by decide)
    · exact h
  · rintro ⟨rfl, rfl⟩
    exact ⟨by decide, .inr ⟨rfl, rfl⟩, by decide⟩

theorem wf_B : imageB.WF := by
  have root : imageB.rootIdx = 1#9 := by decide
  refine ⟨?_, ?_, ?_, ?_, ?_, ?_⟩
  · intro _ p q i hp hq
    rw [root, paths_B] at hp hq
    rcases hp with ⟨rfl, rfl⟩ | ⟨rfl, rfl⟩ <;> rcases hq with ⟨rfl, h⟩ | ⟨rfl, h⟩ <;>
      first | rfl | exact absurd h (by decide)
  · decide
  · intro _
    exact .inr ⟨false, 0#9, by decide, by decide, by decide⟩
  · intro p q i j hi hj _
    rw [((leafAt_B _ _).1 hi).2, ((leafAt_B _ _).1 hj).2]
  · intro p i hi
    obtain ⟨rfl, rfl⟩ := (leafAt_B _ _).1 hi
    rw [show (imageB.nodeLookup 0#9).sym = 0x61#8 by decide]
    refine ⟨by decide, by decide, fun k _ => ?_⟩
    rw [show (imageB.codeLookup 0x61#8).bits = 0#255 by decide, BitVec.getLsbD_zero]
  · intro s none
    have h0 : s ≠ 0x61#8 := fun h => none _ _ ((leafAt_B _ _).2 ⟨rfl, rfl⟩) (h ▸ by decide)
    have n0 : 0x61 ≠ s.toNat := fun h => h0 (BitVec.eq_of_toNat_eq h.symm)
    simp only [Image.codeEntry, imageB, Memory.read, if_neg n0]

theorem wf_empty : Image.empty.WF :=
  { tree := fun h => absurd h (by decide)
    rootInternal := by decide
    arity := fun h => absurd h (by decide)
    symbolsDistinct := fun _ _ _ _ h => absurd h.1 (by decide)
    codeOfLeaf := fun _ _ h => absurd h.1 (by decide)
    noOtherCode := fun _ _ => rfl }

/-- A leaf root is not well-formed (conflict C1). -/
theorem test_X1_not_wf : ¬ imageX1.WF := fun wf => absurd wf.rootInternal (by decide)

/-- Nor is an image with no tree whose NODE[RIDX] is a leaf: clause (b) has no condition on RV_ROOT. -/
theorem test_leafRoot_without_tree_not_wf : ¬ ({ imageX1 with root := 0x000#10 } : Image).WF :=
  fun wf => absurd wf.rootInternal (by decide)

/-! ### Witnesses: for every obligation with hypotheses, data that meet them all, at the boundary values of their ranges -/

/-- An edge in reset, and one out of reset, with every ready wire at 1. -/
def portsIn (rstN : Bool) : PortsIn := ⟨rstN, true, 0xC00000000#36, true, true, true, none⟩

def timing (work : Nat) : Timing := ⟨true, true, true, true, work⟩

theorem witness_ResetStateIsAllZero :
    (portsIn false).rstN = false ∧ (portsIn false).newImage = none ∧ State.reset.img.hasTree = false := by decide

theorem witness_ResetLevelSilencesThePorts : (portsIn false).rstN = false := by decide

theorem witness_DecodeAcceptsExactlyTheTable :
    (⟨"ENC_PUT", 0x200000000#36, 0xFFFFFFF00#36⟩ : OpRow) ∈ opTable ∧
      (⟨"ENC_PUT", 0x200000000#36, 0xFFFFFFF00#36⟩ : OpRow).covers 0x2000000FF#36 = true ∧
      decode 0x2000000FF#36 = .ok (.encPut 0xFF#8) := by decide

theorem witness_DecodedCommandEncodesToItsWord :
    decode 0x9000001FF#36 = .ok (.romNode 511#9) ∧ decode 0x4FFFFFFFF#36 = .ok (.decInit 0xFFFFFFFF#32) := by decide

theorem witness_StepRunsTheDecodedCommand :
    ({ stateA with cmdQueue := [0x200000041#36, 0x300000000#36] } : State).cmdQueue =
        0x200000041#36 :: [0x300000000#36] ∧
      decode 0x200000041#36 = .ok (.encPut 0x41#8) ∧ stateA.cmdQueue = [] := by decide

/-- The lowest and the highest must-be-zero bit of a byte command, and a reserved opcode. -/
theorem witness_IllegalWordOnlySetsCmdErr :
    ({ stateA with cmdQueue := [0x200000100#36] } : State).cmdQueue = 0x200000100#36 :: [] ∧
      legal 0x200000100#36 = false ∧ legal 0x280000000#36 = false ∧ legal 0x700000041#36 = false := by decide

theorem witness_CmdErrIsStickyAndHarmless :
    goes (step { stateA with cmdQueue := [0x700000000#36] }) (fun t => t.cmdErr) = true ∧
      goes (step { stateA with cmdErr := true, cmdQueue := [0x100000000#36] }) (fun t => t.cmdErr) = true ∧
      Instr.romRoot ≠ .stat ∧ goes (exec .romRoot stateA) (fun _ => true) = true := by decide

theorem witness_WordsTakeEffectInOrder : stateA.cmdQueue = [] := by decide

theorem witness_ResetMeetsTheInvariants : imageA.canonical = true := by decide

/-- A state in mid-session: seven pending bits, eight symbols of eleven. -/
def midState : State :=
  { stateA with enc := ⟨0x6E#8, 7#3, 0#2⟩, dec := ⟨11#32, 8#32, 7#9, 0#2⟩, cmdQueue := [0x600000000#36] }

theorem witness_StepKeepsTheInvariant : midState.Inv ∧ ∃ t, step midState = .next t ∧ t.dec.fault = 2#2 :=
  ⟨⟨by decide, by decide, by decide, by decide, by decide, by decide⟩, _, rfl, by decide⟩

theorem witness_StepKeepsTheWalkOnTheTree :
    midState.OnTree ∧ (midState.img.hasTree = true ∧ midState.img.isLeaf midState.img.rootIdx = false ∧
      midState.dec.total ≠ 0#32) ∧ ∃ t, step midState = .next t := by
  refine ⟨fun _ _ _ => ⟨by decide, [true], ?_⟩, by decide, _, rfl⟩
  exact .edge (j := 7#9) (by decide) (by decide) (.here _)

theorem witness_NoStepChangesTheImage : goes (step midState) (fun t => decide (t.img = imageA)) = true := by decide

theorem witness_EncInitGivesTheInitialState :
    ({ stateA with enc := ⟨0x06#8, 4#3, 1#2⟩ } : State).enc.fault ≠ 0#2 ∧
      goes (exec .encInit { stateA with enc := ⟨0x06#8, 4#3, 1#2⟩ }) (fun t => decide (t.enc.fault = 0#2)) = true ∧
      midState.enc.fault = 0#2 := by decide

/-- Seven pending bits and a code of 255 bits: the longest there is. And one bit on none. -/
theorem witness_EncPutEmitsTheWholeBytes :
    (let s : State := { State.resetWith image255 with enc := ⟨0x7F#8, 7#3, 0#2⟩ }
     s.enc.fault = 0#2 ∧ s.enc.acc.toNat < 2 ^ s.enc.nbits.toNat ∧ s.enc.nbits.toNat = 7 ∧
       (s.img.codeLookup 0x41#8).len.toNat = 255) ∧
      stateA.enc.fault = 0#2 ∧ stateA.enc.acc.toNat < 2 ^ stateA.enc.nbits.toNat ∧
      (stateA.img.codeLookup 0x41#8).len.toNat = 1 := by decide

theorem witness_EncPutOfNoCodeOnlyFaults :
    stateA.enc.fault = 0#2 ∧ (stateA.img.codeLookup 0x5A#8).len = 0#8 ∧
      ({ stateA with enc := ⟨0x06#8, 4#3, 1#2⟩ } : State).enc.fault ≠ 0#2 := by decide

theorem witness_EncFlushPadsThePartialGroup :
    ({ stateA with enc := ⟨0x06#8, 4#3, 1#2⟩ } : State).enc.fault ≠ 0#2 ∧
      (stateA.enc.fault = 0#2 ∧ stateA.enc.nbits = 0#3) ∧
      (midState.enc.fault = 0#2 ∧ midState.enc.nbits ≠ 0#3) ∧ ∃ t, exec .encFlush midState = .next t :=
  ⟨by decide, by decide, by decide, _, rfl⟩

theorem witness_EncoderShiftsAreExact :
    midState.enc.acc.toNat < 2 ^ midState.enc.nbits.toNat ∧ midState.enc.nbits = 7#3 ∧
      midState.enc.pushBit true = (⟨0x00#8, 0#3, 0#2⟩, [0xDD#8]) ∧
      stateA.enc.acc.toNat < 2 ^ stateA.enc.nbits.toNat ∧ stateA.enc.nbits ≠ 7#3 := by decide

theorem hasCodes_A (x : Byte) (h : x ∈ [0x41#8, 0x42#8, 0x52#8]) : imageA.HasCode x := by
  unfold Image.HasCode
  revert x
  decide

theorem witness_EncoderSessionPacksTheCodes :
    stateA.enc = { acc := 0#8, nbits := 0#3, fault := 0#2 } ∧ ∀ x ∈ [0x41#8, 0x42#8, 0x52#8], stateA.img.HasCode x :=
  ⟨rfl, hasCodes_A⟩

theorem witness_MissedCodeEndsTheSession :
    stateA.enc = { acc := 0#8, nbits := 0#3, fault := 0#2 } ∧ (∀ x ∈ [0x41#8, 0x42#8, 0x52#8], stateA.img.HasCode x) ∧
      (stateA.img.codeLookup 0x5A#8).len = 0#8 := ⟨rfl, hasCodes_A, by decide⟩

theorem witness_EncoderCommandFrame : ∃ t, exec (.encPut 0x41#8) midState = .next t ∧ t.encOut = [0xDC#8] :=
  ⟨_, rfl, by decide⟩

theorem witness_DecInitStartsASession :
    (∃ t, exec (.decInit 0#32) stateA = .next t) ∧ (∃ t, exec (.decInit 5#32) State.reset = .next t) ∧
      State.reset.img.hasTree = false := ⟨⟨_, rfl⟩, ⟨_, rfl⟩, by decide⟩

theorem witness_DecPutWalksTheTree :
    ({ stateA with dec := ⟨11#32, 8#32, 8#9, 2#2⟩ } : State).dec.fault ≠ 0#2 ∧ stateA.dec.produced = stateA.dec.total := by
  decide

/-- The one bit that is owed goes left to a leaf, right to a leaf, and right where there is no child. -/
theorem witness_ABitTakesTheLeftOrTheRightChild :
    (let s : State := { State.resetWith imageC with dec := ⟨4#32, 3#32, 2#9, 0#2⟩ }
     s.dec.fault = 0#2 ∧ (s.img.nodeEntry s.dec.cur).getLsbD 20 = false ∧ s.dec.total = s.dec.produced + 1#32 ∧
       (0x7F#8).getLsbD 7 = false ∧ (s.img.nodeEntry s.dec.cur).getLsbD 19 = true ∧
       (s.img.nodeEntry ((s.img.nodeEntry s.dec.cur).extractLsb' 10 9)).getLsbD 20 = true ∧
       (0x80#8).getLsbD 7 = true ∧ (s.img.nodeEntry s.dec.cur).getLsbD 9 = true ∧
       (s.img.nodeEntry ((s.img.nodeEntry s.dec.cur).extractLsb' 0 9)).getLsbD 20 = true) ∧
    (let s : State := { State.resetWith imageB with dec := ⟨4#32, 0#32, 1#9, 0#2⟩ }
     s.dec.fault = 0#2 ∧ (s.img.nodeEntry s.dec.cur).getLsbD 20 = false ∧ s.dec.produced ≠ s.dec.total ∧
       (0x80#8).getLsbD 7 = true ∧ (s.img.nodeEntry s.dec.cur).getLsbD 9 = false) := by decide

theorem witness_DecEndChecksTheCount :
    (midState.dec.fault = 0#2 ∧ midState.dec.produced ≠ midState.dec.total) ∧ stateA.dec.produced = stateA.dec.total ∧
      (∃ t, exec .decEnd stateA = .next t ∧ t.dec.fault = 0#2) := ⟨by decide, by decide, _, rfl, by decide⟩

/-- One symbol short of the largest total. -/
theorem witness_DecPutCountsItsSymbols :
    ∃ t, exec (.decPut 0x00#8) { stateA with dec := ⟨0xFFFFFFFF#32, 0xFFFFFFFE#32, 8#9, 0#2⟩ } = .next t ∧
      (0xFFFFFFFE#32).toNat ≤ (0xFFFFFFFF#32).toNat ∧ t.dec.produced = 0xFFFFFFFF#32 := ⟨_, rfl, by decide, by decide⟩

theorem witness_LeafRootFaultsAtTheFirstBit :
    (State.resetWith imageX1).img.hasTree = true ∧
      (State.resetWith imageX1).img.isLeaf (State.resetWith imageX1).img.rootIdx = true ∧ 4#32 ≠ 0#32 ∧
      [0x80#8, 0x00#8] ≠ [] := by decide

theorem witness_DecoderCommandFrame : ∃ t, exec (.decPut 0x8A#8) midState = .next t ∧ t.decOut ≠ [] :=
  ⟨_, rfl, by decide⟩

/-- A code of three bits, and a node with a left child only. -/
theorem witness_LookupsReadTheFieldsOfAnEntry :
    2 < (imageA.codeLookup 0x42#8).len.toNat ∧ (imageB.nodeLookup 1#9).child false = some 0#9 ∧
      (imageB.nodeLookup 1#9).child true = none ∧ (imageC.nodeLookup 2#9).child false = some 0#9 ∧
      (imageC.nodeLookup 2#9).child true = some 1#9 := by decide

/-- Two states that differ in their histories only, and one canonical image twice. -/
theorem witness_StatAndLookupsHideNothing :
    stateA.statusWord = ({ stateA with encOut := [0x00#8] } : State).statusWord ∧ imageA.canonical = true ∧
      (∀ (s : State) (i : Instr), (∃ x, i = .romCode x) ∨ (∃ k, i = .romNode k) ∨ i = .romRoot →
        ∀ ta tb, exec i { s with img := imageA } = .next ta → exec i { s with img := imageA } = .next tb →
          ta.rsp = tb.rsp) := by
  refine ⟨rfl, by decide, fun s i _ ta tb ha hb => ?_⟩
  rw [ha] at hb
  cases hb
  rfl

theorem witness_OnlyLookupsAndStatRespond :
    (∃ t, exec .stat midState = .next t) ∧ ∃ t, exec .encFlush midState = .next t := ⟨⟨_, rfl⟩, _, rfl⟩

theorem witness_FaultOutputIsTheOrOfTheFlags : (portsIn true).rstN = true := by decide

theorem witness_FirstFaultStays :
    (let s : State := { stateA with enc := ⟨0x06#8, 4#3, 1#2⟩, cmdQueue := [0x100000000#36] }
     s.enc.fault ≠ 0#2 ∧ goes (step s) (fun t => decide (t.enc.fault ≠ s.enc.fault)) = true) ∧
    (let s : State := { stateA with dec := ⟨11#32, 8#32, 7#9, 2#2⟩, cmdQueue := [0x400000000#36] }
     s.dec.fault ≠ 0#2 ∧ goes (step s) (fun t => decide (t.dec.fault ≠ s.dec.fault)) = true) := by decide

/-- The four faults. -/
theorem witness_EachFaultHasItsCause :
    goes (exec (.encPut 0x5A#8) midState) (fun t => decide (t.enc.fault ≠ midState.enc.fault ∧ t.enc.fault ≠ 0#2)) = true ∧
    goes (exec (.decPut 0x20#8) { State.resetWith imageB with dec := ⟨4#32, 0#32, 1#9, 0#2⟩ })
      (fun t => decide (t.dec.fault = 1#2)) = true ∧
    goes (exec .decEnd midState) (fun t => decide (t.dec.fault = 2#2)) = true ∧
    goes (exec (.decInit 5#32) State.reset) (fun t => decide (t.dec.fault = 3#2)) = true := by decide

theorem witness_FaultedUnitIsSilent :
    ({ stateA with enc := ⟨0x06#8, 4#3, 1#2⟩ } : State).enc.fault ≠ 0#2 ∧
      ({ stateA with dec := ⟨11#32, 8#32, 7#9, 2#2⟩ } : State).dec.fault ≠ 0#2 ∧
      (∃ t, exec (.decPut 0x6E#8) midState = .next t) ∧ ∃ t, exec (.encPut 0x41#8) midState = .next t :=
  ⟨by decide, by decide, ⟨_, rfl⟩, _, rfl⟩

/-- The commands exchanged both change the state. -/
theorem witness_EncoderAndDecoderCommandsCommute :
    goes (execAll [.encPut 0x41#8, .decPut 0x8A#8] midState)
      (fun t => decide (t.encOut = [0xDC#8] ∧ t.decOut ≠ [])) = true := by decide

theorem witness_StreamsOnlyGrowWithinBounds :
    (let s : State := { midState with cmdQueue := [0x300000000#36] }
     goes (step s) (fun t => decide (t.encOut.length = 1)) = true ∧ decode 0x300000000#36 = .ok .encFlush) ∧
    (let s : State := { State.resetWith image255 with enc := ⟨0x7F#8, 7#3, 0#2⟩, cmdQueue := [0x200000041#36] }
     s.enc.fault = 0#2 ∧ decode 0x200000041#36 = .ok (.encPut 0x41#8) ∧
       goes (step s) (fun t => decide (t.encOut.length = 32)) = true) := by decide

theorem nodeEntry_X1 (k : NodeIdx) : imageX1.nodeEntry k = if k = 0#9 then 0x100061#21 else 0 := by
  unfold Image.nodeEntry imageX1
  simp only [Memory.read]
  by_cases h : k = 0#9
  · subst h
    rfl
  · have : (0 : Nat) ≠ k.toNat := fun e => h (BitVec.eq_of_toNat_eq e.symm)
    rw [if_neg h, if_neg this]

theorem nodeEntry_X1' (k : NodeIdx) : imageX1'.nodeEntry k = if k = 0#9 then 0x1FFF61#21 else 0 := by
  unfold Image.nodeEntry imageX1'
  simp only [Memory.read]
  by_cases h : k = 0#9
  · subst h
    rfl
  · have : (0 : Nat) ≠ k.toNat := fun e => h (BitVec.eq_of_toNat_eq e.symm)
    rw [if_neg h, if_neg this]

/-- Two images that differ in the reserved bits of a leaf. -/
theorem witness_ReservedBitsChangeNothing :
    imageX1 ≠ imageX1' ∧
    (∀ x, (imageX1.codeLookup x).len = (imageX1'.codeLookup x).len ∧ imageX1.codeOf x = imageX1'.codeOf x) ∧
    (∀ k, imageX1.isLeaf k = imageX1'.isLeaf k ∧
      (imageX1.isLeaf k = true → (imageX1.nodeLookup k).sym = (imageX1'.nodeLookup k).sym) ∧
      (imageX1.isLeaf k = false → ∀ bit, (imageX1.nodeLookup k).child bit = (imageX1'.nodeLookup k).child bit)) ∧
    imageX1.hasTree = imageX1'.hasTree ∧ (imageX1.hasTree = true → imageX1.rootIdx = imageX1'.rootIdx) ∧
    (imageX1.hasTree = false → stateA.dec.stopped = true) ∧
    ∃ t : State, exec (.decInit 4#32) { stateA with img := imageX1 } = .next { t with img := imageX1 } := by
  refine ⟨by decide, fun x => ⟨rfl, rfl⟩, fun k => ?_, by decide, by decide, by decide,
    { stateA with dec := ⟨4#32, 0#32, 0#9, 0#2⟩ }, rfl⟩
  unfold Image.isLeaf Image.nodeLookup
  rw [nodeEntry_X1, nodeEntry_X1']
  by_cases h : k = 0#9
  · rw [if_pos h, if_pos h]
    decide
  · rw [if_neg h, if_neg h]
    exact ⟨rfl, fun _ => rfl, fun _ _ => rfl⟩

/-- An element of each history, not yet taken. -/
def offering : Bench :=
  { state := { stateA with encOut := [0x6E#8], decOut := [0x41#8], rsp := [⟨0xA#4, 0#264⟩] }
    enc := .fresh
    dec := .fresh
    rsp := .fresh
    cmdHeld := none }

/-- STAT is offered and every ready wire of the host is 0. -/
def unready : PortsIn := ⟨true, true, 0xC00000000#36, false, false, false, none⟩

/-- The block chooses nothing: it accepts no word and raises no valid. -/
def quiet : Timing := ⟨false, false, false, false, 0⟩

/-- No command completes at the edge, or one; and a word that is not accepted, then withdrawn. -/
theorem witness_PortsLoseNothing :
    unready.rstN = true ∧ (portsIn true).rstN = true ∧ offering.enc.taken ≤ offering.state.encOut.length ∧
      offering.dec.taken ≤ offering.state.decOut.length ∧ offering.rsp.taken ≤ offering.state.rsp.length ∧
      (∃ b', offering.edge unready (timing 0) = .next b' ∧ b'.state.cmdQueue = [0xC00000000#36]) ∧
      (∃ b', offering.edge unready (timing 1) = .next b' ∧ b'.state.cmdQueue = [] ∧ b'.state.rsp.length = 2) ∧
      (offering.outputs unready (timing 0)).encOut = some 0x6E#8 ∧
      (∃ b', offering.edge unready quiet = .next b' ∧ b'.cmdHeld = some 0xC00000000#36) :=
  ⟨rfl, rfl, by decide, by decide, by decide, ⟨_, rfl, by decide⟩, ⟨_, rfl, by decide, by decide⟩, by decide,
    _, rfl, by decide⟩

/-- 30_encoding.md rule R71: valid is not withdrawn before the transfer, whatever the block chooses at the next edge. -/
theorem test_offer_is_held :
    ∃ b', offering.edge unready (timing 0) = .next b' ∧ (b'.outputs unready quiet).encOut = some 0x6E#8 ∧
      (b'.outputs unready quiet).rsp = some ⟨0xA#4, 0#264⟩ := ⟨_, rfl, by decide, by decide⟩

/-- An edge in reset, one at which the host repeats its word, one at which it changes it, and one with a new image. -/
theorem witness_EdgeAnswersWhereTheHostKeepsToTheRules :
    (portsIn false).rstN = false ∧
      (let b : Bench := { offering with cmdHeld := some 0xC00000000#36 }
       unready.newImage = none ∧ b.cmdHeld = some 0xC00000000#36 ∧ unready.cmdValid = true ∧
         unready.cmd = 0xC00000000#36 ∧
         b.edge { unready with cmd := 0x100000000#36 } quiet = .refused .commandWithdrawn) ∧
      offering.edge { unready with newImage := some imageA } quiet = .refused .imageChangedOutOfReset :=
  ⟨rfl, ⟨rfl, rfl, rfl, rfl, rfl⟩, rfl⟩

theorem hasCodes_C (x : Byte) (h : x ∈ List.replicate 9 0xFF#8 ++ [0x00#8]) : imageC.HasCode x := by
  unfold Image.HasCode
  revert x
  decide

theorem witness_CodesArePrefixFree :
    imageC.WF ∧ imageC.HasCode 0xFF#8 ∧ imageC.codeOf 0xFF#8 <+: imageC.codeOf 0xFF#8 :=
  ⟨wf_C, hasCodes_C _ (by decide), List.prefix_refl _⟩

theorem witness_RoundTripUnderWellFormedImage :
    (State.resetWith imageC).img.WF ∧ (∀ x ∈ List.replicate 9 0xFF#8 ++ [0x00#8], (State.resetWith imageC).img.HasCode x) ∧
      (List.replicate 9 0xFF#8 ++ [0x00#8]).length < 2 ^ 32 := ⟨wf_C, hasCodes_C, by decide⟩

/-- No symbol counted, and all of them. -/
theorem witness_UncountedInputIsIgnored :
    (State.resetWith imageC).img.WF ∧ (∀ x ∈ List.replicate 9 0xFF#8 ++ [0x00#8], (State.resetWith imageC).img.HasCode x) ∧
      0 ≤ (List.replicate 9 0xFF#8 ++ [0x00#8]).length ∧ 10 ≤ (List.replicate 9 0xFF#8 ++ [0x00#8]).length ∧
      10 < 2 ^ 32 := ⟨wf_C, hasCodes_C, by decide, by decide, by decide⟩

/-- No byte of the artifact, and one of two. -/
theorem witness_TruncatedArtifactIsReported :
    (State.resetWith imageC).img.WF ∧ (∀ x ∈ List.replicate 9 0xFF#8 ++ [0x00#8], (State.resetWith imageC).img.HasCode x) ∧
      (List.replicate 9 0xFF#8 ++ [0x00#8]).length < 2 ^ 32 ∧
      8 * 0 < ((State.resetWith imageC).img.codesOf (List.replicate 9 0xFF#8 ++ [0x00#8])).length ∧
      8 * 1 < ((State.resetWith imageC).img.codesOf (List.replicate 9 0xFF#8 ++ [0x00#8])).length :=
  ⟨wf_C, hasCodes_C, by decide, by decide, by decide⟩

theorem witness_WalkMeetsALeafWithin255Bits :
    (imageC.WF ∧ imageC.HasCode 0xFF#8 ∧ imageC.hasTree = true) ∧
      (imageB.WF ∧ imageB.hasTree = true ∧ imageB.shape = .singleLeaf) ∧ 255 ≤ (List.replicate 255 true).length :=
  ⟨⟨wf_C, hasCodes_C _ (by decide), by decide⟩, ⟨wf_B, by decide, by decide⟩, by rw [List.length_replicate]⟩

theorem witness_ShapesAndTheirCodes :
    (Image.empty.WF ∧ Image.empty.shape = .empty) ∧ (imageB.WF ∧ imageB.shape = .singleLeaf) ∧
      (imageC.WF ∧ imageC.shape = .binary) :=
  ⟨⟨wf_empty, by decide⟩, ⟨wf_B, by decide⟩, wf_C, by decide⟩

theorem witness_TableArtifactRoundTrip :
    ({ total := 4, distinct := 2, pairs := [(97, 4)] } : TableArtifact).distinct ≠
      ({ total := 4, distinct := 2, pairs := [(97, 4)] } : TableArtifact).pairs.length := by decide

/-- No symbol, one symbol and five symbols. -/
theorem witness_BuiltImageIsWellFormed :
    (([] : List (Byte × Nat)).map (·.1)).Nodup ∧ (([(0x61#8, 4)] : List (Byte × Nat)).map (·.1)).Nodup ∧
      (([(0x41#8, 5), (0x42#8, 2), (0x43#8, 1), (0x44#8, 1), (0x52#8, 2)] : List (Byte × Nat)).map (·.1)).Nodup := by
  decide

theorem witness_CompressThenDecompressIsIdentity :
    [0x61#8, 0x61#8, 0x61#8, 0x61#8] ≠ [] ∧ [0x61#8, 0x61#8, 0x61#8, 0x61#8].length < 2 ^ 32 := by decide

end Sys2Proof.Tests
end

/-! ## The scope of the block (00_scope.md): the image stays, and the words take effect in order -/

namespace Sys2Proof.Machine

/-! ### The image -/

/-- A step leaves the image alone, because every command does. -/
theorem step_img {s t : State} (h : step s = .next t) : t.img = s.img :=
  step_keeps_of_exec (P := fun u => u.img = s.img) (fun _ _ _ kept => kept)
    (fun _ _ _ kept hx => (exec_keeps hx).1.trans kept) rfl h

/-- Settles O14: the image is the same, so every read of it is. -/
theorem noStepChangesTheImage : Obligations.NoStepChangesTheImage := by
  unfold Obligations.NoStepChangesTheImage
  intro s t h
  rw [step_img h]
  exact ⟨rfl, fun _ => rfl, fun _ => rfl, rfl⟩

/-! ### The order of the words -/

/-- The word of a command spells that command (30_encoding.md rules R72 to R75). -/
theorem decode_encode (i : Instr) : decode (encode i) = .ok i := by
  rw [decode_ok_iff, op_encode, arg_encode]
  cases i with
  | encInit => exact ⟨.Z, rfl, rfl, rfl⟩
  | encPut b => exact ⟨.B, rfl, accepts_byte b, congrArg (some ∘ Instr.encPut) (extractLsb'_byte b)⟩
  | encFlush => exact ⟨.Z, rfl, rfl, rfl⟩
  | decInit n => exact ⟨.N, rfl, decide_eq_true n.isLt, rfl⟩
  | decPut b => exact ⟨.B, rfl, accepts_byte b, congrArg (some ∘ Instr.decPut) (extractLsb'_byte b)⟩
  | decEnd => exact ⟨.Z, rfl, rfl, rfl⟩
  | romCode b => exact ⟨.B, rfl, accepts_byte b, congrArg (some ∘ Instr.romCode) (extractLsb'_byte b)⟩
  | romNode k => exact ⟨.X, rfl, accepts_index k, congrArg (some ∘ Instr.romNode) (extractLsb'_index k)⟩
  | romRoot => exact ⟨.Z, rfl, rfl, rfl⟩
  | stat => exact ⟨.Z, rfl, rfl, rfl⟩

/-- A run whose first step goes on to `t` is the rest of the run from `t`. -/
theorem run_succ_next {k : Nat} {s t : State} (h : step s = .next t) :
    Sys2Proof.core.run (k + 1) s = Sys2Proof.core.run k t := by
  simp only [Host.Core.run, show Sys2Proof.core.step s = .next t from h]

/-- A command does the same whichever words wait behind it, and leaves them waiting. -/
theorem exec_withQueue {i : Instr} {s t : State} (q : List CmdWord) (h : exec i s = .next t) :
    exec i { s with cmdQueue := q } = .next { t with cmdQueue := q } := by
  obtain ⟨-, sameErr, -⟩ := exec_keeps h
  simpa only [sameErr] using exec_blind i s q s.cmdErr (.inr rfl) h

/-- A step on the word of a command does what the command does, and leaves the words behind it waiting. -/
theorem step_encoded {i : Instr} {s t : State} (ws : List CmdWord) (h : exec i s = .next t) :
    step { s with cmdQueue := encode i :: ws } = .next { t with cmdQueue := ws } := by
  rw [step_command rfl (decode_encode i)]
  exact exec_withQueue (s := s) ws h

/-- Running the waiting words of a command list, one step each, executes the list. -/
theorem run_encoded (is : List Instr) {s : State} (empty : s.cmdQueue = []) :
    Sys2Proof.core.run is.length { s with cmdQueue := is.map encode } = execAll is s := by
  induction is generalizing s with
  | nil =>
    rw [List.map_nil, ← empty]
    rfl
  | cons i is ih =>
    obtain ⟨_, _, _, _, _, hx⟩ := exec_changes i s
    rw [execAll_cons_next hx, List.length_cons, List.map_cons, run_succ_next (step_encoded (is.map encode) hx)]
    exact ih empty

/-- Settles O10: the words accepted on an empty line are the encoded list, one step each. -/
theorem wordsTakeEffectInOrder : Obligations.WordsTakeEffectInOrder := by
  unfold Obligations.WordsTakeEffectInOrder
  intro is s empty
  rw [runWords, acceptAll_eq, empty, List.nil_append, List.length_map]
  exact run_encoded is empty

end Sys2Proof.Machine

/-! ## The state (10_state.md): its invariant, CMD_ERR and the histories -/

namespace Sys2Proof.Machine

/-! ### Every command, case by case -/

/-- `Executes s i t`: the command `i` takes the state `s` to `t`. One constructor per case of a command, with its guard, so that
a proof about every command is one case split that names only the cases it turns on. -/
inductive Executes (s : State) : Instr → State → Prop where
  | encInit : Executes s .encInit { s with enc := Enc.fresh }
  /-- ENC_PUT while a fault is recorded -/
  | putIgnored (b : Byte) (faulted : s.enc.fault ≠ 0#2) : Executes s (.encPut b) s
  /-- ENC_PUT of a symbol with no code -/
  | putNoCode (b : Byte) (running : s.enc.fault = 0#2) (noCode : (s.img.codeLookup b).len = 0#8) :
      Executes s (.encPut b) { s with enc := { s.enc with fault := encNoCode } }
  /-- ENC_PUT of a symbol with a code -/
  | putCode (b : Byte) (running : s.enc.fault = 0#2) (code : (s.img.codeLookup b).len ≠ 0#8) :
      Executes s (.encPut b) (s.encAppend (s.img.codeOf b))
  /-- ENC_FLUSH while a fault is recorded -/
  | flushIgnored (faulted : s.enc.fault ≠ 0#2) : Executes s .encFlush s
  | encFlush (running : s.enc.fault = 0#2) :
      Executes s .encFlush
        { s with
          enc := { s.enc with acc := 0#8, nbits := 0#3 }
          encOut := s.encOut ++ if s.enc.nbits ≠ 0#3 then [s.enc.flushByte] else [] }
  | decInit (n : Count) : Executes s (.decInit n) { s with dec := Dec.start s.img.rootLookup n }
  | decPut (b : Byte) : Executes s (.decPut b) (s.decWalk (byteBits b))
  /-- DEC_END of a session that is done or faulted -/
  | endIgnored (stopped : ¬(s.dec.fault = 0#2 ∧ s.dec.produced ≠ s.dec.total)) : Executes s .decEnd s
  /-- DEC_END while symbols are owed -/
  | endTruncated (running : s.dec.fault = 0#2) (owes : s.dec.produced ≠ s.dec.total) :
      Executes s .decEnd { s with dec := { s.dec with fault := decTruncated } }
  | romCode (b : Byte) : Executes s (.romCode b) (s.emitRsp 0x8#4 ((s.img.codeEntry b).setWidth 264))
  | romNode (i : NodeIdx) : Executes s (.romNode i) (s.emitRsp 0x9#4 ((s.img.nodeEntry i).setWidth 264))
  | romRoot : Executes s .romRoot (s.emitRsp 0xA#4 (s.img.root.setWidth 264))
  | stat : Executes s .stat (s.emitRsp 0xC#4 s.statusWord)

/-- What `exec` answers is one of the cases. -/
theorem executes_of_exec {i : Instr} {s t : State} (hx : exec i s = .next t) : Executes s i t := by
  cases i with
  | encPut b =>
    rw [exec_encPut] at hx
    split at hx
    · rename_i faulted
      cases hx
      exact .putIgnored b faulted
    · rename_i running
      split at hx
      · rename_i noCode
        cases hx
        exact .putNoCode b (not_not.1 running) noCode
      · rename_i code
        cases hx
        exact .putCode b (not_not.1 running) code
  | encFlush =>
    rw [exec_encFlush] at hx
    split at hx
    · rename_i faulted
      cases hx
      exact .flushIgnored faulted
    · rename_i running
      cases hx
      exact .encFlush (not_not.1 running)
  | decEnd =>
    rw [exec_decEnd] at hx
    split at hx
    · rename_i truncated
      cases hx
      exact .endTruncated truncated.1 truncated.2
    · rename_i stopped
      cases hx
      exact .endIgnored stopped
  | encInit => cases hx; exact .encInit
  | decInit n => cases hx; exact .decInit n
  | decPut b => cases hx; exact .decPut b
  | romCode b => cases hx; exact .romCode b
  | romNode k => cases hx; exact .romNode k
  | romRoot => cases hx; exact .romRoot
  | stat => cases hx; exact .stat

/-! ### The invariant, unit by unit -/

/-- What the invariant says of the encoder's registers (10_state.md rules R22 and R28). -/
structure Enc.Inv (e : Enc) : Prop where
  group : e.acc.toNat < 2 ^ e.nbits.toNat
  fault : e.fault = 0#2 ∨ e.fault = encNoCode

/-- What the invariant says of the decoder's registers beside an image (10_state.md rule R24, 60_exceptions.md rule R191). -/
structure Dec.Inv (img : Image) (d : Dec) : Prop where
  count : d.produced.toNat ≤ d.total.toNat
  owed : d.fault ≠ 0#2 → d.produced ≠ d.total
  noTree : img.hasTree = false → d.stopped = true

/-- The invariant is that of the two units and the canonical form of the tables; nothing else of the state enters it. -/
theorem State.inv_iff (s : State) : s.Inv ↔ s.enc.Inv ∧ s.dec.Inv s.img ∧ s.img.canonical = true := by
  constructor
  · rintro ⟨group, encFault, count, owed, noTree, tables⟩
    exact ⟨⟨group, encFault⟩, ⟨count, owed, noTree⟩, tables⟩
  · rintro ⟨⟨group, encFault⟩, ⟨count, owed, noTree⟩, tables⟩
    exact ⟨group, encFault, count, owed, noTree, tables⟩

/-! ### The encoder keeps its part -/

/-- An empty group has the group's form, whatever fault is recorded. -/
theorem Enc.Inv.emptied {e : Enc} (h : e.Inv) : ({ e with acc := 0#8, nbits := 0#3 } : Enc).Inv :=
  ⟨Nat.one_pos, h.fault⟩

theorem Enc.fresh_inv : Enc.fresh.Inv := ⟨by decide, .inl rfl⟩

theorem Enc.Inv.noCode {e : Enc} (h : e.Inv) : ({ e with fault := encNoCode } : Enc).Inv := ⟨h.group, .inr rfl⟩

theorem Enc.Inv.pushBits {e : Enc} (h : e.Inv) (cs : List Bool) : (Enc.pushBits cs e).1.Inv :=
  ⟨Enc.pushBits_small cs e h.group, by simpa only [Enc.pushBits_fault] using h.fault⟩

theorem exec_keeps_encInv {i : Instr} {s t : State} (h : s.enc.Inv) (hx : exec i s = .next t) : t.enc.Inv := by
  cases executes_of_exec hx with
  | encInit => exact Enc.fresh_inv
  | putNoCode => exact h.noCode
  | putCode => exact h.pushBits _
  | encFlush => exact h.emptied
  | _ => exact h

/-! ### The decoder keeps its part -/

/-- A decoder that reads bits has a tree to walk. -/
theorem Dec.Inv.hasTree_of_running {img : Image} {d : Dec} (h : d.Inv img) (running : d.stopped = false) :
    img.hasTree = true := by
  by_contra none
  have stopped := h.noTree (Bool.eq_false_of_not_eq_true none)
  exact absurd (stopped.symm.trans running) (by decide)

/-- An empty session with no fault is done, wherever the walk stands and whether or not there is a tree. -/
theorem Dec.inv_of_none (img : Image) (cur : NodeIdx) :
    ({ total := 0#32, produced := 0#32, cur := cur, fault := 0#2 } : Dec).Inv img :=
  ⟨le_rfl, fun h => absurd rfl h, fun _ => rfl⟩

/-- A fault recorded while symbols are owed stops the decoder and leaves them owed. -/
theorem Dec.Inv.faulted {img : Image} {d : Dec} (h : d.Inv img) (owes : d.produced ≠ d.total) {c : FaultCode}
    (hc : c ≠ 0#2) : ({ d with fault := c } : Dec).Inv img :=
  ⟨h.count, fun _ => owes, fun _ => (Dec.stopped_eq_true_iff _).2 (.inl hc)⟩

/-- A session starts within the invariant: with no tree, symbols owed are a fault and none owed is done. -/
theorem Dec.start_inv (img : Image) (n : Count) : (Dec.start img.rootLookup n).Inv img := by
  rw [Dec.start_eq]
  refine ⟨Nat.zero_le _, fun faulted none => faulted (if_neg fun h => h.2 none.symm), fun noTree => ?_⟩
  rw [Dec.stopped_eq_true_iff]
  by_cases none : n = 0#32
  · exact .inr none.symm
  · have faulted : decNoTree ≠ 0#2 := by decide
    exact .inl ((if_pos ⟨noTree, none⟩).trans_ne faulted)

theorem Dec.Inv.walkBits {img : Image} {d : Dec} (h : d.Inv img) (bits : List Bool) :
    (Dec.walkBits img bits d).1.Inv img := by
  refine Dec.walkBits_keeps img (P := Dec.Inv img) ?noChild ?symbol ?move bits d h
  case noChild =>
    intro d h running _
    exact h.faulted ((Dec.stopped_eq_false_iff d).1 running).2 (by decide)
  case symbol =>
    intro d _ _ h running _ _ _
    obtain ⟨next, bound⟩ := Dec.count_succ h.count running
    refine ⟨next.trans_le bound, fun faulted => ?_, fun noTree => ?_⟩
    · exact absurd ((Dec.stopped_eq_false_iff d).1 running).1 faulted
    · exact absurd (noTree.symm.trans (h.hasTree_of_running running)) (by decide)
  case move =>
    intro d _ _ h _ _ _ _
    exact ⟨h.count, h.owed, h.noTree⟩

theorem exec_keeps_decInv {i : Instr} {s t : State} (h : s.dec.Inv s.img) (hx : exec i s = .next t) :
    t.dec.Inv t.img := by
  cases executes_of_exec hx with
  | decInit n => exact Dec.start_inv s.img n
  | decPut => exact h.walkBits _
  | endTruncated _ owes => exact h.faulted owes (by decide)
  | _ => exact h

/-! ### Every step keeps the invariant -/

theorem exec_keeps_inv {i : Instr} {s t : State} (h : s.Inv) (hx : exec i s = .next t) : t.Inv := by
  rw [State.inv_iff] at h ⊢
  obtain ⟨enc, dec, tables⟩ := h
  exact ⟨exec_keeps_encInv enc hx, exec_keeps_decInv dec hx, (exec_keeps hx).1 ▸ tables⟩

/-- Settles O12: a command keeps each unit's part of the invariant, and an illegal word and the waiting line do not enter it. -/
theorem stepKeepsTheInvariant : Obligations.StepKeepsTheInvariant := by
  unfold Obligations.StepKeepsTheInvariant
  intro s t hs h
  have blind : ∀ (s : State) (q : List CmdWord) (c : Bool), s.Inv → State.Inv { s with cmdQueue := q, cmdErr := c } :=
    fun s _ _ hs => (State.inv_iff _).2 ((State.inv_iff s).1 hs)
  exact step_keeps_of_exec blind (fun _ _ _ hs hx => exec_keeps_inv hs hx) hs h

/-! ### CMD_ERR -/

/-- A word is illegal exactly when decoding it answers why. -/
theorem legal_eq_false_iff (w : CmdWord) : legal w = false ↔ ∃ r, decode w = .error r := by
  rw [← Bool.not_eq_true, legal_iff_decodes]
  cases decode w <;> simp

/-- A step sets CMD_ERR exactly when the word it executes is illegal (30_encoding.md rule R82). -/
theorem step_cmdErr_iff {s t : State} (h : step s = .next t) :
    t.cmdErr = true ↔ s.cmdErr = true ∨ ∃ w ws, s.cmdQueue = w :: ws ∧ legal w = false := by
  rcases step_cases h with ⟨hq, rfl⟩ | ⟨w, ws, i, hq, hd, hx⟩ | ⟨w, ws, r, hq, hd, rfl⟩
  · simp [hq]
  · obtain ⟨-, sameErr, -⟩ := exec_keeps hx
    have isLegal : legal w = true := (legal_iff_decodes w).2 ⟨i, hd⟩
    simp [hq, isLegal, sameErr]
  · have isIllegal : legal w = false := (legal_eq_false_iff w).2 ⟨r, hd⟩
    simp [hq, isIllegal]

/-- A command but STAT does the same whatever CMD_ERR is, and leaves it. -/
theorem exec_withCmdErr {i : Instr} {s t : State} (c : Bool) (notStat : i ≠ .stat) (h : exec i s = .next t) :
    exec i { s with cmdErr := c } = .next { t with cmdErr := c } := by
  obtain ⟨-, -, sameQueue⟩ := exec_keeps h
  simpa only [sameQueue] using exec_blind i s s.cmdQueue c (.inl notStat) h

/-- Settles O9: the step sets CMD_ERR for an illegal word only, and no command but STAT reads it. -/
theorem cmdErrIsStickyAndHarmless : Obligations.CmdErrIsStickyAndHarmless := by
  unfold Obligations.CmdErrIsStickyAndHarmless
  exact ⟨fun _ _ => step_cmdErr_iff, fun _ _ _ c => exec_withCmdErr c, resetWith_cmdErr⟩

/-! ### The histories -/

/-- The most bytes a command appends to enc_out (20_memory.md rule R56). -/
def mostBytes : Instr → Nat
  | .encPut _ => 32
  | .encFlush => 1
  | _ => 0

/-- The most symbols a command appends to dec_out (20_memory.md rule R56). -/
def mostSymbols : Instr → Nat
  | .decPut _ => 8
  | _ => 0

/-- The most responses a command appends to rsp (20_memory.md rule R56, 30_encoding.md rule R79). -/
def mostResponses : Instr → Nat
  | .romCode _ => 1
  | .romNode _ => 1
  | .romRoot => 1
  | .stat => 1
  | _ => 0

/-- No command appends to two histories, so 32 elements are the most it appends in all. -/
theorem most_le (i : Instr) :
    mostBytes i ≤ 32 ∧ mostSymbols i ≤ 8 ∧ mostResponses i ≤ 1 ∧
      mostBytes i + mostSymbols i + mostResponses i ≤ 32 := by
  cases i <;> simp [mostBytes, mostSymbols, mostResponses]

/-- How many bytes a code appends to enc_out (41_bit_stream_encoder.md rule R122). -/
theorem length_encOut_encAppend (s : State) (b : Byte) :
    (s.encAppend (s.img.codeOf b)).encOut.length =
      s.encOut.length + (s.enc.nbits.toNat + (s.img.codeLookup b).len.toNat) / 8 := by
  rw [encAppend_encOut, List.length_append, (Enc.length_pushBits _ _).1, Image.codeOf, CodeFields.length_string]

/-- How many bytes an ENC_PUT appends while no fault is recorded. -/
theorem length_encOut_encPut {b : Byte} {s t : State} (running : s.enc.fault = 0#2)
    (hx : exec (.encPut b) s = .next t) :
    t.encOut.length = s.encOut.length +
      if (s.img.codeLookup b).len = 0#8 then 0
      else (s.enc.nbits.toNat + (s.img.codeLookup b).len.toNat) / 8 := by
  cases executes_of_exec hx with
  | putIgnored _ faulted => exact absurd running faulted
  | putNoCode _ _ noCode => rw [if_pos noCode, Nat.add_zero]
  | putCode _ _ code => rw [if_neg code, length_encOut_encAppend]

theorem length_encOut_le {i : Instr} {s t : State} (hx : exec i s = .next t) :
    t.encOut.length ≤ s.encOut.length + mostBytes i := by
  cases executes_of_exec hx with
  | putCode b =>
    have pending : s.enc.nbits.toNat < 8 := s.enc.nbits.isLt
    have code : (s.img.codeLookup b).len.toNat < 256 := (s.img.codeLookup b).len.isLt
    rw [length_encOut_encAppend, mostBytes]
    omega
  | encFlush =>
    rw [List.length_append, mostBytes]
    split <;> simp
  | _ => exact Nat.le_add_right _ _

theorem length_decOut_le {i : Instr} {s t : State} (hx : exec i s = .next t) :
    t.decOut.length ≤ s.decOut.length + mostSymbols i := by
  cases executes_of_exec hx with
  | decPut b =>
    rw [decWalk_decOut, List.length_append]
    exact Nat.add_le_add_left (Dec.length_walkBits s.img (byteBits b) s.dec) _
  | _ => exact Nat.le_add_right _ _

theorem length_rsp_le {i : Instr} {s t : State} (hx : exec i s = .next t) :
    t.rsp.length ≤ s.rsp.length + mostResponses i := by
  cases executes_of_exec hx with
  | romCode => exact (List.length_append ..).le
  | romNode => exact (List.length_append ..).le
  | romRoot => exact (List.length_append ..).le
  | stat => exact (List.length_append ..).le
  | _ => exact Nat.le_add_right _ _

/-- A step executes a command, or no waiting word spells one and no history grows. -/
theorem step_executes_or_is_silent {s t : State} (h : step s = .next t) :
    (∃ w ws i, s.cmdQueue = w :: ws ∧ decode w = .ok i ∧ exec i { s with cmdQueue := ws } = .next t) ∨
    ((∀ w ws i, s.cmdQueue = w :: ws → decode w ≠ .ok i) ∧
      t.encOut = s.encOut ∧ t.decOut = s.decOut ∧ t.rsp = s.rsp) := by
  rcases step_cases h with ⟨hq, rfl⟩ | command | ⟨w, ws, r, hq, hw, rfl⟩
  · exact .inr ⟨fun w ws i hq' => by simp [hq] at hq', rfl, rfl, rfl⟩
  · exact .inl command
  · refine .inr ⟨fun w' ws' i hq' => ?_, rfl, rfl, rfl⟩
    obtain ⟨rfl, -⟩ := List.cons.inj (hq.symm.trans hq')
    simp [hw]

/-- Settles O39: the histories grow by what the executed command appends, and by nothing when there is none. -/
theorem streamsOnlyGrowWithinBounds : Obligations.StreamsOnlyGrowWithinBounds := by
  unfold Obligations.StreamsOnlyGrowWithinBounds
  intro s t h
  obtain ⟨⟨e, d, r, he, hd, hr⟩, -⟩ := step_grows h
  refine ⟨e, d, r, he, hd, hr, ?_⟩
  rcases step_executes_or_is_silent h with ⟨w, ws, i, hq, hw, hx⟩ | ⟨noCommand, sameEnc, sameDec, sameRsp⟩
  · have bytes : e.length ≤ mostBytes i := by simpa [he] using length_encOut_le hx
    have symbols : d.length ≤ mostSymbols i := by simpa [hd] using length_decOut_le hx
    have responses : r.length ≤ mostResponses i := by simpa [hr] using length_rsp_le hx
    obtain ⟨most32, most8, most1, most⟩ := most_le i
    refine ⟨by omega, by omega, by omega, by omega, fun w' ws' hq' flush => ?_, fun w' ws' b hq' put running => ?_⟩
    · obtain ⟨rfl, -⟩ := List.cons.inj (hq.symm.trans hq')
      cases hw.symm.trans flush
      exact bytes
    · obtain ⟨rfl, -⟩ := List.cons.inj (hq.symm.trans hq')
      cases hw.symm.trans put
      have total := length_encOut_encPut (s := { s with cmdQueue := ws }) running hx
      rw [he, List.length_append] at total
      exact Nat.add_left_cancel total
  · obtain rfl : e = [] := by simpa [sameEnc] using he
    obtain rfl : d = [] := by simpa [sameDec] using hd
    obtain rfl : r = [] := by simpa [sameRsp] using hr
    exact ⟨by simp, by simp, by simp, by simp, fun _ _ _ => by simp,
      fun w ws b hq put => absurd put (noCommand w ws _ hq)⟩

/-! ### Reset -/

/-- Settles O1: the reset values are those of the definition, of ENC_INIT and of an empty decoder session. -/
theorem resetStateIsAllZero : Obligations.ResetStateIsAllZero := by
  unfold Obligations.ResetStateIsAllZero
  refine ⟨fun _ => ⟨rfl, rfl, rfl, rfl, rfl, rfl, rfl⟩, ?edge, ?encInit, ?decInit⟩
  case edge =>
    intro b i t inReset sameImage
    refine ⟨_, Bench.edge_reset inReset, ?_⟩
    rw [sameImage]
    rfl
  case encInit => exact fun s => ⟨_, exec_encInit s, rfl⟩
  case decInit =>
    intro s noTree
    refine ⟨_, exec_decInit 0#32 s, ?_⟩
    have invalid : s.img.rootLookup.valid = false := noTree
    simp [Dec.start_eq, invalid]

/-- Settles O11: at reset the group is empty, no symbol is owed and no walk has begun. -/
theorem resetMeetsTheInvariants : Obligations.ResetMeetsTheInvariants := by
  unfold Obligations.ResetMeetsTheInvariants
  intro img canonical
  exact ⟨(State.inv_iff _).2 ⟨Enc.fresh_inv, Dec.inv_of_none img 0#9, canonical⟩,
    fun _ _ owes => absurd rfl owes⟩

/-! ### The command a step executes -/

/-- Settles O7: a waiting word that decodes is taken out of the line and executed; with none waiting the step is idle. -/
theorem stepRunsTheDecodedCommand : Obligations.StepRunsTheDecodedCommand := by
  unfold Obligations.StepRunsTheDecodedCommand
  exact ⟨fun _ _ _ _ => step_command, fun _ => step_idle⟩

end Sys2Proof.Machine

/-! ## The encoding (30_encoding.md): command words, ROM fields and the ports -/

namespace Sys2Proof.Machine

/-! ### A command and its word -/

/-- Settles O5: the round trip of every command. -/
theorem encodedCommandDecodesToItself : Obligations.EncodedCommandDecodesToItself := by
  unfold Obligations.EncodedCommandDecodesToItself
  exact decode_encode

/-- Settles O6: OP and ARG of the command are those of the word, and a word is its OP and ARG put together. -/
theorem decodedCommandEncodesToItsWord : Obligations.DecodedCommandEncodesToItsWord := by
  unfold Obligations.DecodedCommandEncodesToItsWord
  intro w i h
  obtain ⟨f, hf, fits, hi⟩ := (decode_ok_iff w i).1 h
  obtain ⟨sameOp, sameArg⟩ := instrOf_ok _ _ i hi
  rw [encode, sameOp, sameArg f hf fits, op_append_arg]

/-- Settles O3: the decoder run on each of the seven words. -/
theorem writtenWordsDecode : Obligations.WrittenWordsDecode := by
  unfold Obligations.WrittenWordsDecode
  exact ⟨rfl, rfl, rfl, rfl, rfl, rfl, rfl⟩

/-! ### The opcode table -/

theorem legal_iff_row (w : CmdWord) : legal w = true ↔ ∃ r ∈ opTable, w &&& r.maskBits = r.matchBits := by
  simp [legal, OpRow.covers]

/-- No two rows ask for the same opcode. -/
theorem row_eq_of_op_eq {r r' : OpRow} (hr : r ∈ opTable) (hr' : r' ∈ opTable)
    (same : CmdWord.op r.matchBits = CmdWord.op r'.matchBits) : r = r' := by
  have distinct : (opTable.map fun r => CmdWord.op r.matchBits).Nodup := by decide
  exact List.inj_on_of_nodup_map distinct hr hr' same

/-- Each command has a row with its opcode and its name. -/
theorem row_of_instr (i : Instr) : ∃ r ∈ opTable, CmdWord.op r.matchBits = i.op ∧ r.mnemonic = i.mnemonic := by
  cases i <;> simp [opTable, CmdWord.op, Instr.op, Instr.mnemonic]

/-- Settles O4: legal words are those that decode, rows differ in their opcode, and a command's row has its opcode. -/
theorem decodeAcceptsExactlyTheTable : Obligations.DecodeAcceptsExactlyTheTable := by
  unfold Obligations.DecodeAcceptsExactlyTheTable
  refine ⟨fun w => (legal_iff_decodes w).symm.trans (legal_iff_row w), ?disjoint, ?name⟩
  case disjoint =>
    intro w r r' hr hr' covers covers'
    obtain ⟨-, -, -, op⟩ := (OpRow.covers_iff r hr w).1 covers
    obtain ⟨-, -, -, op'⟩ := (OpRow.covers_iff r' hr' w).1 covers'
    exact row_eq_of_op_eq hr hr' (op.symm.trans op')
  case name =>
    intro w i h
    obtain ⟨f, hf, fits, hi⟩ := (decode_ok_iff w i).1 h
    obtain ⟨r, hr, rowOp, name⟩ := row_of_instr i
    have sameOp : CmdWord.op w = CmdWord.op r.matchBits := (instrOf_ok _ _ i hi).1.symm.trans rowOp.symm
    exact ⟨r, hr, (OpRow.covers_iff r hr w).2 ⟨f, hf, fits, sameOp⟩, name⟩

/-! ### Illegal words -/

/-- The opcodes with no format are the reserved ones (30_encoding.md rule R82). -/
theorem formatOf_eq_none_iff (op : Opcode) :
    formatOf op = none ↔ op ∈ [0x0#4, 0x7#4, 0xB#4, 0xD#4, 0xE#4, 0xF#4] := by
  revert op
  decide

/-- A format refuses an argument for a must-be-zero bit that is 1 (30_encoding.md rule R73). -/
theorem accepts_eq_false_iff (f : Format) (arg : Arg) :
    f.accepts arg = false ↔ ∃ k, f.operandBits ≤ k ∧ k < 32 ∧ arg.getLsbD k = true := by
  rw [← Bool.not_eq_true, Format.accepts_iff]
  simp

/-- Settles O8: a word with no format, or that its format refuses, is illegal, and a step on one marks it. -/
theorem illegalWordOnlySetsCmdErr : Obligations.IllegalWordOnlySetsCmdErr := by
  unfold Obligations.IllegalWordOnlySetsCmdErr
  refine ⟨fun w => ?which, fun s w ws hq illegal => ?step⟩
  case which =>
    rw [← formatOf_eq_none_iff, ← Bool.not_eq_true, legal_iff]
    cases formatOf (CmdWord.op w) with
    | none => simp
    | some f => simp [← accepts_eq_false_iff]
  case step =>
    obtain ⟨r, hd⟩ := (legal_eq_false_iff w).1 illegal
    exact step_illegal hq hd

/-! ### Responses -/

/-- Settles O33: only the cases of the three lookups and STAT append to rsp. -/
theorem onlyLookupsAndStatRespond : Obligations.OnlyLookupsAndStatRespond := by
  unfold Obligations.OnlyLookupsAndStatRespond
  intro i s t hx
  split
  · rename_i responds
    rcases responds with ⟨b, rfl⟩ | ⟨k, rfl⟩ | rfl | rfl <;> cases hx <;> exact ⟨_, rfl⟩
  · rename_i silent
    cases executes_of_exec hx with
    | romCode b => exact absurd (.inl ⟨b, rfl⟩) silent
    | romNode k => exact absurd (.inr (.inl ⟨k, rfl⟩)) silent
    | romRoot => exact absurd (.inr (.inr (.inl rfl))) silent
    | stat => exact absurd (.inr (.inr (.inr rfl))) silent
    | _ => rfl

/-! ### The fields of an entry -/

/-- Bit `k` of a code is BITS[254 - k] (30_encoding.md rule R76). -/
theorem Image.getElem?_codeOf (img : Image) (x : Byte) {k : Nat} (hk : k < (img.codeLookup x).len.toNat) :
    (img.codeOf x)[k]? = some ((img.codeEntry x).getLsbD (254 - k)) := by
  have inCode : k < (img.codeLookup x).string.length := by rwa [CodeFields.length_string]
  have bit : (img.codeLookup x).bits.getLsbD (254 - k) = (img.codeEntry x).getLsbD (254 - k) := by
    have inBits : 254 - k < 255 := by omega
    simp [Image.codeLookup, codeFields, inBits]
  rw [Image.codeOf, List.getElem?_eq_getElem inCode, ← bit, ← CodeFields.getD_string _ k hk,
    List.getD_eq_getElem _ _ inCode]

/-- The child on a bit, from the raw bits of the entry: LV and LEFT on a 0, RV and RIGHT on a 1 (30_encoding.md rule R77). -/
theorem child_nodeLookup (img : Image) (i : NodeIdx) (bit : Bool) :
    (img.nodeLookup i).child bit =
      if (if bit = false then (img.nodeEntry i).getLsbD 19 else (img.nodeEntry i).getLsbD 9) = true then
        some (if bit = false then (img.nodeEntry i).extractLsb' 10 9 else (img.nodeEntry i).extractLsb' 0 9)
      else none := by
  cases bit <;> rfl

/-- Settles O53: every field by the definition of its lookup, code bits and children by their own lemmas. -/
theorem lookupsReadTheFieldsOfAnEntry : Obligations.LookupsReadTheFieldsOfAnEntry := by
  unfold Obligations.LookupsReadTheFieldsOfAnEntry
  refine ⟨fun img x => ?code, fun img i => ?node, fun img => ⟨rfl, rfl, rfl, rfl⟩⟩
  case code => exact ⟨rfl, rfl, CodeFields.length_string _, fun k => img.getElem?_codeOf x⟩
  case node =>
    refine ⟨rfl, rfl, rfl, rfl, rfl, rfl, rfl, fun j => ?_, fun j => ?_⟩ <;>
      rw [child_nodeLookup, Option.ite_none_right_eq_some, Option.some.injEq, eq_comm (b := j)] <;> rfl

/-- Bit 7 of a byte is read first (20_memory.md rule R50). -/
theorem byteBits_eq_cons (b : Byte) : byteBits b = b.getLsbD 7 :: (byteBits b).tail := rfl

/-- A running decoder that stops at the first bit drops the others. -/
theorem Dec.walkBits_cons_of_stops {img : Image} {d : Dec} {bit : Bool} (rest : List Bool) (running : d.stopped = false)
    (stops : (d.walkBit img bit).1.stopped = true) : Dec.walkBits img (bit :: rest) d = d.walkBit img bit := by
  rw [Dec.walkBits_cons _ _ _ _ running, Dec.walkBits_of_stopped _ _ _ stops, List.append_nil]

/-- DEC_PUT that stops at bit 7 does what that bit does. -/
theorem exec_decPut_of_stops {s : State} {b : Byte} {d : Dec} {out : List Byte} (running : s.dec.stopped = false)
    (first : s.dec.walkBit s.img (b.getLsbD 7) = (d, out)) (stops : d.stopped = true) :
    exec (.decPut b) s = .next { s with dec := d, decOut := s.decOut ++ out } := by
  rw [exec_decPut, State.decWalk, byteBits_eq_cons, Dec.walkBits_cons_of_stops _ running (by rwa [first]), first]
  rfl

/-- Settles O54: bit 7 reaches a leaf, and the session is done, or meets no child, and the decoder is faulted. -/
theorem aBitTakesTheLeftOrTheRightChild : Obligations.ABitTakesTheLeftOrTheRightChild := by
  unfold Obligations.ABitTakesTheLeftOrTheRightChild
  intro s b e valid c noFault he internal hvalid hc
  subst he
  have child : (s.img.nodeLookup s.dec.cur).child (b.getLsbD 7) = if valid then some c else none := by
    rw [child_nodeLookup, hvalid, hc]
  refine ⟨fun lastOwed isValid leaf => ?leaf, fun owed notValid => ?missing⟩
  case leaf =>
    rw [if_pos isValid] at child
    have owed : s.dec.produced ≠ s.dec.total := by
      rw [lastOwed]
      intro same
      bv_omega
    have running := (Dec.stopped_eq_false_iff _).2 ⟨noFault, owed⟩
    rw [exec_decPut_of_stops running (Dec.walkBit_toLeaf internal child leaf)
      ((Dec.stopped_eq_true_iff _).2 (.inr lastOwed.symm)), ← lastOwed]
    rfl
  case missing =>
    rw [if_neg (by simp [notValid])] at child
    have running := (Dec.stopped_eq_false_iff _).2 ⟨noFault, owed⟩
    have first := (Dec.walkBit_noChild internal child).trans (by rw [Dec.raise_noChild running])
    rw [exec_decPut_of_stops running first (Dec.stopped_noChild _), List.append_nil]
    rfl

/-! ### Reserved bits -/

/-- Two images agree on every field the units read (30_encoding.md rule R83). -/
structure Image.Agree (a b : Image) : Prop where
  len : ∀ x, (a.codeLookup x).len = (b.codeLookup x).len
  code : ∀ x, a.codeOf x = b.codeOf x
  leaf : ∀ k, a.isLeaf k = b.isLeaf k
  sym : ∀ k, a.isLeaf k = true → (a.nodeLookup k).sym = (b.nodeLookup k).sym
  child : ∀ k, a.isLeaf k = false → ∀ bit, (a.nodeLookup k).child bit = (b.nodeLookup k).child bit
  tree : a.hasTree = b.hasTree
  root : a.hasTree = true → a.rootIdx = b.rootIdx

section
variable {a b : Image} (h : a.Agree b)
include h

theorem Image.Agree.start_eq (n : Count) : Dec.start b.rootLookup n = Dec.start a.rootLookup n := by
  have tree : a.rootLookup.valid = b.rootLookup.valid := h.tree
  rw [Dec.start_eq, Dec.start_eq, ← tree]
  cases valid : a.rootLookup.valid with
  | false => rfl
  | true =>
    have root : a.rootLookup.idx = b.rootLookup.idx := h.root valid
    rw [root]

theorem Image.Agree.walkBit_eq (tree : a.hasTree = true) (d : Dec) (bit : Bool) : d.walkBit b bit = d.walkBit a bit := by
  rcases Dec.walkBit_cases a d bit with ⟨hb, hl | hc⟩ | ⟨j, hi, hc, hj, hb⟩ | ⟨j, hi, hc, hj, hb⟩ <;> rw [hb]
  · exact Dec.walkBit_leaf bit ((h.leaf _).symm.trans hl)
  · cases hl : a.isLeaf d.cur with
    | true => exact Dec.walkBit_leaf bit ((h.leaf _).symm.trans hl)
    | false => exact Dec.walkBit_noChild ((h.leaf _).symm.trans hl) ((h.child _ hl bit).symm.trans hc)
  · rw [Dec.walkBit_toLeaf ((h.leaf _).symm.trans hi) ((h.child _ hi bit).symm.trans hc) ((h.leaf _).symm.trans hj),
      h.root tree, h.sym j hj]
  · exact Dec.walkBit_toInternal ((h.leaf _).symm.trans hi) ((h.child _ hi bit).symm.trans hc)
      ((h.leaf _).symm.trans hj)

/-- With no tree the decoder must be stopped, for the walk returns to RIDX whatever RV_ROOT is. -/
theorem Image.Agree.walkBits_eq (bits : List Bool) (d : Dec) (noTree : a.hasTree = false → d.stopped = true) :
    Dec.walkBits b bits d = Dec.walkBits a bits d := by
  cases tree : a.hasTree with
  | false => rw [Dec.walkBits_of_stopped _ _ _ (noTree tree), Dec.walkBits_of_stopped _ _ _ (noTree tree)]
  | true =>
    clear noTree
    induction bits generalizing d with
    | nil => rfl
    | cons bit bits ih => simp only [Dec.walkBits, h.walkBit_eq tree, ih]

theorem Image.Agree.exec_encPut_withImage {x : Byte} {s t : State} (hx : exec (.encPut x) { s with img := a } = .next t) :
    exec (.encPut x) { s with img := b } = .next { t with img := b } := by
  rw [exec_encPut] at hx ⊢
  dsimp only at hx ⊢
  rw [← h.len, ← h.code]
  split_ifs at hx ⊢ <;> cases hx <;> rfl

/-- The units do the same on images that agree. -/
theorem Image.Agree.exec_withImage {i : Instr} {s t : State} (noTree : a.hasTree = false → s.dec.stopped = true)
    (unit : (∃ x, i = .encPut x) ∨ (∃ n, i = .decInit n) ∨ (∃ x, i = .decPut x) ∨ i = .decEnd)
    (hx : exec i { s with img := a } = .next t) : exec i { s with img := b } = .next { t with img := b } := by
  rcases unit with ⟨x, rfl⟩ | ⟨n, rfl⟩ | ⟨x, rfl⟩ | rfl
  · exact h.exec_encPut_withImage hx
  · cases hx
    rw [exec_decInit, h.start_eq]
  · cases hx
    rw [exec_decPut, State.decWalk, h.walkBits_eq _ _ noTree]
    rfl
  · rw [exec_decEnd] at hx ⊢
    dsimp only at hx ⊢
    split_ifs at hx ⊢ <;> cases hx <;> rfl

end

/-- Settles O40: the premises are agreement, and the units do the same on images that agree. -/
theorem reservedBitsChangeNothing : Obligations.ReservedBitsChangeNothing := by
  unfold Obligations.ReservedBitsChangeNothing
  intro a b s t i code node tree root noTree unit hx
  have agree : a.Agree b :=
    { len := fun x => (code x).1
      code := fun x => (code x).2
      leaf := fun k => (node k).1
      sym := fun k => (node k).2.1
      child := fun k => (node k).2.2
      tree := tree
      root := root }
  exact agree.exec_withImage (t := { t with img := a }) noTree unit hx

/-! ### The ports -/

/-- Settles O52: an edge in reset answers, and one out of reset answers unless it is refused for one of the two reasons. -/
theorem edgeAnswersWhereTheHostKeepsToTheRules : Obligations.EdgeAnswersWhereTheHostKeepsToTheRules := by
  unfold Obligations.EdgeAnswersWhereTheHostKeepsToTheRules
  intro b i t
  rw [← Bench.hostHolds_iff]
  cases inReset : i.rstN with
  | false => simp [Bench.edge_reset inReset]
  | true =>
    rcases Bench.edge_cases i t b inReset with ⟨image, hx⟩ | ⟨image, holds, hx⟩ | ⟨image, holds, s, -, hx⟩
    · simp [hx, Option.isSome_iff_ne_none.1 image]
    · simp [hx, holds]
    · simp [hx, image, holds]

section
variable {b : Bench} {i : PortsIn} (t : Timing) (out : i.rstN = true)
include out

/-- A word is accepted, last in line, exactly where valid and ready are both 1 (30_encoding.md rule R71). -/
theorem Bench.accepted_eq :
    b.accepted i t = { b.state with cmdQueue :=
      if i.cmdValid = true ∧ t.cmdReady = true then b.state.cmdQueue ++ [i.cmd] else b.state.cmdQueue } := by
  have moves : transfers i.cmdValid (b.outputs i t).cmdReady i.rstN = true ↔ i.cmdValid = true ∧ t.cmdReady = true := by
    simp [transfers, Bench.outputs, out]
  simp only [Bench.accepted, moves]
  split <;> rfl

/-- A word offered and not accepted is the one the host must go on offering. -/
theorem Bench.heldAfter_of_not_ready (valid : i.cmdValid = true) (notReady : t.cmdReady = false) :
    b.heldAfter i t = some i.cmd := by
  simp [Bench.heldAfter, Bench.outputs, transfers, out, valid, notReady]

/-- What the outputs offer out of reset. -/
theorem Bench.outputs_eq :
    (b.outputs i t).encOut = b.enc.offer t.encOffer b.state.encOut ∧
      (b.outputs i t).decOut = b.dec.offer t.decOffer b.state.decOut ∧
      (b.outputs i t).rsp = b.rsp.offer t.rspOffer b.state.rsp := by
  simp [Bench.outputs, out]

end

/-- What one channel does at an edge out of reset at which its history grows: the offer is the oldest element not taken, one
is taken exactly at a transfer, and an offer not taken stays. -/
theorem Channel.loses_nothing {α : Type} {history later : List α} {c : Channel} (choice choice' ready : Bool)
    (inHistory : c.taken ≤ history.length) :
    (c.after (c.offer choice history) ready true).taken ≤ (history ++ later).length ∧
      (∀ x, c.offer choice history = some x → history[c.taken]? = some x) ∧
      ((c.after (c.offer choice history) ready true).taken =
        if (c.offer choice history).isSome ∧ ready = true then c.taken + 1 else c.taken) ∧
      keepsOffer (c.offer choice history)
        ((c.after (c.offer choice history) ready true).offer choice' (history ++ later)) ready := by
  refine ⟨Channel.taken_after_le inHistory, fun x => Channel.getElem_of_offer, ?_, Channel.offer_held⟩
  rw [Channel.taken_after]
  simp [transfers]

/-- A host that withdraws or changes a word not yet accepted is refused (30_encoding.md rule R71). -/
theorem Bench.edge_withdrawn {b : Bench} {i : PortsIn} (t : Timing) {w : CmdWord} (out : i.rstN = true)
    (noImage : i.newImage = none) (held : b.cmdHeld = some w) (changed : i.cmdValid = false ∨ i.cmd ≠ w) :
    b.edge i t = .refused .commandWithdrawn := by
  have breaks : b.hostHolds i ≠ true := by
    intro holds
    obtain ⟨valid, same⟩ := (Bench.hostHolds_iff i b).1 holds w held
    rcases changed with invalid | other
    · exact absurd (valid.symm.trans invalid) (by decide)
    · exact other same
  rcases Bench.edge_cases i t b out with ⟨image, -⟩ | ⟨-, -, hx⟩ | ⟨-, holds, -⟩
  · simp [noImage] at image
  · exact hx
  · exact absurd holds breaks

/-- Settles O41: the run works off the line and appends to the histories, and each channel loses nothing. -/
theorem portsLoseNothing : Obligations.PortsLoseNothing := by
  unfold Obligations.PortsLoseNothing
  intro b b' i i' t t' out out' encIn decIn rspIn hx
  rcases Bench.edge_cases i t b out with ⟨-, hx'⟩ | ⟨-, -, hx'⟩ | ⟨-, -, s, hrun, hx'⟩
  · exact absurd (hx.symm.trans hx') (by simp)
  · exact absurd (hx.symm.trans hx') (by simp)
  · obtain rfl : b' = b.moved i t s := by simpa using hx.symm.trans hx'
    obtain ⟨⟨e, d, r, he, hd, hr⟩, hq⟩ := run_grows hrun
    rw [Bench.accepted_eq t out] at hrun he hd hr hq
    obtain ⟨encOut, decOut, rspOut⟩ := Bench.outputs_eq (b := b) t out
    obtain ⟨encOut', decOut', rspOut'⟩ := Bench.outputs_eq (b := b.moved i t s) t' out'
    rw [encOut', decOut', rspOut']
    simp only [Bench.moved, encOut, decOut, rspOut, out, he, hd, hr]
    obtain ⟨encTaken, encFirst, encMoves, encKeeps⟩ :=
      Channel.loses_nothing (later := e) t.encOffer t'.encOffer i.encReady encIn
    obtain ⟨decTaken, decFirst, decMoves, decKeeps⟩ :=
      Channel.loses_nothing (later := d) t.decOffer t'.decOffer i.decReady decIn
    obtain ⟨rspTaken, rspFirst, rspMoves, rspKeeps⟩ :=
      Channel.loses_nothing (later := r) t.rspOffer t'.rspOffer i.rspReady rspIn
    refine ⟨hq, hrun, ⟨e, d, r, rfl, rfl, rfl⟩, ⟨encTaken, decTaken, rspTaken⟩, encFirst, decFirst, rspFirst, encMoves,
      decMoves, rspMoves, encKeeps, decKeeps, rspKeeps, fun valid notReady noImage changed => ?_⟩
    exact Bench.edge_withdrawn t' out' noImage (Bench.heldAfter_of_not_ready t out valid notReady) changed

end Sys2Proof.Machine

/-! ## The ROM tables (40_tree_rom_lookup.md, 44_rom_image_construction.md): the lookups, codes and shapes of a well-formed
image, the round trip, and the image built from a frequency model -/

namespace Sys2Proof.Machine

/-! ### The lookups -/

/-- Zero-extension puts zero bits above the value. -/
theorem setWidth_eq_zero_append {w : Nat} (n : Nat) (x : BitVec w) : x.setWidth (n + w) = 0#n ++ x := by
  ext k hk
  rw [BitVec.getElem_setWidth, BitVec.getElem_append]
  split
  · exact BitVec.getLsbD_eq_getElem _
  · rw [BitVec.getLsbD_of_ge _ _ (by omega), BitVec.getElem_zero]

/-- Settles O30: the response's data are the entry under zero bits, whose fields are those of the lookup. -/
theorem lookupsAnswerWithTheEntry : Obligations.LookupsAnswerWithTheEntry := by
  unfold Obligations.LookupsAnswerWithTheEntry
  refine ⟨fun s b => ⟨0#1 ++ s.img.codeEntry b, ?code, ?len, ?bits, ?top⟩, fun s i => ?node, fun s => ?root⟩
  case code => rw [exec_romCode, setWidth_eq_zero_append 1]; rfl
  case len => exact extractLsb'_append_low _ _ _ _ (by decide)
  case bits => exact extractLsb'_append_low _ _ _ _ (by decide)
  case top => rw [getLsbD_append_high _ _ _ (by decide), BitVec.getLsbD_zero]
  case node => rw [exec_romNode, setWidth_eq_zero_append 243]; rfl
  case root => rw [exec_romRoot, setWidth_eq_zero_append 254]; rfl

/-! ### Leaves and codes -/

/-- No path goes on from a leaf. -/
theorem Image.Path.eq_nil_of_leaf {img : Image} {i j : NodeIdx} {p : List Bool} (path : img.Path i p j)
    (leaf : img.isLeaf i = true) : p = [] := by
  by_contra more
  exact absurd (leaf.symm.trans (path.internal_of_ne_nil more)) (by decide)

/-- A path from one leaf's path on is that leaf's own path (40_tree_rom_lookup.md rule R108 (3)). -/
theorem Image.LeafAt.eq_of_append {img : Image} {i j : NodeIdx} {p q : List Bool} (front : img.LeafAt p i)
    (whole : img.LeafAt (p ++ q) j) : i = j := by
  obtain ⟨-, toFront, leaf⟩ := front
  obtain ⟨-, toWhole, -⟩ := whole
  obtain ⟨k, toK, rest⟩ := Image.path_append_iff.1 toWhole
  cases toFront.unique toK
  cases rest.eq_nil_of_leaf leaf
  exact Image.path_nil_iff.1 rest

/-- A zero entry has LEN zero. -/
theorem Image.len_of_codeEntry_zero {img : Image} {x : Byte} (zero : img.codeEntry x = 0) : (img.codeLookup x).len = 0#8 := by
  simp [Image.codeLookup, codeFields, zero]

theorem Image.hasCode_iff_length_pos {img : Image} {x : Byte} : img.HasCode x ↔ 1 ≤ (img.codeOf x).length := by
  rw [Image.codeOf, CodeFields.length_string, Nat.one_le_iff_ne_zero]
  exact not_congr BitVec.toNat_inj.symm

/-- Under WF the symbols with codes are those of the leaves (40_tree_rom_lookup.md rule R106 clause (e)). -/
theorem Image.WF.hasCode_iff {img : Image} (wf : img.WF) {x : Byte} :
    img.HasCode x ↔ ∃ p i, img.LeafAt p i ∧ (img.nodeLookup i).sym = x := by
  constructor
  · intro code
    obtain ⟨i, leaf, sym⟩ := wf.leaf_of_hasCode code
    exact ⟨_, i, leaf, sym⟩
  · rintro ⟨p, i, leaf, rfl⟩
    obtain ⟨-, code, -⟩ := wf.codeOfLeaf p i leaf
    rw [Image.hasCode_iff_length_pos, Image.codeOf, code]
    exact List.length_pos_iff.2 (wf.path_ne_nil leaf)

/-- Under WF a symbol that is no leaf's has LEN zero. -/
theorem Image.WF.len_of_no_leaf {img : Image} (wf : img.WF) {x : Byte}
    (noLeaf : ∀ p i, img.LeafAt p i → (img.nodeLookup i).sym ≠ x) : (img.codeLookup x).len = 0#8 :=
  Image.len_of_codeEntry_zero (wf.noOtherCode x noLeaf)

/-- Under WF leaves with the same symbol have the same path. -/
theorem Image.WF.path_eq_of_sym_eq {img : Image} (wf : img.WF) {p q : List Bool} {i j : NodeIdx} (hp : img.LeafAt p i)
    (hq : img.LeafAt q j) (same : (img.nodeLookup i).sym = (img.nodeLookup j).sym) : p = q := by
  cases wf.symbolsDistinct p q i j hp hq same
  exact wf.tree hp.1 p q i hp.2.1 hq.2.1

/-- Settles O42: a code ends at its symbol's leaf, and no path goes on from there. -/
theorem codesArePrefixFree : Obligations.CodesArePrefixFree := by
  unfold Obligations.CodesArePrefixFree
  rintro img x y wf hx hy ⟨rest, whole⟩
  obtain ⟨i, leafX, rfl⟩ := wf.leaf_of_hasCode hx
  obtain ⟨j, leafY, rfl⟩ := wf.leaf_of_hasCode hy
  rw [← whole] at leafY
  rw [leafX.eq_of_append leafY]

/-! ### The shapes of tree -/

theorem Image.shape_eq_empty_iff (img : Image) : img.shape = .empty ↔ img.hasTree = false := by
  unfold Image.shape
  split_ifs <;> simp_all

theorem Image.shape_eq_binary_iff (img : Image) :
    img.shape = .binary ↔ img.hasTree = true ∧ img.TwoChildren img.rootIdx := by
  unfold Image.shape Image.TwoChildren
  split_ifs <;> simp_all

theorem Image.shape_eq_singleLeaf_iff (img : Image) :
    img.shape = .singleLeaf ↔ img.hasTree = true ∧ ¬ img.TwoChildren img.rootIdx := by
  unfold Image.shape Image.TwoChildren
  split_ifs <;> simp_all

theorem Image.OneLeafOn.not_twoChildren {img : Image} {bit : Bool} (one : img.OneLeafOn bit) :
    ¬ img.TwoChildren img.rootIdx := by
  intro two
  obtain ⟨j, -, missing, -⟩ := one
  obtain ⟨k, child⟩ := two.child (!bit)
  exact absurd (missing.symm.trans child) (by simp)

/-- In the one-leaf tree the only path that leaves the root goes to that leaf. -/
theorem Image.OneLeafOn.path_eq {img : Image} {bit : Bool} (one : img.OneLeafOn bit) {p : List Bool} {i : NodeIdx}
    (moved : p ≠ []) (path : img.Path img.rootIdx p i) : p = [bit] := by
  obtain ⟨j, child, missing, leafJ⟩ := one
  cases p with
  | nil => exact absurd rfl moved
  | cons b q =>
    obtain ⟨-, k, childK, rest⟩ := Image.path_cons_iff.1 path
    have same : b = bit := by
      by_contra apart
      rw [Bool.eq_not_of_ne apart, missing] at childK
      cases childK
    subst same
    cases child.symm.trans childK
    rw [rest.eq_nil_of_leaf leafJ]

theorem Image.OneLeafOn.exists_leaf {img : Image} {bit : Bool} (one : img.OneLeafOn bit) (tree : img.hasTree = true)
    (internal : img.isLeaf img.rootIdx = false) : ∃ i, img.LeafAt [bit] i := by
  obtain ⟨j, child, -, leaf⟩ := one
  exact ⟨j, tree, .edge internal child (.here j), leaf⟩

/-- Under WF the only tree whose root lacks a child is the one-leaf tree. -/
theorem Image.WF.oneLeafOn {img : Image} (wf : img.WF) (shape : img.shape = .singleLeaf) : ∃ bit, img.OneLeafOn bit := by
  obtain ⟨tree, notTwo⟩ := img.shape_eq_singleLeaf_iff.1 shape
  rcases wf.arity tree with two | one
  · exact absurd (two [] _ (.here _) wf.rootInternal) notTwo
  · exact one

/-- Under WF a tree whose root has two children has two at every internal node. -/
theorem Image.WF.twoChildren {img : Image} (wf : img.WF) (shape : img.shape = .binary) :
    ∀ p i, img.Path img.rootIdx p i → img.isLeaf i = false → img.TwoChildren i := by
  obtain ⟨tree, two⟩ := img.shape_eq_binary_iff.1 shape
  rcases wf.arity tree with all | ⟨bit, one⟩
  · exact all
  · exact absurd two one.not_twoChildren

/-- In a binary tree there is a leaf on either side of the root. -/
theorem Image.WF.exists_leaf_on_side {img : Image} (wf : img.WF) (shape : img.shape = .binary) (side : Bool) :
    ∃ p i, img.LeafAt (side :: p) i := by
  obtain ⟨tree, two⟩ := img.shape_eq_binary_iff.1 shape
  obtain ⟨j, child⟩ := two.child side
  obtain ⟨n, i, -, leaf⟩ := wf.leaf_on tree (wf.twoChildren shape) (.edge wf.rootInternal child (.here j))
    (List.replicate 512 side) (by rw [List.length_replicate])
  exact ⟨_, i, leaf⟩

/-- Settles O47: each shape says how many children the root has, and under WF the codes are the leaves' paths. -/
theorem shapesAndTheirCodes : Obligations.ShapesAndTheirCodes := by
  unfold Obligations.ShapesAndTheirCodes
  intro img wf
  refine ⟨img.shape_eq_empty_iff, fun shape x => ?empty, fun shape => ?singleLeaf, fun shape => ?binary⟩
  case empty =>
    have noTree := img.shape_eq_empty_iff.1 shape
    exact wf.len_of_no_leaf fun p i leaf => absurd (leaf.1.symm.trans noTree) (by decide)
  case singleLeaf =>
    obtain ⟨tree, -⟩ := img.shape_eq_singleLeaf_iff.1 shape
    obtain ⟨bit, one⟩ := wf.oneLeafOn shape
    obtain ⟨i, leaf⟩ := one.exists_leaf tree wf.rootInternal
    refine ⟨tree, wf.rootInternal, ⟨bit, one⟩, (img.nodeLookup i).sym, ?_, fun y other => ?_⟩
    · obtain ⟨len, -, -⟩ := wf.codeOfLeaf _ i leaf
      exact BitVec.eq_of_toNat_eq len
    · refine wf.len_of_no_leaf fun p j leafJ sym => other ?_
      cases one.path_eq (wf.path_ne_nil leafJ) leafJ.2.1
      rw [← sym, leaf.2.1.unique leafJ.2.1]
  case binary =>
    obtain ⟨tree, two⟩ := img.shape_eq_binary_iff.1 shape
    obtain ⟨p, i, left⟩ := wf.exists_leaf_on_side shape false
    obtain ⟨q, j, right⟩ := wf.exists_leaf_on_side shape true
    refine ⟨tree, wf.rootInternal, two, _, _, fun same => ?_, wf.hasCode_iff.2 ⟨_, i, left, rfl⟩,
      wf.hasCode_iff.2 ⟨_, j, right, rfl⟩⟩
    exact absurd (wf.path_eq_of_sym_eq left right same) (by simp)

/-! ### Every walk ends -/

/-- In a binary tree any 255 bits followed from the root meet a leaf: with more bits after them they do within 512, and no
path to a leaf has more than 255. -/
theorem Image.WF.leaf_within_255 {img : Image} (wf : img.WF) (shape : img.shape = .binary) {bits : List Bool}
    (long : 255 ≤ bits.length) : ∃ n i, n ≤ 255 ∧ img.LeafAt (bits.take n) i := by
  obtain ⟨tree, -⟩ := img.shape_eq_binary_iff.1 shape
  obtain ⟨n, i, most, leaf⟩ := wf.leaf_on tree (wf.twoChildren shape) (.here _) (bits ++ List.replicate 512 false)
    (by rw [List.length_append, List.length_replicate]; omega)
  have short := wf.length_path leaf
  rw [List.nil_append] at leaf
  simp only [List.nil_append, List.length_take, List.length_append, List.length_replicate] at short
  rw [List.take_append_of_le_length (by omega)] at leaf
  exact ⟨n, i, by omega, leaf⟩

/-- Settles O46: a binary tree's walk meets a leaf within 255 bits; in the one-leaf tree the first bit decides. -/
theorem walkMeetsALeafWithin255Bits : Obligations.WalkMeetsALeafWithin255Bits := by
  unfold Obligations.WalkMeetsALeafWithin255Bits
  intro img wf
  refine ⟨fun x code => ⟨Image.hasCode_iff_length_pos.1 code, ?_⟩, fun tree bits long => ?_⟩
  · obtain ⟨i, leaf, -⟩ := wf.leaf_of_hasCode code
    exact wf.length_path leaf
  · have ne_zero : ∀ {n i}, img.LeafAt (bits.take n) i → 1 ≤ n := fun leaf =>
      Nat.one_le_iff_ne_zero.2 fun zero => wf.path_ne_nil leaf (by rw [zero, List.take_zero])
    cases shape : img.shape with
    | empty => exact absurd (tree.symm.trans (img.shape_eq_empty_iff.1 shape)) (by decide)
    | binary =>
      obtain ⟨n, i, most, leaf⟩ := wf.leaf_within_255 shape long
      exact .inl ⟨n, i, ne_zero leaf, most, leaf⟩
    | singleLeaf =>
      obtain ⟨bit, one⟩ := wf.oneLeafOn shape
      cases bits with
      | nil => exact absurd long (by simp)
      | cons b rest =>
        by_cases same : b = bit
        · obtain ⟨i, leaf⟩ := one.exists_leaf tree wf.rootInternal
          exact .inl ⟨1, i, Nat.le_refl 1, by decide, by rwa [List.take_succ_cons, List.take_zero, same]⟩
        · obtain ⟨-, -, missing, -⟩ := one
          exact .inr ⟨rfl, b, rest, rfl, by rwa [Bool.eq_not_of_ne same]⟩

/-! ### The round trip -/

/-- An encoder session's bytes are the artifact of its symbols' codes (41_bit_stream_encoder.md rule R124). -/
theorem execAll_compressCommands {s : State} {ss : List Byte} (codes : ∀ x ∈ ss, s.img.HasCode x) :
    execAll (compressCommands ss) s =
      .next { s with enc := Enc.fresh, encOut := s.encOut ++ artifact (s.img.codesOf ss) } := by
  have puts := execAll_encPut ss { s with enc := Enc.fresh } rfl codes
  rw [compressCommands, List.append_assoc, List.singleton_append, execAll_cons_next (exec_encInit s),
    execAll_append_next puts, execAll_cons_next (exec_encFlush_encAppend _ _ rfl), execAll_nil]

/-- A decoder session: its bytes' bits walk from the fresh start, and DEC_END looks at the count. -/
theorem execAll_decompressCommands (s : State) (n : Count) (bs : List Byte) :
    execAll (decompressCommands n bs) s =
      exec .decEnd (State.decWalk { s with dec := Dec.start s.img.rootLookup n } (bs.flatMap byteBits)) := by
  rw [decompressCommands, List.append_assoc, List.singleton_append, execAll_cons_next (exec_decInit n s),
    execAll_append_next (execAll_decPut bs _)]
  obtain ⟨_, _, _, _, _, done⟩ := exec_changes .decEnd
    (State.decWalk { s with dec := Dec.start s.img.rootLookup n } (bs.flatMap byteBits))
  rw [execAll_cons_next done, done, execAll_nil]

/-- DEC_END of a session that emitted its count without a fault changes nothing. -/
theorem exec_decEnd_of_done {s : State} (done : s.dec.produced = s.dec.total) : exec .decEnd s = .next s := by
  rw [exec_decEnd, if_neg fun short => short.2 done]

/-- A symbol with a code needs a tree. -/
theorem Image.WF.tree_of_hasCode {img : Image} (wf : img.WF) {x : Byte} (code : img.HasCode x) : img.hasTree = true := by
  obtain ⟨_, ⟨tree, -, -⟩, -⟩ := wf.leaf_of_hasCode code
  exact tree

/-- The registers of a decoder session at its start, if it can run: a tree, or nothing to decode. -/
theorem Dec.start_of_runs {img : Image} {n : Count} (runs : img.hasTree = true ∨ n = 0#32) :
    Dec.start img.rootLookup n =
      { total := n, produced := 0#32, cur := if img.hasTree then img.rootIdx else 0#9, fault := 0#2 } := by
  have clear : ¬ (img.rootLookup.valid = false ∧ n ≠ 0#32) := by
    rintro ⟨noTree, counted⟩
    exact runs.elim (fun tree => absurd (tree.symm.trans noTree) (by decide)) counted
  rw [Dec.start_eq, if_neg clear]
  rfl

/-- A session's count of symbols, whose codes come first, brings them all out; bits after them are not read. -/
theorem walkBits_session {img : Image} (wf : img.WF) {ss : List Byte} (codes : ∀ x ∈ ss, img.HasCode x)
    (short : ss.length < 2 ^ 32) (rest : List Bool) :
    Dec.walkBits img (img.codesOf ss ++ rest) (Dec.start img.rootLookup (BitVec.ofNat 32 ss.length)) =
      ({ total := BitVec.ofNat 32 ss.length, produced := BitVec.ofNat 32 ss.length
         cur := if img.hasTree then img.rootIdx else 0#9, fault := 0#2 }, ss) := by
  have stopsAt : ∀ d : Dec, d.produced = d.total → ∀ bits, Dec.walkBits img bits d = (d, []) := fun d done bits =>
    Dec.walkBits_of_stopped _ _ _ ((Dec.stopped_eq_true_iff d).2 (.inr done))
  cases tree : img.hasTree with
  | true =>
    rw [Dec.start_of_runs (.inl tree), tree, if_pos rfl, Dec.walkBits_append,
      walkBits_codes wf ss codes _ rfl rfl (by simp; omega), stopsAt _ (BitVec.zero_add _), List.append_nil,
      BitVec.zero_add]
  | false =>
    cases ss with
    | nil => rw [List.length_nil, Dec.start_of_runs (n := BitVec.ofNat 32 0) (.inr rfl), stopsAt _ rfl, tree]
    | cons x xs => exact absurd (tree.symm.trans (wf.tree_of_hasCode (codes x List.mem_cons_self))) (by decide)

/-- Settles O43: the encoder's bytes are the codes and padding, the codes bring the symbols out, the padding is not read. -/
theorem roundTripUnderWellFormedImage : Obligations.RoundTripUnderWellFormedImage := by
  unfold Obligations.RoundTripUnderWellFormedImage
  intro s ss wf codes short
  refine ⟨artifact (s.img.codesOf ss), execAll_compressCommands codes, ?_⟩
  obtain ⟨pad, bits⟩ := flatMap_byteBits_artifact (s.img.codesOf ss)
  have walk := walkBits_session wf codes short (List.replicate pad false)
  rw [← bits] at walk
  refine ⟨_, (execAll_decompressCommands s _ _).trans (exec_decEnd_of_done ?_), ?_⟩
  · rw [decWalk_dec, walk]
  · rw [decWalk_decOut, decWalk_dec, walk]
    refine ⟨rfl, rfl, rfl, rfl, fun nonempty => ?_⟩
    obtain ⟨x, mem⟩ := List.exists_mem_of_ne_nil ss nonempty
    exact if_pos (wf.tree_of_hasCode (codes x mem))

/-! ### What makes a built image well-formed -/

/-- `pathOf` gives each leaf's symbol the leaf's path and no path to any other symbol, and CODE holds these paths
(44_rom_image_construction.md rule R178). -/
structure Image.Assigns (img : Image) (pathOf : Byte → Option (List Bool)) : Prop where
  leaf_iff : ∀ x p, pathOf x = some p ↔ ∃ i, img.LeafAt p i ∧ (img.nodeLookup i).sym = x
  short : ∀ x p, pathOf x = some p → p.length ≤ 255
  entry : ∀ x, img.codeEntry x = (pathOf x).elim 0 mkCode

/-- Codes assigned by the leaves' paths meet clauses (d) and (e) of WF. -/
theorem Image.Assigns.wf {img : Image} {pathOf : Byte → Option (List Bool)} (assigns : img.Assigns pathOf)
    (tree : img.hasTree = true → ∀ p q i, img.Path img.rootIdx p i → img.Path img.rootIdx q i → p = q)
    (rootInternal : img.isLeaf img.rootIdx = false)
    (arity : img.hasTree = true →
      (∀ p i, img.Path img.rootIdx p i → img.isLeaf i = false → img.TwoChildren i) ∨ ∃ bit, img.OneLeafOn bit) :
    img.WF where
  tree := tree
  rootInternal := rootInternal
  arity := arity
  symbolsDistinct p q i j hp hq same := by
    have toP := (assigns.leaf_iff _ p).2 ⟨i, hp, rfl⟩
    have toQ := (assigns.leaf_iff _ q).2 ⟨j, hq, same.symm⟩
    cases toP.symm.trans toQ
    exact hp.2.1.unique hq.2.1
  codeOfLeaf p i hp := by
    have toP := (assigns.leaf_iff _ p).2 ⟨i, hp, rfl⟩
    rw [Image.CodeIs, Image.codeLookup, assigns.entry, toP]
    exact codeFields_mkCode p (assigns.short _ p toP)
  noOtherCode x noLeaf := by
    rw [assigns.entry]
    cases toP : pathOf x with
    | none => rfl
    | some p =>
      obtain ⟨i, leaf, sym⟩ := (assigns.leaf_iff x p).1 toP
      exact absurd sym (noLeaf p i leaf)

theorem Image.Assigns.hasCode_iff {img : Image} {pathOf : Byte → Option (List Bool)} (assigns : img.Assigns pathOf)
    (wf : img.WF) (x : Byte) : img.HasCode x ↔ (pathOf x).isSome = true := by
  rw [wf.hasCode_iff, Option.isSome_iff_exists]
  exact exists_congr fun p => (assigns.leaf_iff x p).symm

/-- An entry that is not listed is that of an internal node with no child. -/
theorem mkInternal_none_none : mkInternal none none = 0 := by decide

/-- The entries that builders write have zero reserved bits (30_encoding.md rule R77). -/
theorem Image.reservedZero_of_entries {img : Image}
    (entries : ∀ i, (∃ x, img.nodeEntry i = mkLeaf x) ∨ ∃ l r, img.nodeEntry i = mkInternal l r)
    (root : img.hasTree = false → img.rootIdx = 0#9)
    (unreachable : ∀ i, (img.hasTree = true → ∀ p, ¬ img.Path img.rootIdx p i) → img.nodeEntry i = 0) :
    img.ReservedZero := by
  have internal : ∀ i, img.isLeaf i = false → ∃ l r, img.nodeEntry i = mkInternal l r := fun i notLeaf =>
    (entries i).resolve_left fun ⟨x, leaf⟩ => by
      rw [Image.isLeaf, Image.nodeLookup, leaf, leaf_mkLeaf] at notLeaf
      cases notLeaf
  refine ⟨fun i isLeaf => ?leaf, fun i notLeaf noLeft => ?left, fun i notLeaf noRight => ?right, root, unreachable⟩
  case leaf =>
    rcases entries i with ⟨x, leaf⟩ | ⟨l, r, entry⟩
    · rw [leaf, reserved_mkLeaf]
    · rw [Image.isLeaf, Image.nodeLookup, entry, leaf_mkInternal] at isLeaf
      cases isLeaf
  case left =>
    obtain ⟨l, r, entry⟩ := internal i notLeaf
    rw [Image.nodeLookup, entry, lv_mkInternal, Option.isSome_eq_false_iff, Option.isNone_iff_eq_none] at noLeft
    rw [Image.nodeLookup, entry, left_mkInternal, noLeft, Option.getD_none]
  case right =>
    obtain ⟨l, r, entry⟩ := internal i notLeaf
    rw [Image.nodeLookup, entry, rv_mkInternal, Option.isSome_eq_false_iff, Option.isNone_iff_eq_none] at noRight
    rw [Image.nodeLookup, entry, right_mkInternal, noRight, Option.getD_none]

/-- A root over one leaf is reached by the empty path only, and its leaf by one bit. -/
theorem Image.OneLeafOn.path_unique {img : Image} {bit : Bool} (one : img.OneLeafOn bit)
    (internal : img.isLeaf img.rootIdx = false) {p q : List Bool} {i : NodeIdx} (hp : img.Path img.rootIdx p i)
    (hq : img.Path img.rootIdx q i) : p = q := by
  have noLoop : ¬ img.Path img.rootIdx [bit] img.rootIdx := by
    intro loop
    obtain ⟨j, child, -, leaf⟩ := one
    cases loop.unique (.edge internal child (.here j))
    exact absurd (leaf.symm.trans internal) (by decide)
  by_cases hp0 : p = [] <;> by_cases hq0 : q = []
  · rw [hp0, hq0]
  · subst hp0
    cases Image.path_nil_iff.1 hp
    exact absurd (one.path_eq hq0 hq ▸ hq) noLoop
  · subst hq0
    cases Image.path_nil_iff.1 hq
    exact absurd (one.path_eq hp0 hp ▸ hp) noLoop
  · rw [one.path_eq hp0 hp, one.path_eq hq0 hq]

/-! ### The empty and the one-symbol model -/

theorem hasTree_of_root {img : Image} {i : NodeIdx} (root : img.root = mkRoot i) : img.hasTree = true := by
  rw [Image.hasTree, Image.rootLookup, root, rootFields_mkRoot]

theorem rootIdx_of_root {img : Image} {i : NodeIdx} (root : img.root = mkRoot i) : img.rootIdx = i := by
  rw [Image.rootIdx, Image.rootLookup, root, rootFields_mkRoot]

/-- The Code Generator at a leaf. -/
theorem codesFrom_of_leaf {img : Image} {i : NodeIdx} (fuel : Nat) (p : List Bool) (code : Memory 263)
    (leaf : img.isLeaf i = true) :
    codesFrom img (fuel + 1) i p code = code.write (img.nodeLookup i).sym.toNat (mkCode p) := by
  rw [codesFrom]
  exact if_pos leaf

/-- The Code Generator at an internal node with no right child. -/
theorem codesFrom_of_leftOnly {img : Image} {i j : NodeIdx} (fuel : Nat) (p : List Bool) (code : Memory 263)
    (internal : img.isLeaf i = false) (left : (img.nodeLookup i).child false = some j)
    (right : (img.nodeLookup i).child true = none) :
    codesFrom img (fuel + 1) i p code = codesFrom img fuel j (p ++ [false]) code := by
  rw [Image.isLeaf] at internal
  rw [codesFrom]
  simp only [internal, left, right, Bool.false_eq_true, if_false]

/-- What is claimed of an image built for the symbols `ss` (44_rom_image_construction.md rule R179). -/
structure Image.BuiltFor (img : Image) (ss : List Byte) : Prop where
  wf : img.WF
  reservedZero : img.ReservedZero
  canonical : img.canonical = true
  hasCode_iff : ∀ x, img.HasCode x ↔ x ∈ ss

/-- Codes assigned by the leaves' paths, to the symbols `ss` and no others. -/
theorem Image.Assigns.builtFor {img : Image} {pathOf : Byte → Option (List Bool)} {ss : List Byte}
    (assigns : img.Assigns pathOf) (wf : img.WF) (reservedZero : img.ReservedZero) (canonical : img.canonical = true)
    (assigned : ∀ x, (pathOf x).isSome = true ↔ x ∈ ss) : img.BuiltFor ss :=
  { wf := wf
    reservedZero := reservedZero
    canonical := canonical
    hasCode_iff := fun x => (assigns.hasCode_iff wf x).trans (assigned x) }

theorem Image.builtFor_empty : Image.empty.BuiltFor [] := by
  have noTree : ¬ Image.empty.hasTree = true := by decide
  have assigns : Image.empty.Assigns fun _ => none :=
    { leaf_iff := fun x p => iff_of_false nofun fun ⟨i, leaf, sym⟩ => noTree leaf.1
      short := fun x p => nofun
      entry := fun x => rfl }
  refine assigns.builtFor (assigns.wf (absurd · noTree) (by decide) (absurd · noTree)) ?_ rfl fun x => by simp
  exact Image.reservedZero_of_entries (fun i => .inr ⟨none, none, mkInternal_none_none.symm⟩) (fun _ => by decide) fun i _ => rfl

/-- The image of one symbol: its leaf at index 0 on the LEFT of the synthetic root (44_rom_image_construction.md
rule R176). -/
def soleLeafImage (s : Byte) : Image :=
  { code := [(s.toNat, mkCode [false])]
    node := [(0, mkLeaf s), (1, mkInternal (some 0#9) none)]
    root := mkRoot 1#9 }

/-- The one path that image assigns. -/
def soleLeafPath (s x : Byte) : Option (List Bool) := if s = x then some [false] else none

namespace soleLeafImage

variable (s : Byte)

theorem rootIdx : (soleLeafImage s).rootIdx = 1#9 := rootIdx_of_root rfl

theorem nodeEntry (i : NodeIdx) :
    (soleLeafImage s).nodeEntry i =
      if i = 0#9 then mkLeaf s else if i = 1#9 then mkInternal (some 0#9) none else 0 := by
  have at_iff : ∀ k : NodeIdx, k.toNat = i.toNat ↔ i = k := fun k => by rw [BitVec.toNat_inj, eq_comm]
  simp only [Image.nodeEntry, soleLeafImage, Memory.read]
  exact if_congr (at_iff 0#9) rfl (if_congr (at_iff 1#9) rfl rfl)

theorem nodeLookup_leaf : (soleLeafImage s).nodeLookup 0#9 = nodeFields (mkLeaf s) := by
  rw [Image.nodeLookup, nodeEntry, if_pos rfl]

theorem nodeLookup_root : (soleLeafImage s).nodeLookup 1#9 = nodeFields (mkInternal (some 0#9) none) := by
  rw [Image.nodeLookup, nodeEntry, if_neg (by decide), if_pos rfl]

theorem rootInternal : (soleLeafImage s).isLeaf (soleLeafImage s).rootIdx = false := by
  rw [rootIdx, Image.isLeaf, nodeLookup_root, leaf_mkInternal]

theorem child (bit : Bool) :
    ((soleLeafImage s).nodeLookup (soleLeafImage s).rootIdx).child bit = if bit then none else some 0#9 := by
  rw [rootIdx, nodeLookup_root, child_mkInternal]

theorem isLeaf : (soleLeafImage s).isLeaf 0#9 = true := by
  rw [Image.isLeaf, nodeLookup_leaf, leaf_mkLeaf]

theorem oneLeafOn : (soleLeafImage s).OneLeafOn false := ⟨0#9, child s false, child s true, isLeaf s⟩

theorem path : (soleLeafImage s).Path (soleLeafImage s).rootIdx [false] 0#9 :=
  .edge (rootInternal s) (child s false) (.here _)

theorem leafAt_iff (p : List Bool) (i : NodeIdx) : (soleLeafImage s).LeafAt p i ↔ p = [false] ∧ i = 0#9 := by
  constructor
  · rintro ⟨-, toLeaf, leaf⟩
    have moved : p ≠ [] := by
      rintro rfl
      rw [← Image.path_nil_iff.1 toLeaf, rootInternal] at leaf
      cases leaf
    cases (oneLeafOn s).path_eq moved toLeaf
    exact ⟨rfl, toLeaf.unique (path s)⟩
  · rintro ⟨rfl, rfl⟩
    exact ⟨hasTree_of_root rfl, path s, isLeaf s⟩

theorem assigns : (soleLeafImage s).Assigns (soleLeafPath s) where
  leaf_iff x p := by
    simp only [leafAt_iff, and_assoc, exists_and_left, exists_eq_left, nodeLookup_leaf, sym_mkLeaf, soleLeafPath,
      Option.ite_none_right_eq_some, Option.some.injEq]
    rw [eq_comm (a := p), and_comm]
  short x p toP := by
    obtain ⟨-, code⟩ := Option.ite_none_right_eq_some.1 toP
    cases code
    decide
  entry x := by
    simp only [Image.codeEntry, soleLeafImage, Memory.read, soleLeafPath, BitVec.toNat_inj]
    split <;> rfl

theorem reservedZero : (soleLeafImage s).ReservedZero := by
  refine Image.reservedZero_of_entries (fun i => ?entries) (fun noTree => ?root) fun i unreached => ?unreachable
  case entries =>
    rw [nodeEntry]
    split_ifs
    · exact .inl ⟨s, rfl⟩
    · exact .inr ⟨_, _, rfl⟩
    · exact .inr ⟨none, none, mkInternal_none_none.symm⟩
  case root => exact absurd ((hasTree_of_root rfl).symm.trans noTree) (by decide)
  case unreachable =>
    have away : i ≠ 0#9 ∧ i ≠ 1#9 := by
      constructor <;> rintro rfl
      · exact unreached (hasTree_of_root rfl) _ (path s)
      · exact unreached (hasTree_of_root rfl) [] (by rw [rootIdx]; exact .here _)
    rw [nodeEntry, if_neg away.1, if_neg away.2]

theorem canonical : (soleLeafImage s).canonical = true := by
  simp only [Image.canonical, soleLeafImage, Memory.wf, Memory.wfFrom, Bool.and_eq_true, decide_eq_true_eq, and_true]
  exact ⟨⟨⟨Nat.zero_le _, s.isLt⟩, mkCode_ne_zero _ (by decide) (by decide)⟩,
    ⟨⟨Nat.zero_le _, by decide⟩, mkLeaf_ne_zero s⟩, ⟨by decide, by decide⟩, mkInternal_ne_zero _ _ rfl⟩

theorem builtFor : (soleLeafImage s).BuiltFor [s] := by
  refine (assigns s).builtFor ?_ (reservedZero s) (canonical s) fun x => ?_
  · exact (assigns s).wf (fun _ _ _ _ => (oneLeafOn s).path_unique (rootInternal s)) (rootInternal s)
      fun _ => .inr ⟨false, oneLeafOn s⟩
  · rw [List.mem_singleton, soleLeafPath, eq_comm (a := x)]
    split_ifs with same <;> simp [same]

/-- The Code Generator finds the one leaf. -/
theorem codes_eq : codes { soleLeafImage s with code := [] } = (soleLeafImage s).code := by
  have tree : ({ soleLeafImage s with code := [] } : Image).hasTree = true := hasTree_of_root rfl
  have toLeaf := codesFrom_of_leftOnly (img := { soleLeafImage s with code := [] }) 255 [] [] (rootInternal s)
    (child s false) (child s true)
  have atLeaf := codesFrom_of_leaf (img := { soleLeafImage s with code := [] }) 254 [false] [] (isLeaf s)
  have sym : (({ soleLeafImage s with code := [] } : Image).nodeLookup 0#9).sym = s :=
    (congrArg NodeFields.sym (nodeLookup_leaf s)).trans (sym_mkLeaf s)
  rw [codes, if_pos tree]
  refine toLeaf.trans (atLeaf.trans ?_)
  rw [sym, Memory.write, if_neg (mkCode_ne_zero _ (by decide) (by decide))]
  rfl

end soleLeafImage

/-! ### Two symbols and more -/

/-- Every index of a tree is that of the subtree some path leads to. -/
theorem BuiltTree.exists_at?_of_mem_indices {t : BuiltTree} {i : Nat} (mem : i ∈ t.indices) :
    ∃ p u, t.at? p = some u ∧ u.idx = i := by
  induction t with
  | leaf k x => exact ⟨[], .leaf k x, rfl, (List.mem_singleton.1 mem).symm⟩
  | node k l r toL toR =>
    simp only [indices, List.mem_cons, List.mem_append] at mem
    rcases mem with rfl | inL | inR
    · exact ⟨[], .node i l r, rfl, rfl⟩
    · obtain ⟨p, found⟩ := toL inL
      exact ⟨false :: p, found⟩
    · obtain ⟨p, found⟩ := toR inR
      exact ⟨true :: p, found⟩

/-- Where the leaves hold distinct symbols, the path of a symbol is the one path that leads to it. -/
theorem BuiltTree.pathOf_eq_some_iff {t : BuiltTree} (once : t.symbols.Nodup) {x : Byte} {p : List Bool} :
    t.pathOf x = some p ↔ ∃ k, t.at? p = some (.leaf k x) := by
  constructor
  · exact at?_pathOf
  · rintro ⟨k, found⟩
    obtain ⟨q, path⟩ := Option.isSome_iff_exists.1 (pathOf_isSome_iff.2 (symbol_mem found))
    obtain ⟨j, found'⟩ := at?_pathOf path
    rw [path, (leaf_inj once found found').1]

/-- There are 256 bytes. -/
theorem length_le_of_nodup {ss : List Byte} (distinct : ss.Nodup) : ss.length ≤ 256 := by
  have fins : (ss.map BitVec.toFin).Nodup := distinct.map fun _ _ => BitVec.toFin_inj.1
  simpa using fins.length_le_card

/-- An image that holds the merged tree of the distinct symbols `ss`, and nothing else in NODE and ROOT. -/
structure Image.HoldsTree (img : Image) (t : BuiltTree) (next : Nat) (ss : List Byte) : Prop where
  forest : Forest img.node next [t] ss
  room : next ≤ 512
  root : img.root = mkRoot (BitVec.ofNat 9 t.idx)
  distinct : ss.Nodup
  two : 2 ≤ ss.length

namespace Image.HoldsTree

variable {img : Image} {t : BuiltTree} {next : Nat} {ss : List Byte} (held : img.HoldsTree t next ss)
include held

theorem rep : t.Rep img.node := held.forest.holds t List.mem_cons_self

theorem indices_perm : t.indices.Perm (List.range next) := by
  simpa only [List.flatMap_cons, List.flatMap_nil, List.append_nil] using held.forest.indices

theorem symbols_perm : t.symbols.Perm ss := by
  simpa only [List.flatMap_cons, List.flatMap_nil, List.append_nil] using held.forest.symbols

theorem index_lt {i : Nat} (mem : i ∈ t.indices) : i < 512 :=
  Nat.lt_of_lt_of_le (List.mem_range.1 (held.indices_perm.mem_iff.1 mem)) held.room

theorem once : t.symbols.Nodup := held.symbols_perm.nodup_iff.2 held.distinct

theorem height_lt : t.height < 256 := by
  have below := t.length_symbols_pos
  rw [held.symbols_perm.length_eq] at below
  exact Nat.lt_of_lt_of_le below (length_le_of_nodup held.distinct)

theorem hasTree : img.hasTree = true := hasTree_of_root held.root

/-- The paths from the root are those of the tree. -/
theorem path_iff {p : List Bool} {i : NodeIdx} :
    img.Path img.rootIdx p i ↔ ∃ u, t.at? p = some u ∧ i = BitVec.ofNat 9 u.idx := by
  rw [rootIdx_of_root held.root]
  exact held.rep.path_iff (fun _ => held.index_lt) p i

theorem lookup_leaf {p : List Bool} {k : Nat} {x : Byte} (found : t.at? p = some (.leaf k x)) :
    img.isLeaf (BitVec.ofNat 9 k) = true ∧ (img.nodeLookup (BitVec.ofNat 9 k)).sym = x ∧
      img.nodeEntry (BitVec.ofNat 9 k) = mkLeaf x := by
  obtain ⟨rep, within⟩ := BuiltTree.at?_rep held.rep found
  exact rep.lookup fun i mem => held.index_lt (within i mem)

theorem lookup_node {p : List Bool} {k : Nat} {l r : BuiltTree} (found : t.at? p = some (.node k l r)) :
    img.isLeaf (BitVec.ofNat 9 k) = false ∧
      img.nodeEntry (BitVec.ofNat 9 k) = mkInternal (some (BitVec.ofNat 9 l.idx)) (some (BitVec.ofNat 9 r.idx)) := by
  obtain ⟨rep, within⟩ := BuiltTree.at?_rep held.rep found
  obtain ⟨internal, entry, -⟩ := rep.lookup fun i mem => held.index_lt (within i mem)
  exact ⟨internal, entry⟩

theorem leaf_iff {x : Byte} {p : List Bool} :
    (∃ k, t.at? p = some (.leaf k x)) ↔ ∃ i, img.LeafAt p i ∧ (img.nodeLookup i).sym = x := by
  constructor
  · rintro ⟨k, found⟩
    obtain ⟨leaf, sym, -⟩ := held.lookup_leaf found
    exact ⟨_, ⟨held.hasTree, held.path_iff.2 ⟨_, found, rfl⟩, leaf⟩, sym⟩
  · rintro ⟨i, ⟨-, path, leaf⟩, sym⟩
    obtain ⟨u, found, rfl⟩ := held.path_iff.1 path
    cases u with
    | leaf k y =>
      obtain ⟨-, symY, -⟩ := held.lookup_leaf found
      exact ⟨k, by rw [found, ← sym, ← symY]; rfl⟩
    | node k l r => exact absurd (leaf.symm.trans (held.lookup_node found).1) (by decide)

theorem path_unique {p q : List Bool} {i : NodeIdx} (hp : img.Path img.rootIdx p i) (hq : img.Path img.rootIdx q i) :
    p = q := by
  obtain ⟨u, foundU, rfl⟩ := held.path_iff.1 hp
  obtain ⟨v, foundV, same⟩ := held.path_iff.1 hq
  have smallU := held.index_lt (BuiltTree.at?_idx_mem foundU)
  have smallV := held.index_lt (BuiltTree.at?_idx_mem foundV)
  have sameNat := congrArg BitVec.toNat same
  rw [BitVec.toNat_ofNat, BitVec.toNat_ofNat, Nat.mod_eq_of_lt smallU, Nat.mod_eq_of_lt smallV] at sameNat
  exact BuiltTree.at?_inj (held.indices_perm.nodup_iff.2 List.nodup_range) foundU foundV sameNat

theorem twoChildren {p : List Bool} {i : NodeIdx} (path : img.Path img.rootIdx p i) (internal : img.isLeaf i = false) :
    img.TwoChildren i := by
  obtain ⟨u, found, rfl⟩ := held.path_iff.1 path
  cases u with
  | leaf k x => exact absurd ((held.lookup_leaf found).1.symm.trans internal) (by decide)
  | node k l r =>
    obtain ⟨-, entry⟩ := held.lookup_node found
    rw [BuiltTree.idx, Image.TwoChildren, Image.nodeLookup, entry, lv_mkInternal, rv_mkInternal]
    exact ⟨rfl, rfl⟩

theorem rootInternal : img.isLeaf img.rootIdx = false := by
  have symbols := held.symbols_perm.length_eq
  have two := held.two
  rw [rootIdx_of_root held.root]
  cases t with
  | leaf k x => simp only [BuiltTree.symbols, List.length_singleton] at symbols; omega
  | node k l r => exact (held.lookup_node (p := []) rfl).1

/-- An entry that is not zero is that of a node of the tree. -/
theorem entry_cases (i : NodeIdx) :
    img.nodeEntry i = 0 ∨ ∃ p u, t.at? p = some u ∧ i = BitVec.ofNat 9 u.idx := by
  by_cases used : i.toNat < next
  · obtain ⟨p, u, found, idx⟩ :=
      BuiltTree.exists_at?_of_mem_indices (held.indices_perm.mem_iff.2 (List.mem_range.2 used))
    exact .inr ⟨p, u, found, by rw [idx, BitVec.ofNat_toNat, BitVec.setWidth_eq]⟩
  · exact .inl (held.forest.unused _ (Nat.le_of_not_lt used))

theorem reservedZero : img.ReservedZero := by
  refine Image.reservedZero_of_entries (fun i => ?entries) (fun noTree => ?root) fun i unreached => ?unreachable
  case entries =>
    rcases held.entry_cases i with zero | ⟨p, u, found, rfl⟩
    · exact .inr ⟨none, none, zero.trans mkInternal_none_none.symm⟩
    · cases u with
      | leaf k x =>
        obtain ⟨-, -, entry⟩ := held.lookup_leaf found
        exact .inl ⟨x, entry⟩
      | node k l r =>
        obtain ⟨-, entry⟩ := held.lookup_node found
        exact .inr ⟨_, _, entry⟩
  case root => exact absurd (held.hasTree.symm.trans noTree) (by decide)
  case unreachable =>
    refine (held.entry_cases i).resolve_right ?_
    rintro ⟨p, u, found, rfl⟩
    exact unreached held.hasTree p (held.path_iff.2 ⟨u, found, rfl⟩)

/-- The Code Generator writes the path of each symbol and nothing else. -/
theorem codes_spec :
    Memory.wf 256 (codes img) = true ∧ ∀ x : Byte, (codes img).read x.toNat = (t.pathOf x).elim 0 mkCode := by
  obtain ⟨wf, read⟩ := codesFrom_spec held.rep (fun _ => held.index_lt) 256 held.height_lt [] [] rfl
  rw [codes, if_pos held.hasTree, rootIdx_of_root held.root]
  refine ⟨wf, fun x => ?_⟩
  rw [read x]
  cases t.pathOf x <;> rfl

theorem withCode (code : Memory 263) : ({ img with code := code } : Image).HoldsTree t next ss := { held with }

/-- With the generated codes, the image is the one built for the symbols. -/
theorem builtFor : ({ img with code := codes img } : Image).BuiltFor ss := by
  obtain ⟨codeWf, read⟩ := held.codes_spec
  replace held := held.withCode (codes img)
  have assigns : ({ img with code := codes img } : Image).Assigns t.pathOf :=
    { leaf_iff := fun x p => (BuiltTree.pathOf_eq_some_iff held.once).trans held.leaf_iff
      short := fun x p path => by
        obtain ⟨k, found⟩ := (BuiltTree.pathOf_eq_some_iff held.once).1 path
        exact Nat.le_of_lt_succ (Nat.lt_of_le_of_lt (BuiltTree.length_le_height found) held.height_lt)
      entry := read }
  have wf := assigns.wf (fun _ _ _ _ => held.path_unique) held.rootInternal fun _ => .inl fun _ _ => held.twoChildren
  refine assigns.builtFor wf held.reservedZero ?_ fun x => ?_
  · rw [Image.canonical, Bool.and_eq_true]
    exact ⟨codeWf, held.forest.wf⟩
  · rw [BuiltTree.pathOf_isSome_iff, held.symbols_perm.mem_iff]

end Image.HoldsTree

/-! ### Every model -/

theorem builtFor_buildImage (m : FreqModel) (distinct : (m.counts.map (·.1)).Nodup) :
    (buildImage m).BuiltFor (m.counts.map (·.1)) := by
  obtain ⟨counts, total⟩ := m
  match counts, distinct with
  | [], _ =>
    have built : buildImage ⟨[], total⟩ = Image.empty :=
      congrArg (fun code => ({ Image.empty with code := code } : Image))
        (show codes Image.empty = [] from if_neg (by decide))
    rw [built]
    exact Image.builtFor_empty
  | [(s, n)], _ =>
    have built : buildImage ⟨[(s, n)], total⟩ = soleLeafImage s :=
      congrArg (fun code => ({ soleLeafImage s with code := code } : Image)) (soleLeafImage.codes_eq s)
    rw [built]
    exact soleLeafImage.builtFor s
  | c :: d :: counts, distinct =>
    have most : (c :: d :: counts).length ≤ 256 := by
      simpa only [List.length_map] using length_le_of_nodup distinct
    obtain ⟨t, forest, root⟩ := buildTree_spec (c :: d :: counts) (by simp) most
    exact Image.HoldsTree.builtFor (img := { code := [], node := _, root := _ })
      { forest := forest, room := by omega, root := root, distinct := distinct, two := by simp }

/-- Settles O50: by the number of symbols, none, one or more. -/
theorem builtImageIsWellFormed : Obligations.BuiltImageIsWellFormed := by
  unfold Obligations.BuiltImageIsWellFormed
  intro m distinct
  obtain ⟨wf, reservedZero, canonical, hasCode_iff⟩ := builtFor_buildImage m distinct
  exact ⟨wf, reservedZero, canonical, hasCode_iff⟩

end Sys2Proof.Machine

/-! ## The encoder (41_bit_stream_encoder.md): its commands case by case, its sessions, and what it keeps apart from -/

namespace Sys2Proof.Machine

/-! ### One lemma per case of ENC_PUT and ENC_FLUSH -/

theorem exec_encPut_faulted {s : State} (b : Byte) (faulted : s.enc.fault ≠ 0#2) : exec (.encPut b) s = .next s := by
  rw [exec_encPut, if_pos faulted]

theorem exec_encPut_noCode {s : State} {b : Byte} (running : s.enc.fault = 0#2)
    (noCode : (s.img.codeLookup b).len = 0#8) :
    exec (.encPut b) s = .next { s with enc := { s.enc with fault := encNoCode } } := by
  rw [exec_encPut, if_neg (not_not.2 running), if_pos noCode]

theorem exec_encFlush_faulted {s : State} (faulted : s.enc.fault ≠ 0#2) : exec .encFlush s = .next s := by
  rw [exec_encFlush, if_pos faulted]

/-- A flush leaves the initial state (41_bit_stream_encoder.md rule R123). -/
theorem exec_encFlush_running {s : State} (running : s.enc.fault = 0#2) :
    exec .encFlush s =
      .next { s with
        enc := Enc.fresh
        encOut := s.encOut ++ if s.enc.nbits ≠ 0#3 then [s.enc.flushByte] else [] } := by
  have fresh : ({ s.enc with acc := 0#8, nbits := 0#3 } : Enc) = Enc.fresh := congrArg (Enc.mk 0#8 0#3) running
  rw [exec_encFlush, if_neg (not_not.2 running), fresh]

/-- With no pending bit a flush emits nothing (41_bit_stream_encoder.md rule R123). -/
theorem exec_encFlush_empty {s : State} (running : s.enc.fault = 0#2) (empty : s.enc.nbits = 0#3) :
    exec .encFlush s = .next { s with enc := Enc.fresh } := by
  rw [exec_encFlush_running running, if_neg (not_not.2 empty), List.append_nil]

/-! ### ENC_INIT -/

/-- Settles O16: a command that finds a fault recorded leaves it, in each case but that of ENC_INIT. -/
theorem encInitGivesTheInitialState : Obligations.EncInitGivesTheInitialState := by
  unfold Obligations.EncInitGivesTheInitialState
  refine ⟨exec_encInit, fun i s t hx faulted clear => ?_, fun s running => ⟨_, exec_encFlush_running running, rfl⟩⟩
  cases executes_of_exec hx with
  | encInit => rfl
  | putCode _ running => exact absurd running faulted
  | putNoCode _ running => exact absurd running faulted
  | _ => exact absurd clear faulted

/-! ### ENC_PUT -/

/-- Settles O17: ENC_PUT appends the code, whose length and number are those of LEN and BITS. -/
theorem encPutEmitsTheWholeBytes : Obligations.EncPutEmitsTheWholeBytes := by
  unfold Obligations.EncPutEmitsTheWholeBytes
  intro s b p L V Z r running small hp hL one hV hZ hr
  have code : s.img.HasCode b := by
    intro none
    rw [none] at hL
    exact absurd (hL ▸ one) (by decide)
  have spec := Enc.pushBits_spec (s.img.codeOf b) s.enc small
  rw [Image.codeOf, CodeFields.length_string, CodeFields.bitsVal_string, ← hL, ← hp, ← hV, ← hZ, running] at spec
  dsimp only at spec
  rw [← hr] at spec
  rw [exec_encPut_hasCode running code, State.encAppend, Image.codeOf, spec]
  rfl

/-- Settles O18: the two cases of ENC_PUT that push no bit. -/
theorem encPutOfNoCodeOnlyFaults : Obligations.EncPutOfNoCodeOnlyFaults := by
  unfold Obligations.EncPutOfNoCodeOnlyFaults
  exact ⟨fun _ _ => exec_encPut_noCode, fun _ b => exec_encPut_faulted b⟩

/-! ### ENC_FLUSH and the shifts -/

theorem Enc.flushByte_eq (e : Enc) : e.flushByte = BitVec.ofNat 8 (e.acc.toNat * 2 ^ (8 - e.nbits.toNat)) := by
  apply BitVec.eq_of_toNat_eq
  rw [Enc.flushByte, BitVec.toNat_shiftLeft, BitVec.toNat_ofNat, Nat.shiftLeft_eq]

/-- Settles O19: the cases of ENC_FLUSH; the initial state it leaves has no group to emit. -/
theorem encFlushPadsThePartialGroup : Obligations.EncFlushPadsThePartialGroup := by
  unfold Obligations.EncFlushPadsThePartialGroup
  refine ⟨fun s => exec_encFlush_faulted, fun s => exec_encFlush_empty, fun s running partly => ?partly,
    fun s t running first => ?second⟩
  case partly =>
    rw [exec_encFlush_running running, if_pos partly, Enc.flushByte_eq]
    rfl
  case second =>
    rw [exec_encFlush_running running] at first
    cases first
    exact exec_encFlush_empty rfl rfl

/-- A group in its form fits a byte when shifted to the high side (41_bit_stream_encoder.md rule R127). -/
theorem Enc.shifted_group_lt {e : Enc} (small : e.acc.toNat < 2 ^ e.nbits.toNat) :
    e.acc.toNat * 2 ^ (8 - e.nbits.toNat) < 256 := by
  have room : e.nbits.toNat ≤ 8 := by have := e.nbits.isLt; omega
  calc e.acc.toNat * 2 ^ (8 - e.nbits.toNat)
      < 2 ^ e.nbits.toNat * 2 ^ (8 - e.nbits.toNat) := Nat.mul_lt_mul_of_pos_right small (Nat.two_pow_pos _)
    _ = 256 := by rw [← Nat.pow_add, Nat.add_sub_cancel' room]

/-- A group in its form has room for one more bit (41_bit_stream_encoder.md rule R127). -/
theorem Enc.toNat_group_push_exact {e : Enc} (small : e.acc.toNat < 2 ^ e.nbits.toNat) (c : Bool) :
    ((e.acc ++ BitVec.ofBool c).setWidth 8 : Byte).toNat = 2 * e.acc.toNat + c.toNat := by
  have pending : e.nbits.toNat ≤ 7 := by have := e.nbits.isLt; omega
  have low : 2 ^ e.nbits.toNat ≤ 2 ^ 7 := Nat.pow_le_pow_right (by decide) pending
  have bit : c.toNat ≤ 1 := Bool.toNat_le c
  rw [toNat_group_push, Nat.mod_eq_of_lt (by omega)]

/-- Settles O20: the shifted group is below 256, and the group one bit longer still fits the byte. -/
theorem encoderShiftsAreExact : Obligations.EncoderShiftsAreExact := by
  unfold Obligations.EncoderShiftsAreExact
  intro s small
  have fits := Enc.shifted_group_lt small
  refine ⟨?flush, fits, fun c e out push => ⟨fun partly => ?kept, fun last => ?emitted⟩⟩
  case flush => rw [Enc.flushByte_eq, BitVec.toNat_ofNat, Nat.mod_eq_of_lt fits]
  case kept =>
    rw [Enc.pushBit, if_neg partly] at push
    cases push
    refine ⟨rfl, Enc.toNat_group_push_exact small c, ?_⟩
    bv_omega
  case emitted =>
    rw [Enc.pushBit, if_pos last] at push
    cases push
    exact ⟨_, rfl, Enc.toNat_group_push_exact small c, rfl⟩

/-! ### Sessions -/

/-- Settles O21: the ENC_PUT commands append the concatenated codes, and the flush completes their artifact. -/
theorem encoderSessionPacksTheCodes : Obligations.EncoderSessionPacksTheCodes := by
  unfold Obligations.EncoderSessionPacksTheCodes
  refine ⟨fun s ss fresh codes => ?_, fun s ss => execAll_compressCommands⟩
  have puts := execAll_encPut ss s (by rw [fresh]) codes
  refine ⟨?_, _, puts, ?_⟩
  · rw [execAll_append_next puts, execAll_cons_next (exec_encFlush_encAppend _ _ fresh), execAll_nil]
  · rw [encAppend_encOut, show s.enc = Enc.fresh from fresh, pushBits_fresh]

/-- Settles O22: the symbols before `x` append their codes, `x` records the fault, and the rest finds it recorded. -/
theorem missedCodeEndsTheSession : Obligations.MissedCodeEndsTheSession := by
  unfold Obligations.MissedCodeEndsTheSession
  intro s pre post x fresh codes noCode
  have puts := execAll_encPut pre s (by rw [fresh]) codes
  have bytes : (Enc.pushBits (s.img.codesOf pre) s.enc).2 =
      (artifact (s.img.codesOf pre)).take ((s.img.codesOf pre).length / 8) := by
    rw [show s.enc = Enc.fresh from fresh, pushBits_fresh]
  have running : (s.encAppend (s.img.codesOf pre)).enc.fault = 0#2 := by
    rw [encAppend_enc, Enc.pushBits_fault, fresh]
  refine ⟨_, puts, ?session, ?state, running, ?pending⟩
  case session =>
    rw [List.map_append, List.map_cons, List.append_assoc, execAll_append_next puts, List.cons_append,
      execAll_cons_next (exec_encPut_noCode running noCode)]
    exact execAll_encPut_faulted post _ (show encNoCode ≠ 0#2 by decide)
  case state =>
    rw [← bytes]
    rfl
  case pending =>
    rw [encAppend_enc, (Enc.length_pushBits _ _).2, fresh]
    exact congrArg (· % 8) (Nat.zero_add _)

/-! ### What the units keep apart from -/

/-- The commands of the encoder (41_bit_stream_encoder.md rule R120). -/
def EncoderCommand (i : Instr) : Prop := i = .encInit ∨ (∃ b, i = .encPut b) ∨ i = .encFlush

/-- The commands of the decoder (42_bit_stream_decoder.md rule R140). -/
def DecoderCommand (i : Instr) : Prop := (∃ n, i = .decInit n) ∨ (∃ b, i = .decPut b) ∨ i = .decEnd

/-- An encoder command writes ENC's registers and appends to enc_out, and what it writes depends neither on the decoder, nor
on dec_out, NODE or ROOT (41_bit_stream_encoder.md rule R120). -/
theorem exec_encoder {i : Instr} (unit : EncoderCommand i) (s : State) :
    ∃ e bs, ∀ (d : Dec) (syms : List Byte) (node : Memory 21) (root : RootEntry),
      exec i { s with dec := d, decOut := syms, img := { s.img with node := node, root := root } } =
        .next { s with
          enc := e, encOut := s.encOut ++ bs
          dec := d, decOut := syms, img := { s.img with node := node, root := root } } := by
  rcases unit with rfl | ⟨b, rfl⟩ | rfl
  · exact ⟨Enc.fresh, [], fun _ _ _ _ => by rw [exec_encInit, List.append_nil]⟩
  · by_cases running : s.enc.fault = 0#2
    · by_cases noCode : (s.img.codeLookup b).len = 0#8
      · refine ⟨{ s.enc with fault := encNoCode }, [], fun _ _ _ _ => ?_⟩
        rw [List.append_nil]
        exact exec_encPut_noCode running noCode
      · exact ⟨(Enc.pushBits (s.img.codeOf b) s.enc).1, (Enc.pushBits (s.img.codeOf b) s.enc).2,
          fun _ _ _ _ => exec_encPut_hasCode running noCode⟩
    · refine ⟨s.enc, [], fun _ _ _ _ => ?_⟩
      rw [List.append_nil]
      exact exec_encPut_faulted b running
  · by_cases running : s.enc.fault = 0#2
    · exact ⟨Enc.fresh, if s.enc.nbits ≠ 0#3 then [s.enc.flushByte] else [],
        fun _ _ _ _ => exec_encFlush_running running⟩
    · refine ⟨s.enc, [], fun _ _ _ _ => ?_⟩
      rw [List.append_nil]
      exact exec_encFlush_faulted running

/-- The walk does not read CODE. -/
theorem Dec.walkBits_withCode (img : Image) (code : Memory 263) (bits : List Bool) (d : Dec) :
    Dec.walkBits { img with code := code } bits d = Dec.walkBits img bits d := by
  induction bits generalizing d with
  | nil => rfl
  | cons bit bits ih =>
    have first : d.walkBit { img with code := code } bit = d.walkBit img bit := rfl
    simp only [Dec.walkBits, first, ih]

/-- A decoder command writes DEC's registers and appends to dec_out, and what it writes depends neither on the encoder, nor
on enc_out or CODE (42_bit_stream_decoder.md rule R140). -/
theorem exec_decoder {i : Instr} (unit : DecoderCommand i) (s : State) :
    ∃ d syms, ∀ (e : Enc) (bs : List Byte) (code : Memory 263),
      exec i { s with enc := e, encOut := bs, img := { s.img with code := code } } =
        .next { s with
          dec := d, decOut := s.decOut ++ syms
          enc := e, encOut := bs, img := { s.img with code := code } } := by
  rcases unit with ⟨n, rfl⟩ | ⟨b, rfl⟩ | rfl
  · exact ⟨Dec.start s.img.rootLookup n, [], fun _ _ _ => by rw [exec_decInit, List.append_nil]; rfl⟩
  · refine ⟨(Dec.walkBits s.img (byteBits b) s.dec).1, (Dec.walkBits s.img (byteBits b) s.dec).2, fun _ _ _ => ?_⟩
    rw [exec_decPut, State.decWalk, Dec.walkBits_withCode]
    rfl
  · by_cases truncated : s.dec.fault = 0#2 ∧ s.dec.produced ≠ s.dec.total
    · refine ⟨{ s.dec with fault := decTruncated }, [], fun _ _ _ => ?_⟩
      rw [exec_decEnd, if_pos truncated, List.append_nil]
    · refine ⟨s.dec, [], fun _ _ _ => ?_⟩
      rw [exec_decEnd, if_neg truncated, List.append_nil]

/-- Settles O23: the frame is what an encoder command does on the state's own NODE and ROOT. -/
theorem encoderCommandFrame : Obligations.EncoderCommandFrame := by
  unfold Obligations.EncoderCommandFrame
  intro i s t unit hx
  obtain ⟨e, bs, does⟩ := exec_encoder unit s
  cases hx.symm.trans (does s.dec s.decOut s.img.node s.img.root)
  exact ⟨⟨bs, rfl⟩, does s.dec s.decOut⟩

/-- Settles O38: each unit's command writes and reads nothing of the other's, so both orders make both changes. -/
theorem encoderAndDecoderCommandsCommute : Obligations.EncoderAndDecoderCommandsCommute := by
  unfold Obligations.EncoderAndDecoderCommandsCommute
  intro e d s encoder decoder
  obtain ⟨enc, bs, encodes⟩ := exec_encoder encoder s
  obtain ⟨dec, syms, decodes⟩ := exec_decoder decoder s
  refine ⟨{ s with enc := enc, encOut := s.encOut ++ bs, dec := dec, decOut := s.decOut ++ syms }, ?_, ?_⟩
  · exact (execAll_cons_next (encodes s.dec s.decOut s.img.node s.img.root)).trans
      (execAll_cons_next (decodes enc (s.encOut ++ bs) s.img.code))
  · exact (execAll_cons_next (decodes s.enc s.encOut s.img.code)).trans
      (execAll_cons_next (encodes dec (s.decOut ++ syms) s.img.node s.img.root))

end Sys2Proof.Machine

/-! ## The decoder (42_bit_stream_decoder.md): its walk of the tree, its count, its sessions and what it keeps apart from -/

namespace Sys2Proof.Machine

/-! ### The walk stays on the tree -/

/-- What `State.OnTree` says of the decoder's registers beside an image (10_state.md rule R26). -/
def Dec.OnTree (img : Image) (d : Dec) : Prop :=
  img.hasTree = true → img.isLeaf img.rootIdx = false → d.total ≠ 0#32 →
    img.isLeaf d.cur = false ∧ ∃ p, img.Path img.rootIdx p d.cur

/-- Nothing of the state but the decoder and the image enters `State.OnTree`. -/
theorem State.onTree_iff (s : State) : s.OnTree ↔ s.dec.OnTree s.img := Iff.rfl

/-- A walk at the root is on the tree. -/
theorem Dec.onTree_of_root {img : Image} {d : Dec} (root : img.hasTree = true → d.cur = img.rootIdx) : d.OnTree img := by
  intro tree internal _
  rw [root tree]
  exact ⟨internal, [], .here _⟩

/-- With a tree a session starts at the root with no fault (42_bit_stream_decoder.md rule R141). -/
theorem Dec.start_of_tree {img : Image} (n : Count) (tree : img.hasTree = true) :
    Dec.start img.rootLookup n = { total := n, produced := 0#32, cur := img.rootIdx, fault := 0#2 } := by
  rw [Dec.start_of_runs (.inl tree), if_pos tree]

theorem Dec.start_onTree (img : Image) (n : Count) : (Dec.start img.rootLookup n).OnTree img :=
  Dec.onTree_of_root fun tree => by rw [Dec.start_of_tree n tree]

theorem Dec.OnTree.walkBits {img : Image} {d : Dec} (h : d.OnTree img) (bits : List Bool) :
    (Dec.walkBits img bits d).1.OnTree img := by
  refine Dec.walkBits_keeps img (P := Dec.OnTree img) ?noChild ?symbol ?move bits d h
  case noChild => exact fun _ h _ _ => h
  case symbol => exact fun _ _ _ _ _ _ _ _ => Dec.onTree_of_root fun _ => rfl
  case move =>
    intro d bit j h _ curInternal child internal tree rootInternal owes
    obtain ⟨-, p, path⟩ := h tree rootInternal owes
    exact ⟨internal, p ++ [bit], path.append (.edge curInternal child (.here j))⟩

theorem exec_keeps_onTree {i : Instr} {s t : State} (h : s.OnTree) (hx : exec i s = .next t) : t.OnTree := by
  rw [State.onTree_iff] at h ⊢
  cases executes_of_exec hx with
  | decInit n => exact Dec.start_onTree s.img n
  | decPut => exact h.walkBits _
  | _ => exact h

/-- Settles O13: DEC_INIT goes to the root, a bit goes on to an internal child or back to the root, and nothing else moves. -/
theorem stepKeepsTheWalkOnTheTree : Obligations.StepKeepsTheWalkOnTheTree := by
  unfold Obligations.StepKeepsTheWalkOnTheTree
  intro s t hs h
  exact step_keeps_of_exec (fun _ _ _ hs => hs) (fun _ _ _ hs hx => exec_keeps_onTree hs hx) hs h

/-! ### DEC_PUT -/

/-- A walk as a whole: the registers and the symbols it appends determine the state, and the state them. -/
theorem decWalk_eq_iff {s : State} {bits : List Bool} {d : Dec} {out : List Byte} :
    s.decWalk bits = { s with dec := d, decOut := s.decOut ++ out } ↔ Dec.walkBits s.img bits s.dec = (d, out) := by
  constructor
  · intro same
    refine Prod.ext (congrArg State.dec same) ?_
    exact List.append_cancel_left (congrArg State.decOut same)
  · intro walk
    rw [State.decWalk, walk, State.emitDec]

/-- A walk that emits nothing changes only DEC's registers. -/
theorem decWalk_of_silent {s : State} {bits : List Bool} {d : Dec} (walk : Dec.walkBits s.img bits s.dec = (d, [])) :
    s.decWalk bits = { s with dec := d } := by
  rw [decWalk_eq_iff.2 walk, List.append_nil]

/-- A done or faulted decoder ignores DEC_PUT (60_exceptions.md rule R193). -/
theorem exec_decPut_of_stopped {s : State} (b : Byte) (stopped : s.dec.stopped = true) :
    exec (.decPut b) s = .next s := by
  rw [exec_decPut, decWalk_of_silent (Dec.walkBits_of_stopped _ _ _ stopped)]

/-- `Image.Decodes` is the graph of the loop (42_bit_stream_decoder.md rule R142). -/
theorem Image.decodes_iff {img : Image} {bits : List Bool} {d d' : Dec} {out : List Byte} :
    img.Decodes bits d out d' ↔ Dec.walkBits img bits d = (d', out) := by
  constructor
  · exact Image.Decodes.eq_walkBits
  · intro walk
    simpa only [walk] using Dec.walkBits_decodes img bits d

/-- Settles O25: DEC_PUT is the loop on the byte's bits, and the loop decodes. -/
theorem decPutWalksTheTree : Obligations.DecPutWalksTheTree := by
  unfold Obligations.DecPutWalksTheTree
  refine ⟨fun s b => ?completes, fun s b d out => ?decodes, fun s b stopped => ?ignores⟩
  case completes =>
    exact ⟨_, _, congrArg Host.Outcome.next (decWalk_eq_iff.2 rfl), Dec.length_walkBits s.img (byteBits b) s.dec⟩
  case decodes =>
    rw [exec_decPut, Host.Outcome.next.injEq, decWalk_eq_iff]
    exact Image.decodes_iff.symm
  case ignores => exact exec_decPut_of_stopped b ((Dec.stopped_eq_true_iff _).2 stopped)

/-- The loop counts the symbols it emits, and within the total it does not wrap (42_bit_stream_decoder.md rule R151). -/
theorem Dec.walkBits_counts (img : Image) (bits : List Bool) {d : Dec} (count : d.produced.toNat ≤ d.total.toNat) :
    (Dec.walkBits img bits d).1.produced.toNat = d.produced.toNat + (Dec.walkBits img bits d).2.length ∧
      (Dec.walkBits img bits d).1.produced.toNat ≤ d.total.toNat := by
  induction bits generalizing d with
  | nil => exact ⟨rfl, count⟩
  | cons bit bits ih =>
    cases running : d.stopped with
    | true =>
      rw [Dec.walkBits_of_stopped _ _ _ running]
      exact ⟨rfl, count⟩
    | false =>
      rw [Dec.walkBits_cons _ _ _ _ running]
      rcases Dec.walkBit_cases img d bit with ⟨noChild, -⟩ | ⟨j, -, -, -, symbol⟩ | ⟨j, -, -, -, move⟩
      · rw [noChild]
        exact ih (d := d.raise decNoChild) count
      · obtain ⟨next, bound⟩ := Dec.count_succ count running
        obtain ⟨counts, within⟩ :=
          ih (d := { d with produced := d.produced + 1#32, cur := img.rootIdx }) (next.trans_le bound)
        rw [symbol]
        refine ⟨?_, within⟩
        rw [counts, next, List.singleton_append, List.length_cons, Nat.add_right_comm, Nat.add_assoc]
      · rw [move]
        exact ih (d := { d with cur := j }) count

/-- Settles O27: the symbols appended are those the loop counts. -/
theorem decPutCountsItsSymbols : Obligations.DecPutCountsItsSymbols := by
  unfold Obligations.DecPutCountsItsSymbols
  intro s t b count hx
  cases hx
  obtain ⟨counts, within⟩ := Dec.walkBits_counts s.img (byteBits b) count
  exact ⟨_, decWalk_decOut .., counts, within.trans_eq (congrArg BitVec.toNat (Dec.walkBits_total ..)).symm⟩

/-! ### DEC_INIT and DEC_END -/

/-- With no tree a session is done or faulted from its start (42_bit_stream_decoder.md rule R141). -/
theorem Dec.start_stopped_of_noTree {img : Image} (n : Count) (noTree : img.hasTree = false) :
    (Dec.start img.rootLookup n).stopped = true :=
  (Dec.start_inv img n).noTree noTree

/-- Settles O24: the registers are those of a start, which has no symbol to decode or no tree to walk where it is stopped. -/
theorem decInitStartsASession : Obligations.DecInitStartsASession := by
  unfold Obligations.DecInitStartsASession
  refine fun n s => ⟨?registers, fun t hx => ?consequences⟩
  case registers => rw [exec_decInit, Dec.start_eq]; rfl
  case consequences =>
    cases hx
    refine ⟨fun none => ?done, fun noTree b => exec_decPut_of_stopped b (Dec.start_stopped_of_noTree n noTree)⟩
    case done =>
      rw [State.decDone, Dec.start_of_runs (.inr none), none]
      exact ⟨rfl, rfl⟩

/-- DEC_END while symbols are owed records DEC_TRUNCATED (42_bit_stream_decoder.md rule R143). -/
theorem exec_decEnd_of_owed {s : State} (running : s.dec.fault = 0#2) (owes : s.dec.produced ≠ s.dec.total) :
    exec .decEnd s = .next { s with dec := { s.dec with fault := decTruncated } } := by
  rw [exec_decEnd, if_pos ⟨running, owes⟩]

/-- Settles O26: of the two cases of DEC_END, the one that finds symbols owed leaves a fault. -/
theorem decEndChecksTheCount : Obligations.DecEndChecksTheCount := by
  unfold Obligations.DecEndChecksTheCount
  refine ⟨fun s => exec_decEnd_of_owed, fun s stopped => ?ignores, fun s t hx clear => ?done⟩
  case ignores => exact (exec_decEnd s).trans (if_neg fun owed => stopped.elim (· owed.1) owed.2)
  case done =>
    cases executes_of_exec hx with
    | endIgnored stopped =>
      by_contra owes
      exact stopped ⟨clear, owes⟩
    | endTruncated => exact absurd clear (show decTruncated ≠ 0#2 by decide)

/-! ### What the decoder keeps apart from -/

/-- Settles O29: the frame is what a decoder command does on the state's own ENC, enc_out and CODE. -/
theorem decoderCommandFrame : Obligations.DecoderCommandFrame := by
  unfold Obligations.DecoderCommandFrame
  intro i s t unit hx
  obtain ⟨d, syms, does⟩ := exec_decoder unit s
  cases hx.symm.trans (does s.enc s.encOut s.img.code)
  exact ⟨⟨syms, rfl⟩, does s.enc s.encOut⟩

/-! ### Sessions -/

/-- A running decoder that stands on a leaf records DEC_NO_CHILD at the next bit and drops those after it
(42_bit_stream_decoder.md rule R145). -/
theorem Dec.walkBits_of_leaf {img : Image} {bits : List Bool} {d : Dec} (running : d.stopped = false)
    (leaf : img.isLeaf d.cur = true) (more : bits ≠ []) :
    Dec.walkBits img bits d = ({ d with fault := decNoChild }, []) := by
  cases bits with
  | nil => exact absurd rfl more
  | cons bit rest => exact (Image.Decodes.leafStart running leaf).eq_walkBits

theorem flatMap_byteBits_ne_nil {bs : List Byte} (nonempty : bs ≠ []) : bs.flatMap byteBits ≠ [] := by
  cases bs with
  | nil => exact absurd rfl nonempty
  | cons b bs => exact List.cons_ne_nil _ _

/-- Settles O28: the first of the bytes' bits finds the walk on the root, which is a leaf. -/
theorem leafRootFaultsAtTheFirstBit : Obligations.LeafRootFaultsAtTheFirstBit := by
  unfold Obligations.LeafRootFaultsAtTheFirstBit
  intro s n bs tree leaf counted nonempty
  have running : ({ total := n, produced := 0#32, cur := s.img.rootIdx, fault := 0#2 } : Dec).stopped = false :=
    (Dec.stopped_eq_false_iff _).2 ⟨rfl, Ne.symm counted⟩
  have walk := Dec.walkBits_of_leaf running leaf (flatMap_byteBits_ne_nil nonempty)
  calc execAll (.decInit n :: bs.map .decPut) s
      = .next (State.decWalk { s with dec := Dec.start s.img.rootLookup n } (bs.flatMap byteBits)) :=
        (execAll_cons_next (exec_decInit n s)).trans (execAll_decPut bs _)
    _ = _ := by
        rw [Dec.start_of_tree n tree]
        exact congrArg Host.Outcome.next (decWalk_of_silent walk)

theorem Image.codesOf_append (img : Image) (xs ys : List Byte) :
    img.codesOf (xs ++ ys) = img.codesOf xs ++ img.codesOf ys :=
  List.flatMap_append

/-- The artifact of the codes, with any bytes after it, begins with the codes of the first symbols. -/
theorem flatMap_byteBits_artifact_codes (img : Image) (ss extra : List Byte) (n : Nat) :
    ∃ rest, (artifact (img.codesOf ss) ++ extra).flatMap byteBits = img.codesOf (ss.take n) ++ rest := by
  obtain ⟨pad, bits⟩ := flatMap_byteBits_artifact (img.codesOf ss)
  refine ⟨img.codesOf (ss.drop n) ++ (List.replicate pad false ++ extra.flatMap byteBits), ?_⟩
  rw [List.flatMap_append, bits, ← List.append_assoc (img.codesOf _), ← Image.codesOf_append, List.take_append_drop,
    List.append_assoc]

/-- Settles O44: the codes of the symbols counted come first, so the session is done before any other bit. -/
theorem uncountedInputIsIgnored : Obligations.UncountedInputIsIgnored := by
  unfold Obligations.UncountedInputIsIgnored
  intro s ss extra n wf codes most short
  obtain ⟨rest, bits⟩ := flatMap_byteBits_artifact_codes s.img ss extra n
  have counted : (ss.take n).length = n := List.length_take_of_le most
  have walk := walkBits_session wf (fun x mem => codes x (List.mem_of_mem_take mem)) (counted.trans_lt short) rest
  rw [counted, ← bits] at walk
  refine ⟨_, (execAll_decompressCommands s _ _).trans (exec_decEnd_of_done ?_), ?_⟩
  · rw [decWalk_dec, walk]
  · rw [State.decDone, decWalk_decOut, decWalk_dec, walk]
    exact ⟨rfl, rfl, beq_self_eq_true _⟩

/-- Settles O45: the bytes left are a proper beginning of the codes, after which symbols are owed and no fault is recorded. -/
theorem truncatedArtifactIsReported : Obligations.TruncatedArtifactIsReported := by
  unfold Obligations.TruncatedArtifactIsReported
  intro s ss m wf codes short cut
  have tree : s.img.hasTree = true := by
    cases ss with
    | nil => exact absurd cut (Nat.not_lt_zero _)
    | cons x xs => exact wf.tree_of_hasCode (codes x List.mem_cons_self)
  have start := Dec.start_of_tree (BitVec.ofNat 32 ss.length) tree
  obtain ⟨k, few, low, high, out, running, owes⟩ :=
    walkBits_partOfCodes wf ss codes (Dec.start s.img.rootLookup (BitVec.ofNat 32 ss.length))
      (congrArg Dec.cur start) (congrArg Dec.fault start)
      (by rw [start]; exact (Nat.zero_add _).trans (Nat.mod_eq_of_lt short).symm) (8 * m) cut
  rw [← flatMap_byteBits_take_artifact _ m cut.le] at out running owes
  rw [← Dec.walkBits_total s.img] at owes
  refine ⟨_, k, (execAll_decompressCommands s _ _).trans (exec_decEnd_of_owed running owes), few, low, high,
    congrArg (s.decOut ++ ·) out, rfl, ?_⟩
  exact beq_eq_false_iff_ne.2 owes

end Sys2Proof.Machine

/-! ## Status and control (43_status_and_control.md): what STAT and the lookups let the host read -/

namespace Sys2Proof.Machine

/-! ### The status word -/

/-- Settles O31: the data are the status word, whose fields are read one by one. -/
theorem statReportsTheState : Obligations.StatReportsTheState := by
  unfold Obligations.StatReportsTheState
  exact fun s => ⟨s.statusWord, exec_stat s, statusWord_encFault s, statusWord_decFault s, statusWord_cmdErr s,
    statusWord_decDone s, statusWord_rootValid s, statusWord_reserved7 s, statusWord_encNbits s,
    statusWord_reserved11 s, statusWord_decCur s, statusWord_reserved25 s, statusWord_decProduced s,
    statusWord_decTotal s, statusWord_encAcc s, statusWord_reserved104 s⟩

/-- The encoder's registers, read off the status word (10_state.md rule R32). -/
theorem State.enc_of_statusWord (s : State) :
    s.enc =
      { acc := s.statusWord.extractLsb' 96 8
        nbits := s.statusWord.extractLsb' 8 3
        fault := s.statusWord.extractLsb' 0 2 } := by
  rw [statusWord_encAcc, statusWord_encNbits, statusWord_encFault]

/-- The decoder's registers, read off the status word (10_state.md rule R32). -/
theorem State.dec_of_statusWord (s : State) :
    s.dec =
      { total := s.statusWord.extractLsb' 64 32
        produced := s.statusWord.extractLsb' 32 32
        cur := s.statusWord.extractLsb' 16 9
        fault := s.statusWord.extractLsb' 2 2 } := by
  rw [statusWord_decTotal, statusWord_decProduced, statusWord_decCur, statusWord_decFault]

/-! ### The lookups -/

/-- Zero-extension to the data of a response loses no bit of an entry (30_encoding.md rule R79). -/
theorem eq_of_emitRsp_setWidth {w : Nat} {s t : State} {g : Opcode} {x y : BitVec w} (fits : w ≤ 264)
    (before : s.rsp = t.rsp)
    (alike : (s.emitRsp g (x.setWidth 264)).rsp = (t.emitRsp g (y.setWidth 264)).rsp) : x = y := by
  rw [emitRsp_rsp, emitRsp_rsp, before] at alike
  have data : x.setWidth 264 = y.setWidth 264 :=
    congrArg Response.data (List.singleton_inj.1 (List.append_cancel_left alike))
  simpa [BitVec.setWidth_setWidth_of_le _ fits] using congrArg (BitVec.setWidth w) data

/-- Settles O32: the registers are functions of the status word, and each entry is read by one lookup from any state. -/
theorem statAndLookupsHideNothing : Obligations.StatAndLookupsHideNothing := by
  unfold Obligations.StatAndLookupsHideNothing
  refine ⟨fun s t same => ⟨?enc, ?dec, ?cmdErr⟩, fun a b ha hb alike => Image.eq_of_entries ha hb ?code ?node ?root⟩
  case enc => rw [s.enc_of_statusWord, same, ← t.enc_of_statusWord]
  case dec => rw [s.dec_of_statusWord, same, ← t.dec_of_statusWord]
  case cmdErr => rw [← statusWord_cmdErr s, same, statusWord_cmdErr t]
  case code =>
    intro x
    have answers := alike State.reset (.romCode x) (.inl ⟨x, rfl⟩) _ _ (exec_romCode x _) (exec_romCode x _)
    exact eq_of_emitRsp_setWidth (by decide) rfl answers
  case node =>
    intro k
    have answers := alike State.reset (.romNode k) (.inr (.inl ⟨k, rfl⟩)) _ _ (exec_romNode k _) (exec_romNode k _)
    exact eq_of_emitRsp_setWidth (by decide) rfl answers
  case root =>
    have answers := alike State.reset .romRoot (.inr (.inr rfl)) _ _ (exec_romRoot _) (exec_romRoot _)
    exact eq_of_emitRsp_setWidth (by decide) rfl answers

end Sys2Proof.Machine

/-! ## The host's flows (44_rom_image_construction.md): the counted model, its table artifact, and compress with decompress -/

namespace Sys2Proof.Machine

/-! ### The counted model -/

/-- The counts add up to the total (44_rom_image_construction.md rule R171). -/
theorem FreqModel.count_total_eq_sum (bytes : List Byte) :
    (FreqModel.count bytes).total = ((FreqModel.count bytes).counts.map (·.2)).sum :=
  ((sum_counts_foldl bytes []).trans (Nat.zero_add _)).symm

theorem FreqModel.mem_count_counts_iff (bytes : List Byte) (b : Byte) (n : Nat) :
    (b, n) ∈ (FreqModel.count bytes).counts ↔ n = bytes.count b ∧ 1 ≤ n := by
  obtain ⟨canonical, counts⟩ := count_counts bytes
  rw [mem_counts_iff canonical, counts]

/-- Settles O48: counting a byte adds one to the sum and to its own count, and the list is canonical throughout. -/
theorem countedModelCountsEverySymbol : Obligations.CountedModelCountsEverySymbol := by
  unfold Obligations.CountedModelCountsEverySymbol
  exact fun bytes => ⟨FreqModel.count_total_eq_sum bytes, FreqModel.mem_count_counts_iff bytes⟩

theorem FreqModel.mem_count_symbols {bytes : List Byte} {b : Byte} (occurs : b ∈ bytes) :
    b ∈ (FreqModel.count bytes).counts.map (·.1) :=
  List.mem_map_of_mem (f := Prod.fst)
    ((FreqModel.mem_count_counts_iff bytes b _).2 ⟨rfl, List.count_pos_iff.2 occurs⟩)

/-- A canonical list names no symbol twice: those after an entry are above its symbol. -/
theorem CanonicalCounts.nodup_symbols {lo : Nat} {cs : List (Byte × Nat)} (h : CanonicalCounts lo cs) :
    (cs.map (·.1)).Nodup := by
  induction cs generalizing lo with
  | nil => exact List.nodup_nil
  | cons c cs ih =>
    obtain ⟨s, k⟩ := c
    obtain ⟨-, -, hcs⟩ := h
    refine List.nodup_cons.2 ⟨fun again => ?_, ih hcs⟩
    obtain ⟨⟨t, n⟩, mem, same : t = s⟩ := List.mem_map.1 again
    obtain ⟨counted, pos⟩ := (mem_counts_iff hcs t n).1 mem
    have absent : countOf t cs = 0 := countOf_below hcs (same ▸ Nat.lt_succ_self _)
    omega

/-- The image of a counted input has a code for each of its bytes (44_rom_image_construction.md rule R179). -/
theorem buildImage_count (bytes : List Byte) :
    (buildImage (FreqModel.count bytes)).WF ∧ ∀ b ∈ bytes, (buildImage (FreqModel.count bytes)).HasCode b := by
  have built := builtFor_buildImage (FreqModel.count bytes) (count_counts bytes).1.nodup_symbols
  exact ⟨built.wf, fun b occurs => (built.hasCode_iff b).2 (FreqModel.mem_count_symbols occurs)⟩

/-! ### The table artifact -/

/-- Adding up the pairs of a canonical list gives that list again. -/
theorem CanonicalCounts.foldl_addCount {cs : List (Byte × Nat)} (h : CanonicalCounts 0 cs) :
    cs.foldl (fun a c => addCount c.1 c.2 a) [] = cs := by
  obtain ⟨canonical, counts⟩ := countOf_foldl cs [] trivial
  exact eq_of_countOf canonical h fun x => by rw [counts, sum_filter_counts h, countOf, Nat.zero_add]

theorem deserialize_malformed {t : TableArtifact} (wrong : t.distinct ≠ t.pairs.length) :
    deserialize t = .error .malformedTable := if_neg wrong

/-- A model in canonical form survives its table artifact (44_rom_image_construction.md rules R172 and R173). -/
theorem deserialize_serialize {m : FreqModel} (canonical : CanonicalCounts 0 m.counts) :
    deserialize (serialize m) = .ok m :=
  calc deserialize (serialize m)
      = .ok { m with counts := m.counts.foldl (fun a c => addCount c.1 c.2 a) [] } := if_pos rfl
    _ = .ok m := by rw [canonical.foldl_addCount]

/-- Settles O49: a counted model is in the canonical form that reading back restores. -/
theorem tableArtifactRoundTrip : Obligations.TableArtifactRoundTrip := by
  unfold Obligations.TableArtifactRoundTrip
  exact ⟨fun bytes => deserialize_serialize (count_counts bytes).1, fun _ => deserialize_malformed⟩

/-- The table of a counted input passes the check for zero distinct symbols with nonzero total (44_rom_image_construction.md
rule R181). -/
theorem serialize_count_consistent (bytes : List Byte) :
    ¬ ((serialize (FreqModel.count bytes)).distinct = 0 ∧ (serialize (FreqModel.count bytes)).total ≠ 0) := by
  rintro ⟨noSymbol, counted⟩
  have total : (FreqModel.count bytes).total = ((FreqModel.count bytes).counts.map (·.2)).sum :=
    FreqModel.count_total_eq_sum bytes
  rw [List.eq_nil_of_length_eq_zero noSymbol] at total
  exact counted total

/-! ### Compress and decompress -/

theorem compress_nil : compress [] = .ok none := rfl

/-- An encoder session without a fault is a successful compress (44_rom_image_construction.md rule R180). -/
theorem compress_of_run {bytes : List Byte} {s : State} (nonempty : bytes ≠ [])
    (run : execAll (compressCommands bytes) (State.resetWith (buildImage (FreqModel.count bytes))) = .next s)
    (noFault : s.enc.fault = 0#2) : compress bytes = .ok (some (serialize (FreqModel.count bytes), s.encOut)) := by
  have counted : (FreqModel.count bytes).total ≠ 0 := fun zero => nonempty (List.eq_nil_of_length_eq_zero zero)
  simp only [compress, if_neg counted, run, if_pos noFault]

/-- A decoder session that ends done and without a fault is a successful decompress (44_rom_image_construction.md
rule R181). -/
theorem decompress_of_run {t : TableArtifact} {packed : List Byte} {m : FreqModel} {s : State}
    (read : deserialize t = .ok m) (consistent : ¬ (t.distinct = 0 ∧ t.total ≠ 0)) (fits : t.total < 2 ^ 32)
    (run : execAll (decompressCommands (BitVec.ofNat 32 t.total) packed) (State.resetWith (buildImage m)) = .next s)
    (noFault : s.dec.fault = 0#2) (done : s.decDone = true) : decompress t packed = .ok s.decOut := by
  have inRange : ¬ 2 ^ Config.COUNT_W ≤ t.total := Nat.not_le.2 fits
  simp only [decompress, read, if_neg consistent, if_neg inRange, run, if_pos (And.intro noFault done)]

/-- Settles O51: both flows build the same image, well-formed with a code for every byte, so the sessions round-trip. -/
theorem compressThenDecompressIsIdentity : Obligations.CompressThenDecompressIsIdentity := by
  unfold Obligations.CompressThenDecompressIsIdentity
  refine ⟨compress_nil, fun bytes nonempty short => ?_⟩
  obtain ⟨wf, codes⟩ := buildImage_count bytes
  obtain ⟨packed, encoded, t, decoded, out, noFault, produced, total, -⟩ :=
    roundTripUnderWellFormedImage (State.resetWith (buildImage (FreqModel.count bytes))) bytes wf codes short
  have done : t.decDone = true := beq_iff_eq.2 (produced.trans total.symm)
  refine ⟨serialize (FreqModel.count bytes), packed, compress_of_run nonempty encoded rfl, ?_⟩
  rw [decompress_of_run (deserialize_serialize (count_counts bytes).1) (serialize_count_consistent bytes) short decoded
    noFault done, out, resetWith_decOut, List.nil_append]

end Sys2Proof.Machine

/-! ## Exceptions (60_exceptions.md): which command records or clears a fault, and what a recorded fault leaves alone -/

namespace Sys2Proof.Machine

/-! ### Completion, and the level of fault_o -/

/-- Settles O15: whatever a command changes, it answers a next state. -/
theorem everyCommandCompletes : Obligations.EveryCommandCompletes := by
  unfold Obligations.EveryCommandCompletes
  intro i s
  obtain ⟨_, _, _, _, _, hx⟩ := exec_changes i s
  exact ⟨_, hx⟩

theorem State.faultO_eq_true_iff (s : State) :
    s.faultO = true ↔ s.enc.fault ≠ 0#2 ∨ s.dec.fault ≠ 0#2 ∨ s.cmdErr = true := by
  simp [State.faultO, or_assoc]

/-- Settles O34: out of reset the output is the state's own fault_o. -/
theorem faultOutputIsTheOrOfTheFlags : Obligations.FaultOutputIsTheOrOfTheFlags := by
  unfold Obligations.FaultOutputIsTheOrOfTheFlags
  intro b i t out
  have level : (b.outputs i t).faultO = b.state.faultO := by rw [Bench.outputs, if_pos out]
  rw [level]
  exact b.state.faultO_eq_true_iff

/-! ### The first fault stays -/

/-- Only a command changes what is read of the state beside CMD_ERR and the waiting words. -/
theorem step_executes_of_changes {α : Type} {f : State → α}
    (blind : ∀ s q c, f { s with cmdQueue := q, cmdErr := c } = f s) {s t : State} (h : step s = .next t)
    (changed : f t ≠ f s) :
    ∃ w ws i, s.cmdQueue = w :: ws ∧ decode w = .ok i ∧ exec i { s with cmdQueue := ws } = .next t := by
  rcases step_cases h with ⟨-, rfl⟩ | command | ⟨w, ws, r, -, -, rfl⟩
  · exact absurd rfl changed
  · exact command
  · exact absurd (blind s ws true) changed

/-- A recorded encoder fault is changed by ENC_INIT alone, which clears it (60_exceptions.md rule R190). -/
theorem encInit_of_encFault_changes {i : Instr} {s t : State} (hx : exec i s = .next t) (faulted : s.enc.fault ≠ 0#2)
    (changed : t.enc.fault ≠ s.enc.fault) : i = .encInit ∧ t.enc.fault = 0#2 := by
  cases executes_of_exec hx with
  | encInit => exact ⟨rfl, rfl⟩
  | putNoCode _ running => exact absurd running faulted
  | putCode _ running => exact absurd running faulted
  | _ => exact absurd rfl changed

/-- A recorded decoder fault is changed by DEC_INIT alone (60_exceptions.md rule R190). -/
theorem decInit_of_decFault_changes {i : Instr} {s t : State} (hx : exec i s = .next t) (faulted : s.dec.fault ≠ 0#2)
    (changed : t.dec.fault ≠ s.dec.fault) : ∃ n, i = .decInit n := by
  cases executes_of_exec hx with
  | decInit n => exact ⟨n, rfl⟩
  | decPut b =>
    rw [decWalk_dec, Dec.walkBits_of_stopped _ _ _ ((Dec.stopped_eq_true_iff _).2 (.inl faulted))] at changed
    exact absurd rfl changed
  | endTruncated running => exact absurd running faulted
  | _ => exact absurd rfl changed

/-- Settles O35: a step that changes a fault executes a command, and of the commands only the unit's own INIT changes one. -/
theorem firstFaultStays : Obligations.FirstFaultStays := by
  unfold Obligations.FirstFaultStays
  refine fun s t h => ⟨fun faulted changed => ?enc, fun faulted changed => ?dec⟩
  case enc =>
    obtain ⟨w, ws, i, hq, hw, hx⟩ := step_executes_of_changes (f := (·.enc.fault)) (fun _ _ _ => rfl) h changed
    obtain ⟨rfl, clear⟩ := encInit_of_encFault_changes hx faulted changed
    exact ⟨clear, w, ws, hq, hw⟩
  case dec =>
    obtain ⟨w, ws, i, hq, hw, hx⟩ := step_executes_of_changes (f := (·.dec.fault)) (fun _ _ _ => rfl) h changed
    obtain ⟨n, rfl⟩ := decInit_of_decFault_changes hx faulted changed
    exact ⟨w, ws, n, hq, hw⟩

/-! ### The cause of each fault -/

/-- Where a bit finds no way on: a leaf, or a node that lacks a child (42_bit_stream_decoder.md rule R142). -/
def Image.DeadEnd (img : Image) (i : NodeIdx) : Prop :=
  img.isLeaf i = true ∨ ∃ bit, (img.nodeLookup i).child bit = none

theorem Dec.fault_ne_noChild {d : Dec} (running : d.stopped = false) : d.fault ≠ decNoChild := by
  rw [((Dec.stopped_eq_false_iff d).1 running).1]
  decide

/-- The loop leaves the fault as it was, or records DEC_NO_CHILD and stays where it failed (60_exceptions.md rule R191). -/
theorem Dec.walkBits_fault (img : Image) (bits : List Bool) (d : Dec) :
    (Dec.walkBits img bits d).1.fault = d.fault ∨
      ((Dec.walkBits img bits d).1.fault = decNoChild ∧ img.DeadEnd (Dec.walkBits img bits d).1.cur) := by
  refine Dec.walkBits_keeps img (P := fun e => e.fault = d.fault ∨ e.fault = decNoChild ∧ img.DeadEnd e.cur)
    ?noChild ?symbol ?move bits d (.inl rfl)
  case noChild => exact fun _ _ _ deadEnd => .inr ⟨rfl, deadEnd⟩
  case symbol =>
    exact fun _ _ _ before running _ _ _ => .inl (before.resolve_right fun h => Dec.fault_ne_noChild running h.1)
  case move =>
    exact fun _ _ _ before running _ _ _ => .inl (before.resolve_right fun h => Dec.fault_ne_noChild running h.1)

/-- A session that starts with a fault owes symbols and has no tree (42_bit_stream_decoder.md rule R141). -/
theorem Dec.start_of_faulted {img : Image} {n : Count} (faulted : (Dec.start img.rootLookup n).fault ≠ 0#2) :
    n ≠ 0#32 ∧ img.hasTree = false ∧
      Dec.start img.rootLookup n = { total := n, produced := 0#32, cur := 0#9, fault := decNoTree } := by
  have cannotRun : ¬ (img.hasTree = true ∨ n = 0#32) := fun runs => faulted (by rw [Dec.start_of_runs runs])
  obtain ⟨tree, owes⟩ := not_or.1 cannotRun
  have noTree : img.rootLookup.valid = false := Bool.eq_false_of_not_eq_true tree
  exact ⟨owes, noTree, by simp [Dec.start_eq, noTree, owes]⟩

/-- Settles O36: of the cases of a command, ENC_PUT of a symbol with no code records the encoder's fault, and a walk, an end with
symbols owed and a start with no tree record the decoder's. -/
theorem eachFaultHasItsCause : Obligations.EachFaultHasItsCause := by
  unfold Obligations.EachFaultHasItsCause
  refine fun i s t hx => ⟨fun changed recorded => ?enc, fun changed recorded => ?dec⟩
  case enc =>
    cases executes_of_exec hx with
    | encInit => exact absurd rfl recorded
    | putNoCode b _ noCode => exact ⟨b, rfl, noCode, rfl⟩
    | putCode => exact absurd (Enc.pushBits_fault ..) changed
    | _ => exact absurd rfl changed
  case dec =>
    cases executes_of_exec hx with
    | decInit n =>
      obtain ⟨owes, noTree, start⟩ := Dec.start_of_faulted recorded
      rw [start]
      exact .inr (.inr ⟨rfl, n, rfl, owes, noTree, rfl⟩)
    | decPut b =>
      obtain ⟨noChild, deadEnd⟩ := (Dec.walkBits_fault s.img (byteBits b) s.dec).resolve_left changed
      exact .inl ⟨noChild, ⟨b, rfl⟩, Dec.walkBits_total .., deadEnd⟩
    | endTruncated _ owes => exact .inr (.inl ⟨rfl, rfl, owes, rfl⟩)
    | _ => exact absurd rfl changed

/-! ### A faulted unit, and the rest of the block -/

theorem exec_decPut_faulted {s : State} (b : Byte) (faulted : s.dec.fault ≠ 0#2) : exec (.decPut b) s = .next s :=
  exec_decPut_of_stopped b ((Dec.stopped_eq_true_iff _).2 (.inl faulted))

theorem exec_decEnd_faulted {s : State} (faulted : s.dec.fault ≠ 0#2) : exec .decEnd s = .next s := by
  rw [exec_decEnd, if_neg fun owed => faulted owed.1]

/-- The commands that answer with an entry of the image (40_tree_rom_lookup.md rules R103 to R105). -/
def LookupCommand (i : Instr) : Prop := (∃ b, i = .romCode b) ∨ (∃ k, i = .romNode k) ∨ i = .romRoot

theorem command_cases (i : Instr) : EncoderCommand i ∨ DecoderCommand i ∨ LookupCommand i ∨ i = .stat := by
  cases i <;> simp [EncoderCommand, DecoderCommand, LookupCommand]

/-- A lookup appends one response, which depends on neither unit. -/
theorem exec_lookup {i : Instr} (lookup : LookupCommand i) (s : State) :
    ∃ r, ∀ (e : Enc) (d : Dec),
      exec i { s with enc := e, dec := d } = .next { s with enc := e, dec := d, rsp := s.rsp ++ [r] } := by
  rcases lookup with ⟨b, rfl⟩ | ⟨k, rfl⟩ | rfl
  · exact ⟨⟨0x8#4, (s.img.codeEntry b).setWidth 264⟩, fun _ _ => rfl⟩
  · exact ⟨⟨0x9#4, (s.img.nodeEntry k).setWidth 264⟩, fun _ _ => rfl⟩
  · exact ⟨⟨0xA#4, s.img.root.setWidth 264⟩, fun _ _ => rfl⟩

/-- A command that is neither the encoder's nor STAT leaves ENC's registers and does the same whatever they hold. -/
theorem exec_withEnc {i : Instr} {s t : State} (notEncoder : ¬ EncoderCommand i) (notStat : i ≠ .stat)
    (hx : exec i s = .next t) :
    t.enc = s.enc ∧ ∀ e : Enc, exec i { s with enc := e } = .next { t with enc := e } := by
  rcases command_cases i with encoder | decoder | lookup | stat
  · exact absurd encoder notEncoder
  · obtain ⟨d, syms, does⟩ := exec_decoder decoder s
    cases hx.symm.trans (does s.enc s.encOut s.img.code)
    exact ⟨rfl, fun e => does e s.encOut s.img.code⟩
  · obtain ⟨r, does⟩ := exec_lookup lookup s
    cases hx.symm.trans (does s.enc s.dec)
    exact ⟨rfl, fun e => does e s.dec⟩
  · exact absurd stat notStat

/-- A command that is neither the decoder's nor STAT leaves DEC's registers and does the same whatever they hold. -/
theorem exec_withDec {i : Instr} {s t : State} (notDecoder : ¬ DecoderCommand i) (notStat : i ≠ .stat)
    (hx : exec i s = .next t) :
    t.dec = s.dec ∧ ∀ d : Dec, exec i { s with dec := d } = .next { t with dec := d } := by
  rcases command_cases i with encoder | decoder | lookup | stat
  · obtain ⟨e, bs, does⟩ := exec_encoder encoder s
    cases hx.symm.trans (does s.dec s.decOut s.img.node s.img.root)
    exact ⟨rfl, fun d => does d s.decOut s.img.node s.img.root⟩
  · exact absurd decoder notDecoder
  · obtain ⟨r, does⟩ := exec_lookup lookup s
    cases hx.symm.trans (does s.enc s.dec)
    exact ⟨rfl, fun d => does s.enc d⟩
  · exact absurd stat notStat

/-- Settles O37: the data commands of a faulted unit are no-ops, and no other command but STAT reads the unit's registers. -/
theorem faultedUnitIsSilent : Obligations.FaultedUnitIsSilent := by
  unfold Obligations.FaultedUnitIsSilent
  refine ⟨?encSilent, ?decSilent, fun s t i f hx => ⟨fun notStat notInit notPut notFlush => ?encUnread,
    fun notStat notInit notPut notEnd => ?decUnread⟩⟩
  case encSilent =>
    rintro s _ faulted (⟨b, rfl⟩ | rfl)
    · exact exec_encPut_faulted b faulted
    · exact exec_encFlush_faulted faulted
  case decSilent =>
    rintro s _ faulted (⟨b, rfl⟩ | rfl)
    · exact exec_decPut_faulted b faulted
    · exact exec_decEnd_faulted faulted
  case encUnread =>
    have notEncoder : ¬ EncoderCommand i := not_or.2 ⟨notInit, not_or.2 ⟨not_exists.2 notPut, notFlush⟩⟩
    obtain ⟨same, does⟩ := exec_withEnc notEncoder notStat hx
    rw [same]
    exact does { s.enc with fault := f }
  case decUnread =>
    have notDecoder : ¬ DecoderCommand i := not_or.2 ⟨not_exists.2 notInit, not_or.2 ⟨not_exists.2 notPut, notEnd⟩⟩
    obtain ⟨same, does⟩ := exec_withDec notDecoder notStat hx
    rw [same]
    exact does { s.dec with fault := f }

end Sys2Proof.Machine

/-! ## Reset (70_reset_and_hazards.md): what the ports carry and what an edge gives while rst_n is 0 -/

namespace Sys2Proof.Machine

/-- The outputs in reset (70_reset_and_hazards.md R220). -/
theorem Bench.outputs_reset {i : PortsIn} {t : Timing} {b : Bench} (inReset : i.rstN = false) :
    b.outputs i t = { cmdReady := false, encOut := none, decOut := none, rsp := none, faultO := false } := by
  simp [Bench.outputs, inReset]

/-- Settles O2: in reset the outputs are those of `Bench.outputs_reset`, and the edge gives `Bench.resetWith`, which is that
bench by definition. -/
theorem resetLevelSilencesThePorts : Obligations.ResetLevelSilencesThePorts := by
  unfold Obligations.ResetLevelSilencesThePorts
  exact fun b i t inReset => ⟨Bench.outputs_reset inReset, Bench.edge_reset inReset⟩

end Sys2Proof.Machine
